-- ==== Sys2Proof/Word.lean ====
section
/-! DEFINITION. The word types of the block: 32-bit bus words, bytes of the host-bus window, binary32 patterns. -/

namespace Sys2Proof

/-- A 32-bit register, bus or command word (spec/10_state.md, opening text). -/
abbrev Word := BitVec 32

/-- A byte of the host-bus window (R73). -/
abbrev Byte := BitVec 8

/-- An IEEE binary32 value, held as its word: bit 31 sign, bits 30:23 exponent, bits 22:0 fraction (R12).
`f32(w)` and `bits(x)` of R12 are both the identity on this representation. -/
abbrev F32 := Word

end Sys2Proof
end

