-- ==== Sys2Proof/Machine/Operands.lean ====
section
/-! DEFINITION. The five operand kinds: the only ways a command reads `ARG` (spec/30_encoding.md R102), and how an
encoder writes each back. -/

namespace Sys2Proof.Machine

/-- Kind F: the 32 bits reinterpreted as binary32 without conversion. -/
def operandF (arg : Word) : F32 := arg

/-- Kind U: the word as an unsigned integer. It is kept as the word: the CFG commands store it unchanged (R40) and
`toNat` is its value. -/
def operandU (arg : Word) : Word := arg

/-- Kind S: two's complement, -2^31 .. 2^31-1. -/
def operandS (arg : Word) : Int := arg.toInt

/-- Kind M: the five bits `ARG[20:16]`; all other bits are ignored. -/
def operandM (arg : Word) : BitVec 5 := arg.extractLsb' 16 5

/-- The ARG word that carries an S operand. -/
def argOfS (size : Int) : Word := BitVec.ofInt 32 size

/-- The ARG word that carries an M operand, every ignored bit 0. -/
def argOfM (mask : BitVec 5) : Word := mask.setWidth 32 <<< 16

end Sys2Proof.Machine
end

