-- ==== Sys2Proof/Syntax.lean ====
section
/-! DEFINITION. The two command ports and the fifteen commands of the opcode map (spec/30_encoding.md R103, R104). -/

namespace Sys2Proof

/-- The two command ports, `HOST_CMD` and `CTRL_CMD` (R39, R100). -/
inductive Port where
  | host
  | ctrl
deriving DecidableEq, Repr, Inhabited

/-- The fifteen commands of R104, one constructor per row of the opcode table, each with its operand read as its
kind of R102 says: F a binary32 word, U the word as an unsigned number, S an integer, M the five mask bits, N none.
The port is no part of a command: a setter has the same effect on both ports (R255). -/
inductive Instr where
  /-- `CFG_SAMPLE_RATE` (kind F, R200) -/
  | cfgSampleRate (v : F32)
  /-- `CFG_BLOCK_SIZE` (kind U, R201) -/
  | cfgBlockSize (v : Word)
  /-- `CFG_CHANNELS` (kind U, R202) -/
  | cfgChannels (v : Word)
  /-- `CFG_MAX_DELAY` (kind F, R203) -/
  | cfgMaxDelay (v : F32)
  /-- `INIT` (kind N, R210) -/
  | init
  /-- `RESET` (kind N, R213) -/
  | reset
  /-- `CLEAR` (kind N, R214) -/
  | clear
  /-- `PROCESS` (kind U, R220) -/
  | process (n : Word)
  /-- `WT_INIT` (kind S, R131) -/
  | wtInit (size : Int)
  /-- `STATUS_CLEAR` (kind M, R228) -/
  | statusClear (mask : BitVec 5)
  /-- `SET_MIX` (kind F, R252) -/
  | setMix (v : F32)
  /-- `SET_FEEDBACK` (kind F, R253) -/
  | setFeedback (v : F32)
  /-- `SET_DELAY_TIME` (kind F, R254) -/
  | setDelayTime (v : F32)
  /-- `SET_LFO_AMP` (kind F, R256) -/
  | setLfoAmp (v : F32)
  /-- `SET_LFO_FREQ` (kind F, R257) -/
  | setLfoFreq (v : F32)
deriving DecidableEq, Repr

end Sys2Proof
end

