-- ==== Sys2Proof/WellFormed.lean ====
section
/-! DEFINITION. Which commands an encoding can carry, and on which port a command is legal. -/

namespace Sys2Proof

/-- A command is well formed when its operand is one its kind admits (R102): an S operand is a 32-bit two's-complement
value; every F, U and M operand is its bits, and every value of them is admitted (R112). -/
def Instr.wellFormed : Instr → Bool
  | .wtInit size => decide (-2 ^ 31 ≤ size ∧ size < 2 ^ 31)
  | .cfgSampleRate _ => true
  | .cfgBlockSize _ => true
  | .cfgChannels _ => true
  | .cfgMaxDelay _ => true
  | .init => true
  | .reset => true
  | .clear => true
  | .process _ => true
  | .statusClear _ => true
  | .setMix _ => true
  | .setFeedback _ => true
  | .setDelayTime _ => true
  | .setLfoAmp _ => true
  | .setLfoFreq _ => true

/-- The five parameter setters, opcodes 0x10 to 0x14. -/
def Instr.isSetter : Instr → Bool
  | .setMix _ => true
  | .setFeedback _ => true
  | .setDelayTime _ => true
  | .setLfoAmp _ => true
  | .setLfoFreq _ => true
  | .cfgSampleRate _ => false
  | .cfgBlockSize _ => false
  | .cfgChannels _ => false
  | .cfgMaxDelay _ => false
  | .init => false
  | .reset => false
  | .clear => false
  | .process _ => false
  | .wtInit _ => false
  | .statusClear _ => false

/-- Port legality (R103): every command is legal on HOST, only the setters on CTRL. -/
def Instr.legalOn (i : Instr) : Port → Bool
  | .host => true
  | .ctrl => i.isSetter

end Sys2Proof
end

