-- ==== Sys2Proof/Decode.lean ====
section
/-! DEFINITION. Decoding a command (spec/30_encoding.md R100 to R112), total on every 64-bit value and every port, and
the encoder of the same table. -/

namespace Sys2Proof

open Sys2Proof.Machine

/-- Why a command is illegal (R110): each reason by its name. All three have the same effect, `flag ERR_ILLEGAL`. -/
inductive IllegalCommand where
  /-- `CMDW[31:8]` is not 0 -/
  | reservedBits
  /-- `CMDW[7:0]` is a reserved opcode (R111) -/
  | reservedOpcode
  /-- the opcode is not legal on the port it came by (R103) -/
  | notOnThisPort
deriving DecidableEq, Repr

/-- The opcode map R104: the command an opcode selects, with its operand of the kind the map gives; none for a reserved
opcode (R111). -/
def commandOf (opc : Nat) (arg : Word) : Option Instr :=
  match opc with
  | 0x01 => some (.cfgSampleRate (operandF arg))
  | 0x02 => some (.cfgBlockSize (operandU arg))
  | 0x03 => some (.cfgChannels (operandU arg))
  | 0x04 => some (.cfgMaxDelay (operandF arg))
  | 0x08 => some .init
  | 0x09 => some .reset
  | 0x0A => some .clear
  | 0x0B => some (.process (operandU arg))
  | 0x0C => some (.wtInit (operandS arg))
  | 0x0F => some (.statusClear (operandM arg))
  | 0x10 => some (.setMix (operandF arg))
  | 0x11 => some (.setFeedback (operandF arg))
  | 0x12 => some (.setDelayTime (operandF arg))
  | 0x13 => some (.setLfoAmp (operandF arg))
  | 0x14 => some (.setLfoFreq (operandF arg))
  | _ => none

/-- `CMDW[31:8]`, the field RSVD (R101). -/
def rsvdOf (cmdw : Word) : BitVec 24 := cmdw.extractLsb' 8 24

/-- `CMDW[7:0]`, the field OPC (R101). -/
def opcOf (cmdw : Word) : BitVec 8 := cmdw.extractLsb' 0 8

/-- `decode(port, CMDW, ARG)` of R105, its checks in R105's order. -/
def decode (port : Port) (cmdw arg : Word) : Except IllegalCommand Instr :=
  if rsvdOf cmdw ≠ 0 then .error .reservedBits
  else
    match commandOf (opcOf cmdw).toNat arg with
    | none => .error .reservedOpcode
    | some i => if i.legalOn port then .ok i else .error .notOnThisPort

/-- The opcode of a command (R104). -/
def opcodeOf : Instr → BitVec 8
  | .cfgSampleRate _ => 0x01
  | .cfgBlockSize _ => 0x02
  | .cfgChannels _ => 0x03
  | .cfgMaxDelay _ => 0x04
  | .init => 0x08
  | .reset => 0x09
  | .clear => 0x0A
  | .process _ => 0x0B
  | .wtInit _ => 0x0C
  | .statusClear _ => 0x0F
  | .setMix _ => 0x10
  | .setFeedback _ => 0x11
  | .setDelayTime _ => 0x12
  | .setLfoAmp _ => 0x13
  | .setLfoFreq _ => 0x14

/-- The command word of a command: RSVD = 0 and the opcode (R101, R104). -/
def cmdwOf (i : Instr) : Word := (opcodeOf i).setWidth 32

/-- The operand word of a command; every bit its kind ignores is 0 (R102). -/
def argOf : Instr → Word
  | .cfgSampleRate v => v
  | .cfgBlockSize v => v
  | .cfgChannels v => v
  | .cfgMaxDelay v => v
  | .init => 0
  | .reset => 0
  | .clear => 0
  | .process n => n
  | .wtInit size => argOfS size
  | .statusClear mask => argOfM mask
  | .setMix v => v
  | .setFeedback v => v
  | .setDelayTime v => v
  | .setLfoAmp v => v
  | .setLfoFreq v => v

/-- The words of a command of format C64, first the word of bits 31:0 (R100). -/
def encode (i : Instr) : List Word := [cmdwOf i, argOf i]

/-- The instruction the decoder reads from the bits `w` of a C64 command numbered as R100 numbers them, bits 31:0 the
command word and bits 63:32 the operand word, every bit from `nbits` on taken as 0. HOST is the port on which every
command is legal (R103). -/
def decodeTableWord (nbits w : Nat) : Option Instr :=
  let bits := w % 2 ^ nbits
  match decode .host (BitVec.ofNat 32 bits) (BitVec.ofNat 32 (bits / 2 ^ 32)) with
  | .ok i => some i
  | .error _ => none

end Sys2Proof
end

