-- ==== Sys2Proof/Config.lean ====
section
/-! DEFINITION. What an implementation fixes (spec/00_scope.md R8, R9) and the free values: constants without a body,
one for each thing the spec leaves open, so that nothing can be proved of the value they take. -/

namespace Sys2Proof

/-- The three agents that step the block (R320). -/
inductive Agent where
  | host
  | ctrl
  | engine
deriving DecidableEq, Repr, Inhabited

/-- The waveform parameter `WAVE` of R8: the reference configuration's `SINE` (R9), or any other function, which
`Config.customWave` stands for. -/
inductive Wave where
  | sine
  | custom
deriving DecidableEq, Repr, Inhabited

/-- The implementation parameters of R8. They stand in State, so that a claim about every state is a claim about every
implementation; R51's capability registers read them. -/
structure Params where
  maxChannels : Nat
  bufRamWords : Nat
  delayRamWords : Nat
  wtMaxSize : Nat
  wtDefaultSize : Nat
  wave : Wave
  base : Nat
deriving DecidableEq, Repr

/-- The constraints R8 puts on the parameters. -/
abbrev Params.Legal (p : Params) : Prop :=
  (1 ≤ p.maxChannels ∧ p.maxChannels ≤ 255) ∧
  (1 ≤ p.bufRamWords ∧ p.bufRamWords ≤ 2 ^ 20) ∧
  (2 ≤ p.delayRamWords ∧ p.delayRamWords ≤ 2 ^ 26) ∧
  (2 ≤ p.wtMaxSize ∧ p.wtMaxSize ≤ 2 ^ 24) ∧
  (2 ≤ p.wtDefaultSize ∧ p.wtDefaultSize ≤ p.wtMaxSize) ∧
  p.base % 0x800000 = 0

/-- The reference configuration RC of R9. -/
def Config.rc : Params where
  maxChannels := 8
  bufRamWords := 4096
  delayRamWords := 65536
  wtMaxSize := 4096
  wtDefaultSize := 1024
  wave := .sine
  base := 0

/-- FREE VALUE: entry k of an N-entry table for a waveform other than `SINE` (R8, R132; log 2). Clamped to [-1, 1]
where it is used, so that it ranges over exactly the functions R8 admits. -/
opaque Config.customWave : Nat → Nat → Word

/-- FREE VALUE: the byte a host-bus address of `BUF` holds at power-on (R49, R340, 93 I4; log 3). -/
opaque Config.bufPowerOn : Nat → Byte

/-- FREE VALUE: a word `BUF[k]` with k outside the RAM, which no state that meets the engine invariant reads (log 14). -/
opaque Config.bufOutside : Nat → Word

/-- FREE VALUE: a delay-RAM word while `DL_ALLOC = 0`, or one no channel owns (R47, 93 I5; log 4). -/
opaque Config.delayUnspecified : Nat → Word

/-- FREE VALUE: a wavetable-RAM word that no initialisation has written (R48, 93 I6; log 5). -/
opaque Config.wtUnspecified : Nat → Word

/-- FREE VALUE: a write head `W[c]` with c not below `MAX_CHANNELS` (log 14). -/
opaque Config.headOutside : Nat → Nat

/-- FREE VALUE: `nextDown` outside the domain R16 gives it (log 12). -/
opaque Config.nextDownFree : Word → Word

/-- FREE VALUE: `toInt` of an infinity or a NaN, outside the domain R16 gives it (log 12). -/
opaque Config.toIntFree : Word → Int

/-- FREE VALUE: which agent moves at the n-th choice that the schedule does not settle (R82, 93 I19; log 6). -/
opaque Config.arbiter : Nat → Agent

/-- FREE VALUE: after how many such choices ENGINE moves at the latest: weak fairness with no stated bound
(R322, 93 I24; log 6). -/
opaque Config.patience : Nat

end Sys2Proof
end

