-- ==== Sys2Proof/Machine/Float.lean ====
section
/-! DEFINITION. IEEE binary32 arithmetic as spec/00_scope.md R12 to R17 fix it: round to nearest, ties to even, one
rounding per operation, subnormals kept, one NaN. Every finite binary32 value is an integer multiple of 2^-149, so the
exact results are integers or fractions of integers in that unit, and one function rounds them all. -/

namespace Sys2Proof.Machine

/-- The canonical quiet NaN, the only NaN an operation returns (R14). -/
def qNaN : F32 := 0x7FC00000#32

/-- 1.0. -/
def fOne : F32 := 0x3F800000#32

/-- +0.0. -/
def fZero : F32 := 0#32

/-- Bit 31. -/
def fSign (x : F32) : Bool := x.msb

/-- Bits 30:0, exponent and fraction together: the magnitude's place in the order of magnitudes. -/
def fMag (x : F32) : Nat := x.toNat % 2 ^ 31

/-- The magnitude code of the infinities. -/
def infMag : Nat := 0x7F800000

def isNaN (x : F32) : Bool := decide (infMag < fMag x)

def isInf (x : F32) : Bool := decide (fMag x = infMag)

/-- True iff x is neither an infinity nor a NaN (R15). -/
def isFinite (x : F32) : Bool := decide (fMag x < infMag)

/-- +0.0 or -0.0. -/
def isZero (x : F32) : Bool := decide (fMag x = 0)

/-- The word of a sign and a magnitude code. -/
def pack (sign : Bool) (mag : Nat) : F32 := BitVec.ofNat 32 ((if sign then 2 ^ 31 else 0) + mag)

/-- The value of a finite magnitude code, in units of 2^-149: the fraction for a subnormal, else the fraction with its
hidden bit, shifted by the exponent (R12). -/
def scaledMag (mag : Nat) : Nat :=
  if mag < 2 ^ 23 then mag else (mag % 2 ^ 23 + 2 ^ 23) * 2 ^ (mag / 2 ^ 23 - 1)

/-- The value of a finite binary32, in units of 2^-149. -/
def scaled (x : F32) : Int := if fSign x then -(scaledMag (fMag x) : Int) else (scaledMag (fMag x) : Int)

/-- The magnitude code of the rational n/d (in units of 2^-149) rounded to nearest, ties to even (R13): `e` is the
exponent that leaves 24 bits (0 for a subnormal), `m` the quotient in that unit, rounded by its remainder. A result
beyond the largest finite value is an infinity. -/
def roundMag (n d : Nat) : Nat :=
  let e := Nat.log2 (n / d) - 23
  let u := d * 2 ^ e
  let m := n / u
  let r := n % u
  let m' := if u < 2 * r ∨ (2 * r = u ∧ m % 2 = 1) then m + 1 else m
  min (e * 2 ^ 23 + m') infMag

/-- An exact integer (in units of 2^-149) rounded; `zeroSign` is the sign an exact zero takes. -/
def roundInt (zeroSign : Bool) (v : Int) : F32 :=
  if v = 0 then pack zeroSign 0 else pack (decide (v < 0)) (roundMag v.natAbs 1)

/-- The value with the sign bit inverted; a NaN stays the canonical one. -/
def fneg (x : F32) : F32 := if isNaN x then qNaN else pack (!fSign x) (fMag x)

/-- `fadd` of R13: an exact sum that is zero is -0.0 only for two negative operands. -/
def fadd (a b : F32) : F32 :=
  if isNaN a || isNaN b then qNaN
  else if isInf a then (if isInf b && (fSign a != fSign b) then qNaN else a)
  else if isInf b then b
  else roundInt (fSign a && fSign b) (scaled a + scaled b)

/-- `fsub` of R13: the sum with the second operand's sign inverted. -/
def fsub (a b : F32) : F32 := fadd a (fneg b)

/-- `fmul` of R13. -/
def fmul (a b : F32) : F32 :=
  let s := fSign a != fSign b
  if isNaN a || isNaN b then qNaN
  else if isInf a || isInf b then (if isZero a || isZero b then qNaN else pack s infMag)
  else pack s (roundMag (scaledMag (fMag a) * scaledMag (fMag b)) (2 ^ 149))

/-- `fdiv` of R13. -/
def fdiv (a b : F32) : F32 :=
  let s := fSign a != fSign b
  if isNaN a || isNaN b then qNaN
  else if isInf a then (if isInf b then qNaN else pack s infMag)
  else if isInf b then pack s 0
  else if isZero b then (if isZero a then qNaN else pack s infMag)
  else pack s (roundMag (scaledMag (fMag a) * 2 ^ 149) (scaledMag (fMag b)))

/-- The order of the non-NaN values as integers; both zeros are 0. -/
def fKey (x : F32) : Int := if fSign x then -(fMag x : Int) else (fMag x : Int)

/-- `a < b` of R15. -/
def flt (a b : F32) : Bool := !isNaN a && !isNaN b && decide (fKey a < fKey b)

/-- `a > b` of R15. -/
def fgt (a b : F32) : Bool := flt b a

/-- `a == b` of R15. -/
def feq (a b : F32) : Bool := !isNaN a && !isNaN b && decide (fKey a = fKey b)

/-- `a <= b` of R15. -/
def fle (a b : F32) : Bool := !isNaN a && !isNaN b && decide (fKey a ≤ fKey b)

/-- `ffloor` of R16; a zero keeps its sign. (A NaN, which R16 does not name, gives the NaN of R14.) -/
def ffloor (x : F32) : F32 :=
  if isNaN x then qNaN
  else if isInf x || isZero x then x
  else roundInt false (scaled x / 2 ^ 149 * 2 ^ 149)

/-- `fceil` of R16, as the mirrored floor. -/
def fceil (x : F32) : F32 := fneg (ffloor (fneg x))

/-- `toInt` of R16, for a finite integral x. -/
def toInt (x : F32) : Int := if isFinite x then scaled x / 2 ^ 149 else Config.toIntFree x

/-- `fromInt` of R16: exact for |n| <= 2^24, with `fromInt(0) = +0.0`. -/
def fromInt (n : Int) : F32 := roundInt false (n * 2 ^ 149)

/-- `nextDown` of R16, for a finite x > 0. -/
def nextDown (x : F32) : F32 :=
  if !fSign x && !isZero x && isFinite x then x - 1#32 else Config.nextDownFree x

/-- `clampLow0` of R17. -/
def clampLow0 (x : F32) : F32 := if fgt x fZero then x else fZero

/-- `clamp01` of R17. -/
def clamp01 (x : F32) : F32 := if fgt x fZero then (if flt x fOne then x else fOne) else fZero

/-- The binary32 nearest to a decimal literal `±digits × 10^exp10`, ties to even (R115, kind F operands). -/
def ofDecimal (negative : Bool) (digits : Nat) (exp10 : Int) : F32 :=
  pack negative (roundMag (digits * 10 ^ exp10.toNat * 2 ^ 149) (10 ^ (-exp10).toNat))

end Sys2Proof.Machine
end

