-- ==== Sys2Proof/Machine/State.lean ====
section
/-! DEFINITION. Every piece of state the spec gives the block (spec/10_state.md), as plain data, and the state after
power-on reset (spec/70_reset_and_hazards.md R340). -/

namespace Sys2Proof.Machine

/-- The reason codes of INIT (R304). Codes 8 to 15 are reserved and never written. -/
inductive InitCode where
  | ok
  | maxDelay
  | sampleRate
  | blockSize
  | channels
  | buffer
  | capacity
  | alreadyReady
deriving DecidableEq, Repr

/-- The five sticky error bits of STATUS (R303). -/
inductive Sticky where
  | errIllegal
  | errNonfinite
  | errFrames
  | errState
  | errBus
deriving DecidableEq, Repr

/-- `STATUS` (R32), by its fields; the reserved bits read 0 and are never set, so they are not held. `sticky` is
`STATUS[20:16]`. -/
structure Status where
  ready : Bool
  busy : Bool
  wtValid : Bool
  initOk : Bool
  initCode : InitCode
  sticky : BitVec 5
deriving DecidableEq, Repr

/-- The four staging registers (R40). -/
structure Staging where
  sampleRate : F32
  blockSize : Word
  channels : Word
  maxDelay : F32
deriving DecidableEq, Repr

/-- The active ProcessSpec: SR, BS and CH (R41). -/
structure ProcessSpec where
  sampleRate : F32
  blockSize : Word
  channels : Word
deriving DecidableEq, Repr

/-- The five parameter registers (R43). -/
structure Parameters where
  mix : F32
  feedback : F32
  delayTime : F32
  lfoAmp : F32
  lfoFreq : F32
deriving DecidableEq, Repr

/-- The oscillator registers (R45). -/
structure Oscillator where
  phase : F32
  inc : F32
  gain : F32
  freq : F32
  bound : Bool
deriving DecidableEq, Repr

/-- The delay line: `DELAY_CAPACITY` (R42), `DELAY_LEN` and the write heads `W[0] .. W[MAX_CHANNELS-1]` (R46),
`DL_ALLOC` and the delay RAM (R47). `ram` is a list of (word index, word) pairs, indices strictly rising, no word
+0.0: while `DL_ALLOC = 1` a word a channel owns and the list lacks is +0.0. -/
structure DelayLine where
  capacity : Word
  len : F32
  heads : List Nat
  alloc : Bool
  ram : List (Nat × Word)
deriving DecidableEq, Repr

/-- The wavetable: `WT_SIZE` and the wavetable RAM `T` (R48), a list of (index, word) pairs, indices strictly rising,
holding exactly the words an initialisation wrote. -/
structure Wavetable where
  size : Word
  table : List (Nat × Word)
deriving DecidableEq, Repr

/-- The hidden sequencing registers `PROC_N` and `PROC_T` (R50). -/
structure Sequencer where
  procN : Word
  procT : Word
deriving DecidableEq, Repr

/-- One host-bus access (R72): its byte address, its width in bits and, for a write, the word. -/
inductive BusAccess where
  | read (addr width : Nat)
  | write (addr width : Nat) (data : Word)
deriving DecidableEq, Repr

/-- One item of a master's program: an access, or the poll loop `WAIT_IDLE` of R116, which reads STATUS until bit 1
reads 0, one read a step. -/
inductive MasterOp where
  | access (a : BusAccess)
  | waitIdle
deriving DecidableEq, Repr

/-- A bus master as the block sees it: its pending operations in program order (R81, R320) and the words its reads have
returned, the newest first. -/
structure Master where
  pending : List MasterOp
  reads : List Word
deriving DecidableEq, Repr

/-- The state of the block, and of the run's inputs: the masters' programs and the order of the agents' steps.
`buf` is the sample buffer RAM `BUF` (R49), the bytes written so far at their host-bus addresses. -/
structure State where
  params : Params
  status : Status
  hostArg : Word
  ctrlArg : Word
  cfg : Staging
  spec : ProcessSpec
  par : Parameters
  osc : Oscillator
  dl : DelayLine
  wt : Wavetable
  buf : List Host.Cell
  seq : Sequencer
  host : Master
  ctrl : Master
  schedule : List Agent
  tick : Nat
  waited : Nat
deriving DecidableEq, Repr

/-- Why the machine stops. No command of the opcode table raises one. -/
inductive Fault where
  /-- Raised by a bus access whose address lies outside the block's 8 MiB window `BASE .. BASE + 0x7FFFFF` (R70):
  such an access is not this block's and the spec gives it no meaning. Safe: the model stops where a platform would go
  on (log 9). -/
  | outsideWindow
deriving DecidableEq, Repr

/-- Why an instruction has no meaning. -/
inductive Refusal where
  /-- Raised by the arm of `exec` of an instruction that has no meaning yet; no arm does. Safe: nothing is claimed of
  it. -/
  | notModelled (mnemonic : String)
deriving DecidableEq, Repr

/-- The parameters' value at power-on and after RESET: every one +0.0 (R43). -/
def Parameters.zero : Parameters := ⟨0, 0, 0, 0, 0⟩

/-- The ProcessSpec's null value: SR +0.0, BS and CH 0 (R41). -/
def ProcessSpec.zero : ProcessSpec := ⟨0, 0, 0⟩

/-- The oscillator's value at power-on and after RESET (R45). -/
def Oscillator.zero : Oscillator := ⟨0, 0, 0, 0, false⟩

/-- Power-on reset of an implementation with parameters `p`: R340's table. The masters' programs, the words read and
the schedule are the model's own fields and empty (log 6, log 7). -/
def State.powerOn (p : Params) : State where
  params := p
  status := { ready := false, busy := false, wtValid := false, initOk := false, initCode := .ok, sticky := 0 }
  hostArg := 0
  ctrlArg := 0
  cfg := { sampleRate := 0, blockSize := 0, channels := 0, maxDelay := 0 }
  spec := ProcessSpec.zero
  par := Parameters.zero
  osc := Oscillator.zero
  dl := { capacity := 0, len := 0, heads := List.replicate p.maxChannels 0, alloc := false, ram := [] }
  wt := { size := 0, table := [] }
  buf := []
  seq := { procN := 0, procT := 0 }
  host := { pending := [], reads := [] }
  ctrl := { pending := [], reads := [] }
  schedule := []
  tick := 0
  waited := 0

/-- The machine right after power-on reset, in the reference configuration RC (R340, R9; log 1). -/
def State.reset : State := State.powerOn Config.rc

end Sys2Proof.Machine
end

