-- ==== Sys2Proof/Machine/Ops.lean ====
section
/-! DEFINITION. The named operations over the block's memories and write heads. A memory is a list of (address, value)
pairs, addresses strictly rising; the delay RAM's list holds no +0.0 besides, since +0.0 is what an owned word it lacks
reads as. The block has no trap (R310), so there is no trap entry and no return: an error is the flag of Flags.lean. -/

namespace Sys2Proof.Machine

/-- The value listed at an address. -/
def Cells.read {w : Nat} : List (Nat × BitVec w) → Nat → Option (BitVec w)
  | [], _ => none
  | (k, v) :: rest, a => if k = a then some v else Cells.read rest a

/-- The list with the value `v` at `a`, in order. -/
def Cells.write {w : Nat} : List (Nat × BitVec w) → Nat → BitVec w → List (Nat × BitVec w)
  | [], a, v => [(a, v)]
  | (k, u) :: rest, a, v =>
    if a < k then (a, v) :: (k, u) :: rest
    else if a = k then (a, v) :: rest
    else (k, u) :: Cells.write rest a v

/-- The list with nothing at `a`. -/
def Cells.erase {w : Nat} : List (Nat × BitVec w) → Nat → List (Nat × BitVec w)
  | [], _ => []
  | (k, u) :: rest, a => if a = k then rest else (k, u) :: Cells.erase rest a

/-- Addresses strictly rising. -/
def Cells.rising {w : Nat} : List (Nat × BitVec w) → Bool
  | [] => true
  | (k, _) :: rest => (match rest with | [] => true | (j, _) :: _ => decide (k < j)) && Cells.rising rest

/-- The canonical form of the host-addressable memory: addresses strictly rising. No value is what an unlisted byte
reads as (it reads as a free value), so no entry is excluded. -/
abbrev Memory.wf (m : List Host.Cell) : Prop := Cells.rising m = true

/-- The canonical form of the delay RAM: indices strictly rising, and no listed word is +0.0. -/
abbrev DelayRam.wf (m : List (Nat × Word)) : Prop := Cells.rising m = true ∧ m.all (fun c => c.2 != 0) = true

/-! ### The sample buffer RAM (R49) -/

/-- The host-bus address of the first byte of `BUF[k]` (R71). -/
def bufAddr (p : Params) (k : Nat) : Nat := p.base + 0x1000 + 4 * k

/-- The byte of `BUF` at a host-bus address: the byte last written there, or the power-on byte, a free value (log 3). -/
def State.bufByte (s : State) (a : Nat) : Byte := (Cells.read s.buf a).getD (Config.bufPowerOn a)

/-- `BUF[k]`, its bytes little-endian (R73). -/
def State.bufRead (s : State) (k : Nat) : Word :=
  if k < s.params.bufRamWords then
    let a := bufAddr s.params k
    s.bufByte (a + 3) ++ s.bufByte (a + 2) ++ s.bufByte (a + 1) ++ s.bufByte a
  else Config.bufOutside k

/-- The memory with the word `v` at the address `a`, its low byte at the lowest address (R73). -/
def Memory.writeWord (m : List Host.Cell) (a : Nat) (v : Word) : List Host.Cell :=
  Cells.write (Cells.write (Cells.write (Cells.write m a (v.extractLsb' 0 8)) (a + 1) (v.extractLsb' 8 8))
    (a + 2) (v.extractLsb' 16 8)) (a + 3) (v.extractLsb' 24 8)

/-- `BUF[k] <- v`. A word the RAM does not have takes no write (log 14). -/
def State.bufWrite (s : State) (k : Nat) (v : Word) : State :=
  if k < s.params.bufRamWords then { s with buf := Memory.writeWord s.buf (bufAddr s.params k) v } else s

/-! ### The delay RAM and the write heads (R46, R47) -/

/-- M = CAP + 1, the words each channel owns (R172). -/
def State.delayM (s : State) : Nat := s.dl.capacity.toNat + 1

/-- CH, the number of channels. -/
def State.ch (s : State) : Nat := s.spec.channels.toNat

/-- The delay-RAM word that `D[c][k]` is: c x M + k (R172). -/
def State.delayIndex (s : State) (c k : Nat) : Nat := c * s.delayM + k

/-- `D[c][k]`. While `DL_ALLOC = 1` a word of the CH x M owned ones is what was last written, +0.0 since `DL_PREPARE` or
`DL_CLEAR`; every other word is unspecified, a free value (R47; log 4). -/
def State.delayRead (s : State) (c k : Nat) : F32 :=
  let i := s.delayIndex c k
  if s.dl.alloc ∧ i < s.ch * s.delayM then (Cells.read s.dl.ram i).getD 0 else Config.delayUnspecified i

/-- The delay RAM with the word `v` at index `i`, in canonical form. -/
def DelayRam.write (m : List (Nat × Word)) (i : Nat) (v : Word) : List (Nat × Word) :=
  if v = 0 then Cells.erase m i else Cells.write m i v

/-- `W[c]` (R46). -/
def State.head (s : State) (c : Nat) : Nat := (s.dl.heads[c]?).getD (Config.headOutside c)

/-! ### The wavetable RAM (R48) -/

/-- `T[k]`: the word an initialisation wrote, else unspecified, a free value (log 5). -/
def State.wtEntry (s : State) (k : Nat) : F32 := (Cells.read s.wt.table k).getD (Config.wtUnspecified k)

end Sys2Proof.Machine
end

