-- ==== Sys2Proof/Machine/Flags.lean ====
section
/-! DEFINITION. STATUS as the host reads it (spec/10_state.md R32) and every way its fields change: the sticky error
bits (R302, R303), the INIT result (R304). This is all of the block's error reporting: it has no trap (R310). -/

namespace Sys2Proof.Machine

/-- The code of an INIT result (R304). -/
def InitCode.bits : InitCode → BitVec 4
  | .ok => 0
  | .maxDelay => 1
  | .sampleRate => 2
  | .blockSize => 3
  | .channels => 4
  | .buffer => 5
  | .capacity => 6
  | .alreadyReady => 7

/-- The sticky bit's place within `STATUS[20:16]` (R303). -/
def Sticky.place : Sticky → Nat
  | .errIllegal => 0
  | .errNonfinite => 1
  | .errFrames => 2
  | .errState => 3
  | .errBus => 4

/-- The sticky bit's mask within `STATUS[20:16]`. -/
def Sticky.mask (x : Sticky) : BitVec 5 := 1#5 <<< x.place

/-- STATUS as a bus word: bits 20:16, 11:8, 3, 2, 1, 0 from its fields, every other bit 0 (R32). -/
def Status.word (t : Status) : Word :=
  0#11 ++ t.sticky ++ 0#4 ++ t.initCode.bits ++ 0#4 ++
    BitVec.ofBool t.initOk ++ BitVec.ofBool t.wtValid ++ BitVec.ofBool t.busy ++ BitVec.ofBool t.ready

/-- `flag X` of R302: the bit becomes 1, nothing else changes. -/
def State.flag (s : State) (x : Sticky) : State :=
  { s with status := { s.status with sticky := s.status.sticky ||| x.mask } }

/-- `STATUS[20:16] <- STATUS[20:16] AND NOT mask` (R228). -/
def State.clearSticky (s : State) (mask : BitVec 5) : State :=
  { s with status := { s.status with sticky := s.status.sticky &&& ~~~mask } }

/-- A failed INIT's record: `INIT_OK <- 0`, `INIT_CODE <- code` (R210). -/
def State.initFailed (s : State) (code : InitCode) : State :=
  { s with status := { s.status with initOk := false, initCode := code } }

end Sys2Proof.Machine
end

