-- ==== Sys2Proof/Machine/Wave.lean ====
section
/-! DEFINITION. The waveform parameter WAVE (spec/00_scope.md R8) and the reference configuration's SINE (R9): the
binary32 nearest to sin(2 pi k / N), from a fixed-point Taylor series with 160 fraction bits (log 2). -/

namespace Sys2Proof.Machine

/-- The fraction bits of the fixed-point sine. -/
def sineBits : Nat := 160

/-- pi/2 with `sineBits` fraction bits, rounded down. -/
def halfPiFixed : Nat := 2295721403524109460692402599871655564227077512209

/-- Horner's form of the Taylor series of sin(x)/x: the terms from the `k`-th on, `n` of them, x squared given. -/
def sineSeries (xx : Nat) : Nat → Nat → Nat
  | 0, _ => 2 ^ sineBits
  | n + 1, k => 2 ^ sineBits - xx * sineSeries xx n (k + 1) / (2 ^ sineBits * ((2 * k) * (2 * k + 1)))

/-- The magnitude code of sin(pi/2 * j/N), for 0 <= j <= N. -/
def quarterSine (N j : Nat) : Nat :=
  if j = 0 then 0
  else
    let x := halfPiFixed * j / N
    let y := x * sineSeries (x * x / 2 ^ sineBits) 24 1 / 2 ^ sineBits
    min (roundMag (y * 2 ^ 149) (2 ^ sineBits)) (fMag fOne)

/-- `SINE(N, k)` of R9, reduced to the first quarter period; every zero is +0.0. -/
def sine (N k : Nat) : F32 :=
  let j := 4 * (k % N)
  let r := j % N
  match j / N with
  | 0 => pack false (quarterSine N r)
  | 1 => pack false (quarterSine N (N - r))
  | 2 => pack (decide (r ≠ 0)) (quarterSine N r)
  | _ => pack true (quarterSine N (N - r))

/-- A word moved into [-1, 1], its sign kept; a word already there is unchanged. -/
def unitClamp (x : F32) : F32 := pack (fSign x) (min (fMag x) (fMag fOne))

/-- `WAVE(N, k)` (R8, R132): always finite and in [-1, 1]. -/
def waveEntry : Wave → Nat → Nat → F32
  | .sine, N, k => sine N k
  | .custom, N, k => unitClamp (Config.customWave N k)

end Sys2Proof.Machine
end

