-- ==== Sys2Proof/Machine/Wavetable.lean ====
section
/-! DEFINITION. The wavetable: its initialisation, the command WT_INIT and the interpolated read
(spec/40_wavetable.md). -/

namespace Sys2Proof.Machine

/-- The table size a requested size gives: clamped to [2, WT_MAX_SIZE] (R130). -/
def wtClampSize (p : Params) (size : Int) : Nat := (min (max size 2) (p.wtMaxSize : Int)).toNat

/-- An N-entry table, `T[k] = WAVE(N, k)` for 0 <= k < N (R130, R132). -/
def wtTable (p : Params) (N : Nat) : List (Nat × Word) := (List.range N).map (fun k => (k, waveEntry p.wave N k))

/-- `WT_INITIALISE(s)` of R130: only the first call has effect. -/
def State.wtInitialise (s : State) (size : Int) : State :=
  if s.status.wtValid then s
  else
    let N := wtClampSize s.params size
    { s with
      wt := { size := BitVec.ofNat 32 N, table := wtTable s.params N }
      status := { s.status with wtValid := true } }

/-- WT_INIT (R131). -/
def execWtInit (size : Int) (s : State) : Host.Outcome State Fault Refusal := .next (s.wtInitialise size)

/-- Linear interpolation `a + fr x (b - a)`, rounded after each operation: the one form of R133 and R176. -/
def interpolate (a b fr : F32) : F32 := fadd a (fmul fr (fsub b a))

/-- `WT_READ(x)` of R133, periodic in the table's N entries. -/
def State.wtRead (s : State) (x : F32) : F32 :=
  let N := s.wt.size.toNat
  let fl := ffloor x
  let fr := fsub x fl
  let i0 := (toInt fl % (N : Int)).toNat
  let i1 := (i0 + 1) % N
  interpolate (s.wtEntry i0) (s.wtEntry i1) fr

end Sys2Proof.Machine
end

