-- ==== Sys2Proof/Machine/DelayLine.lean ====
section
/-! DEFINITION. The delay line: the fractional-delay interpolator and its storage (spec/42_delay_line.md). -/

namespace Sys2Proof.Machine

/-- `DL_CAPACITY(sr, md)` of R171; none is FAIL. -/
def dlCapacity (sr md : F32) : Option Nat :=
  let p := fmul sr md
  if isFinite p then
    let c := fceil p
    if feq c fZero || fgt c (fromInt (2 ^ 24)) then none else some (toInt c).toNat
  else none

/-- `DL_PREPARE()` of R173: every owned word +0.0 (the words no channel owns are not listed, R47), heads 0. -/
def State.dlPrepare (s : State) : State :=
  { s with dl := { s.dl with
      ram := [], heads := List.replicate s.params.maxChannels 0, len := fZero, alloc := true } }

/-- `DL_RELEASE()` of R174: the storage is released, so its contents are unspecified from here on (log 4). -/
def State.dlRelease (s : State) : State :=
  { s with dl := { s.dl with
      ram := [], heads := List.replicate s.params.maxChannels 0, len := fZero, alloc := false } }

/-- `DL_CLEAR()` of R178: every owned word +0.0, heads 0; `DELAY_LEN`, CAP and `DL_ALLOC` stay. -/
def State.dlClear (s : State) : State :=
  { s with dl := { s.dl with ram := [], heads := List.replicate s.params.maxChannels 0 } }

/-- The length `DL_SET_DELAY(L)` sets for a capacity: L clamped to [0, capacity) (R175). -/
def delayClamp (cap : Nat) (L : F32) : F32 :=
  let capf := fromInt cap
  if fgt L fZero then (if flt L capf then L else nextDown capf) else fZero

/-- `DL_SET_DELAY(L)` of R175. -/
def State.dlSetDelay (s : State) (L : F32) : State :=
  { s with dl := { s.dl with len := delayClamp s.dl.capacity.toNat L } }

/-- The index `(W - n) mod M` of the word pushed n pushes ago. -/
def tapIndex (head n M : Nat) : Nat := (((head : Int) - (n : Int)) % (M : Int)).toNat

/-- `DL_POP(c)` of R176, the fractional-delay interpolator: it moves nothing. -/
def State.dlPop (s : State) (c : Nat) : F32 :=
  let fl := ffloor s.dl.len
  let i := (toInt fl).toNat
  let fr := fsub s.dl.len fl
  let a := s.delayRead c (tapIndex (s.head c) (i + 1) s.delayM)
  let b := s.delayRead c (tapIndex (s.head c) (i + 2) s.delayM)
  interpolate a b fr

/-- `DL_PUSH(c, v)` of R177. -/
def State.dlPush (s : State) (c : Nat) (v : F32) : State :=
  { s with dl := { s.dl with
      ram := DelayRam.write s.dl.ram (s.delayIndex c (s.head c)) v
      heads := s.dl.heads.set c ((s.head c + 1) % s.delayM) } }

end Sys2Proof.Machine
end

