-- ==== Sys2Proof/Machine/Oscillator.lean ====
section
/-! DEFINITION. The oscillator: a phase accumulator that reads the wavetable (spec/41_oscillator.md). -/

namespace Sys2Proof.Machine

/-- `WRAP(p)` of R154: reduction to [+0.0, 1.0). -/
def wrapPhase (p : F32) : F32 :=
  if isFinite p then
    let q := fsub p (ffloor p)
    if feq q fOne then fZero else q
  else fZero

/-- `OSC_BIND(hz, g)` of R151. -/
def State.oscBind (s : State) (hz g : F32) : State :=
  { s with osc := { phase := fZero, inc := fdiv hz s.spec.sampleRate, gain := g, freq := hz, bound := true } }

/-- `OSC_SET_FREQUENCY(hz)` of R152; the phase is kept. -/
def State.oscSetFrequency (s : State) (hz : F32) : State :=
  { s with osc := { s.osc with freq := hz, inc := fdiv hz s.spec.sampleRate } }

/-- `OSC_SET_GAIN(g)` of R155; the phase is kept. -/
def State.oscSetGain (s : State) (g : F32) : State := { s with osc := { s.osc with gain := g } }

/-- `OSC_RESET()` of R156. -/
def State.oscReset (s : State) : State := { s with osc := Oscillator.zero }

/-- The value `OSC_STEP` returns: the gain times the table at the phase before the advance (R153). -/
def State.oscOutput (s : State) : F32 :=
  fmul s.osc.gain (s.wtRead (fmul s.osc.phase (fromInt s.wt.size.toNat)))

/-- The advance of `OSC_STEP`: `OSC_PHASE <- WRAP(OSC_PHASE + OSC_INC)` (R153). -/
def State.oscAdvance (s : State) : State :=
  { s with osc := { s.osc with phase := wrapPhase (fadd s.osc.phase s.osc.inc) } }

end Sys2Proof.Machine
end

