-- ==== Sys2Proof/Machine/Engine.lean ====
section
/-! DEFINITION. The flanger engine: staging, INIT, RESET, CLEAR, PROCESS, STATUS_CLEAR and the frame
(spec/43_engine.md). -/

namespace Sys2Proof.Machine

/-! ### Configuration staging (R200 to R203) -/

/-- CFG_SAMPLE_RATE (R200). -/
def execCfgSampleRate (v : F32) (s : State) : Host.Outcome State Fault Refusal :=
  .next { s with cfg := { s.cfg with sampleRate := v } }

/-- CFG_BLOCK_SIZE (R201). -/
def execCfgBlockSize (v : Word) (s : State) : Host.Outcome State Fault Refusal :=
  .next { s with cfg := { s.cfg with blockSize := v } }

/-- CFG_CHANNELS (R202). -/
def execCfgChannels (v : Word) (s : State) : Host.Outcome State Fault Refusal :=
  .next { s with cfg := { s.cfg with channels := v } }

/-- CFG_MAX_DELAY (R203). -/
def execCfgMaxDelay (v : F32) (s : State) : Host.Outcome State Fault Refusal :=
  .next { s with cfg := { s.cfg with maxDelay := v } }

/-! ### Lifecycle -/

/-- A value that is finite and > 0. -/
def isPositiveFinite (x : F32) : Bool := fgt x fZero && isFinite x

/-- INIT's checks of the staged configuration in the order R210 and R304 give, the first that fails reported (R308);
where all hold, the capacity. -/
def initCheck (p : Params) (c : Staging) : Except InitCode Nat :=
  if !isPositiveFinite c.maxDelay then .error .maxDelay
  else if !isPositiveFinite c.sampleRate then .error .sampleRate
  else if c.blockSize.toNat = 0 ∨ p.bufRamWords < c.blockSize.toNat then .error .blockSize
  else if c.channels.toNat = 0 ∨ p.maxChannels < c.channels.toNat then .error .channels
  else if p.bufRamWords < c.channels.toNat * c.blockSize.toNat then .error .buffer
  else
    match dlCapacity c.sampleRate c.maxDelay with
    | none => .error .capacity
    | some cap => if p.delayRamWords < c.channels.toNat * (cap + 1) then .error .capacity else .ok cap

/-- The spec registers an INIT with capacity `cap` writes from the staging registers (R211). -/
def State.setSpec (s : State) (cap : Nat) : State :=
  { s with
    spec := { sampleRate := s.cfg.sampleRate, blockSize := s.cfg.blockSize, channels := s.cfg.channels }
    dl := { s.dl with capacity := BitVec.ofNat 32 cap } }

/-- The last line of `INIT_APPLY` (R211). -/
def State.initSucceeded (s : State) : State :=
  { s with status := { s.status with ready := true, initOk := true, initCode := .ok } }

/-- `INIT_APPLY` of R211, in its order. -/
def State.initApply (s : State) (cap : Nat) : State :=
  let s1 := (s.setSpec cap).dlPrepare
  let s2 := s1.wtInitialise s1.params.wtDefaultSize
  (s2.oscBind s2.par.lfoFreq s2.par.lfoAmp).initSucceeded

/-- INIT (R210). -/
def execInit (s : State) : Host.Outcome State Fault Refusal :=
  if s.status.ready then .next ((s.initFailed .alreadyReady).flag .errState)
  else
    match initCheck s.params s.cfg with
    | .error code => .next (s.initFailed code)
    | .ok cap => .next (s.initApply cap)

/-- The registers RESET zeroes itself: the parameters, the ProcessSpec and CAP (R213). -/
def State.zeroSpec (s : State) : State :=
  { s with par := Parameters.zero, spec := ProcessSpec.zero, dl := { s.dl with capacity := 0 } }

/-- RESET (R213), in both engine states and whether or not a block runs: it is unconditional and writes neither BUSY nor
the sequencing registers (log 8). -/
def execReset (s : State) : Host.Outcome State Fault Refusal :=
  let s1 := s.zeroSpec.dlRelease.oscReset
  .next { s1 with status := { s1.status with ready := false } }

/-- CLEAR (R214). -/
def execClear (s : State) : Host.Outcome State Fault Refusal :=
  if s.status.ready then .next s.dlClear else .next s

/-! ### Processing -/

/-- The start of a block of n frames: `PROC_N <- n`, `PROC_T <- 0`, `BUSY <- 1` (R220). -/
def State.startBlock (s : State) (n : Word) : State :=
  { s with seq := { procN := n, procT := 0 }, status := { s.status with busy := true } }

/-- PROCESS (R220); the frames run as ENGINE steps. DESIGN CHOICE: while a block runs, which only CTRL's write to HOST_CMD
can bring about, R220's pseudocode applies as it stands and PROC_T starts again at 0, against R221 and R322, by which
every frame of the running block is run (log 26). -/
def execProcess (n : Word) (s : State) : Host.Outcome State Fault Refusal :=
  if s.status.ready then
    if n = s.spec.blockSize then .next (s.startBlock n) else .next (s.flag .errFrames)
  else .next s

/-- STATUS_CLEAR (R228). -/
def execStatusClear (mask : BitVec 5) (s : State) : Host.Outcome State Fault Refusal :=
  .next (s.clearSticky mask)

/-- `FEEDBACK_SUM(dry, d)` of R223. -/
def feedbackSum (feedback dry d : F32) : F32 := fadd dry (fmul d feedback)

/-- `MIX(wet, dry)` of R224. -/
def mixOutput (m wet dry : F32) : F32 := fadd (fmul wet m) (fmul dry (fsub fOne m))

/-- `DELAY_LENGTH(base, y)` of R225. -/
def delayLength (sampleRate base y : F32) : F32 := fmul (fadd base y) sampleRate

/-- The buffer word of channel c, frame t: c x BS + t (R222). -/
def State.bufIndex (s : State) (c t : Nat) : Nat := c * s.spec.blockSize.toNat + t

/-- One channel's part of `FRAME(t)`: pop, feedback sum, push, mix (R222, R179). -/
def State.channelStep (t : Nat) (s : State) (c : Nat) : State :=
  let k := s.bufIndex c t
  let dry := s.bufRead k
  let wet := feedbackSum s.par.feedback dry (s.dlPop c)
  (s.dlPush c wet).bufWrite k (mixOutput s.par.mix wet dry)

/-- The part of `FRAME` before the channels: the oscillator's step and the delay length (R222, steps 1 to 3). -/
def State.frameHead (s : State) : State :=
  s.oscAdvance.dlSetDelay (delayLength s.spec.sampleRate s.par.delayTime s.oscOutput)

/-- `FRAME(t)` of R222: the channels in ascending order. -/
def State.frame (s : State) (t : Nat) : State :=
  (List.range s.frameHead.ch).foldl (State.channelStep t) s.frameHead

/-- `FRAME_STEP` of R221, the ENGINE agent's step. -/
def State.frameStep (s : State) : State :=
  let s1 := s.frame s.seq.procT.toNat
  let t := s1.seq.procT + 1
  { s1 with
    seq := { s1.seq with procT := t }
    status := { s1.status with busy := if t = s1.seq.procN then false else s1.status.busy } }

end Sys2Proof.Machine
end

