-- ==== Sys2Proof/Machine/Setters.lean ====
section
/-! DEFINITION. The five parameter setters (spec/44_parameters.md). -/

namespace Sys2Proof.Machine

/-- `SETTER_GUARD` of R250 and R251 before a setter's effect: nothing while Uninitialized, ERR_NONFINITE for a NaN or
an infinity. -/
def State.setterGuard (s : State) (v : F32) (effect : State) : State :=
  if s.status.ready then (if isFinite v then effect else s.flag .errNonfinite) else s

/-- SET_MIX (R252). -/
def execSetMix (v : F32) (s : State) : Host.Outcome State Fault Refusal :=
  .next (s.setterGuard v { s with par := { s.par with mix := clamp01 v } })

/-- SET_FEEDBACK (R253). -/
def execSetFeedback (v : F32) (s : State) : Host.Outcome State Fault Refusal :=
  .next (s.setterGuard v { s with par := { s.par with feedback := clamp01 v } })

/-- SET_DELAY_TIME (R254). -/
def execSetDelayTime (v : F32) (s : State) : Host.Outcome State Fault Refusal :=
  .next (s.setterGuard v { s with par := { s.par with delayTime := clampLow0 v } })

/-- SET_LFO_AMP (R256): the parameter and the oscillator's gain in one step. -/
def execSetLfoAmp (v : F32) (s : State) : Host.Outcome State Fault Refusal :=
  .next (s.setterGuard v (State.oscSetGain { s with par := { s.par with lfoAmp := v } } v))

/-- SET_LFO_FREQ (R257): the parameter, the oscillator's frequency and its increment in one step. -/
def execSetLfoFreq (v : F32) (s : State) : Host.Outcome State Fault Refusal :=
  .next (s.setterGuard v (State.oscSetFrequency { s with par := { s.par with lfoFreq := v } } v))

end Sys2Proof.Machine
end

