-- ==== Sys2Proof/Machine/Dispatch.lean ====
section
/-! DEFINITION. The meaning of each command of the opcode table (spec/30_encoding.md R104), one arm per constructor. -/

namespace Sys2Proof.Machine

def exec (i : Instr) (s : State) : Host.Outcome State Fault Refusal :=
  match i with
  | .cfgSampleRate v => Sys2Proof.Machine.execCfgSampleRate v s
  | .cfgBlockSize v => Sys2Proof.Machine.execCfgBlockSize v s
  | .cfgChannels v => Sys2Proof.Machine.execCfgChannels v s
  | .cfgMaxDelay v => Sys2Proof.Machine.execCfgMaxDelay v s
  | .init => Sys2Proof.Machine.execInit s
  | .reset => Sys2Proof.Machine.execReset s
  | .clear => Sys2Proof.Machine.execClear s
  | .process n => Sys2Proof.Machine.execProcess n s
  | .wtInit size => Sys2Proof.Machine.execWtInit size s
  | .statusClear mask => Sys2Proof.Machine.execStatusClear mask s
  | .setMix v => Sys2Proof.Machine.execSetMix v s
  | .setFeedback v => Sys2Proof.Machine.execSetFeedback v s
  | .setDelayTime v => Sys2Proof.Machine.execSetDelayTime v s
  | .setLfoAmp v => Sys2Proof.Machine.execSetLfoAmp v s
  | .setLfoFreq v => Sys2Proof.Machine.execSetLfoFreq v s

end Sys2Proof.Machine
end

