-- ==== Sys2Proof/Machine/Bus.lean ====
section
/-! DEFINITION. The host bus: the address map, reads and writes of the registers and of BUF, and how a write to a command
port becomes a command (spec/20_memory.md R70 to R79, spec/30_encoding.md R100, R105). -/

namespace Sys2Proof.Machine

/-- The mapped words of the host-bus window (R71). -/
inductive Reg where
  | id | status | hostArg | hostCmd | ctrlArg | ctrlCmd
  | cfgSampleRate | cfgBlockSize | cfgChannels | cfgMaxDelay
  | specSampleRate | specBlockSize | specChannels | delayCapacity
  | pMix | pFeedback | pDelayTime | pLfoAmp | pLfoFreq
  | oscPhase | oscInc | oscGain | oscFreq | oscBound
  | delayLen | writeHead | wtSize
  | capMaxChannels | capBufWords | capDelayWords | capWtMax | capWtDefault
  | buf (k : Nat)
deriving DecidableEq, Repr

/-- The register window's offsets (R71); an offset that is not listed is reserved. -/
def regTable : List (Nat × Reg) :=
  [(0x000, .id), (0x004, .status), (0x008, .hostArg), (0x00C, .hostCmd), (0x010, .ctrlArg), (0x014, .ctrlCmd)] ++
  [(0x020, .cfgSampleRate), (0x024, .cfgBlockSize), (0x028, .cfgChannels), (0x02C, .cfgMaxDelay)] ++
  [(0x030, .specSampleRate), (0x034, .specBlockSize), (0x038, .specChannels), (0x03C, .delayCapacity)] ++
  [(0x040, .pMix), (0x044, .pFeedback), (0x048, .pDelayTime), (0x04C, .pLfoAmp), (0x050, .pLfoFreq)] ++
  [(0x060, .oscPhase), (0x064, .oscInc), (0x068, .oscGain), (0x06C, .oscFreq), (0x070, .oscBound)] ++
  [(0x074, .delayLen), (0x078, .writeHead), (0x07C, .wtSize)] ++
  [(0x080, .capMaxChannels), (0x084, .capBufWords), (0x088, .capDelayWords), (0x08C, .capWtMax),
   (0x090, .capWtDefault)]

/-- The mapped word at a 4-byte aligned offset; none for a reserved or unmapped one (R71). -/
def regAt (p : Params) (offset : Nat) : Option Reg :=
  if 0x1000 ≤ offset then
    (if (offset - 0x1000) / 4 < p.bufRamWords then some (.buf ((offset - 0x1000) / 4)) else none)
  else regTable.lookup offset

/-- A word read from a mapped offset (R71, R72); a write-only register reads 0 (R75). -/
def State.readReg (s : State) : Reg → Word
  | .id => 0x464C4731#32
  | .status => s.status.word
  | .hostArg => s.hostArg
  | .hostCmd => 0
  | .ctrlArg => s.ctrlArg
  | .ctrlCmd => 0
  | .cfgSampleRate => s.cfg.sampleRate
  | .cfgBlockSize => s.cfg.blockSize
  | .cfgChannels => s.cfg.channels
  | .cfgMaxDelay => s.cfg.maxDelay
  | .specSampleRate => s.spec.sampleRate
  | .specBlockSize => s.spec.blockSize
  | .specChannels => s.spec.channels
  | .delayCapacity => s.dl.capacity
  | .pMix => s.par.mix
  | .pFeedback => s.par.feedback
  | .pDelayTime => s.par.delayTime
  | .pLfoAmp => s.par.lfoAmp
  | .pLfoFreq => s.par.lfoFreq
  | .oscPhase => s.osc.phase
  | .oscInc => s.osc.inc
  | .oscGain => s.osc.gain
  | .oscFreq => s.osc.freq
  | .oscBound => (BitVec.ofBool s.osc.bound).setWidth 32
  | .delayLen => s.dl.len
  | .writeHead => BitVec.ofNat 32 (s.head 0)
  | .wtSize => s.wt.size
  | .capMaxChannels => BitVec.ofNat 32 s.params.maxChannels
  | .capBufWords => BitVec.ofNat 32 s.params.bufRamWords
  | .capDelayWords => BitVec.ofNat 32 s.params.delayRamWords
  | .capWtMax => BitVec.ofNat 32 s.params.wtMaxSize
  | .capWtDefault => BitVec.ofNat 32 s.params.wtDefaultSize
  | .buf k => s.bufRead k

/-- The operand register of a port (R39). -/
def State.argOn (s : State) : Port → Word
  | .host => s.hostArg
  | .ctrl => s.ctrlArg

/-- A command word written to a port's command register: decoded with the port's ARG register as it stands, and
executed in the same step; an illegal one only flags ERR_ILLEGAL (R39, R105, R110). -/
def State.submit (s : State) (p : Port) (cmdw : Word) : Host.Outcome State Fault Refusal :=
  match decode p cmdw (s.argOn p) with
  | .ok i => exec i s
  | .error _ => .next (s.flag .errIllegal)

/-- A write to a mapped offset (R77): the ARG registers and BUF store the word, the command registers submit it, and
every other register ignores it (R75). -/
def State.writeReg (s : State) (r : Reg) (v : Word) : Host.Outcome State Fault Refusal :=
  match r with
  | .hostArg => .next { s with hostArg := v }
  | .ctrlArg => .next { s with ctrlArg := v }
  | .hostCmd => s.submit .host v
  | .ctrlCmd => s.submit .ctrl v
  | .buf k => .next (s.bufWrite k v)
  | .id | .status | .cfgSampleRate | .cfgBlockSize | .cfgChannels | .cfgMaxDelay
  | .specSampleRate | .specBlockSize | .specChannels | .delayCapacity
  | .pMix | .pFeedback | .pDelayTime | .pLfoAmp | .pLfoFreq
  | .oscPhase | .oscInc | .oscGain | .oscFreq | .oscBound
  | .delayLen | .writeHead | .wtSize
  | .capMaxChannels | .capBufWords | .capDelayWords | .capWtMax | .capWtDefault => .next s

def BusAccess.addr : BusAccess → Nat
  | .read addr _ => addr
  | .write addr _ _ => addr

def BusAccess.width : BusAccess → Nat
  | .read _ width => width
  | .write _ width _ => width

/-- Whether an address lies in the block's window (R70). -/
def inWindow (p : Params) (addr : Nat) : Bool := decide (p.base ≤ addr ∧ addr < p.base + 0x800000)

/-- The mapped word an access reaches: none for one that is not 32 bits wide, is misaligned, or whose offset is
reserved or unmapped (R72, R74). -/
def BusAccess.target (p : Params) (a : BusAccess) : Option Reg :=
  if inWindow p a.addr ∧ a.width = 32 ∧ a.addr % 4 = 0 then regAt p (a.addr - p.base) else none

/-- The bus master of a port's name. -/
def State.master (s : State) : Port → Master
  | .host => s.host
  | .ctrl => s.ctrl

/-- The state with a master's record replaced. -/
def State.setMaster (s : State) (m : Port) (r : Master) : State :=
  match m with
  | .host => { s with host := r }
  | .ctrl => { s with ctrl := r }

/-- A read's word handed to the master that issued it. -/
def State.answer (s : State) (m : Port) (v : Word) : State :=
  s.setMaster m { s.master m with reads := v :: (s.master m).reads }

/-- One host-bus access by a master, already taken from its program: outside the window it is not this block's; a
rejected one reads 0 or writes nothing and flags ERR_BUS (R74); an accepted one is `readReg` or `writeReg`. -/
def State.busAccess (s : State) (m : Port) (a : BusAccess) : Host.Outcome State Fault Refusal :=
  if inWindow s.params a.addr then
    match a, a.target s.params with
    | .read _ _, some r => .next (s.answer m (s.readReg r))
    | .write _ _ v, some r => s.writeReg r v
    | .read _ _, none => .next ((s.flag .errBus).answer m 0)
    | .write _ _ _, none => .next (s.flag .errBus)
  else .fault .outsideWindow

end Sys2Proof.Machine
end

