-- ==== Sys2Proof/Machine/Agents.lean ====
section
/-! DEFINITION. The three agents (spec/60_exceptions.md R320 to R322): which has a step, what the holds of
spec/20_memory.md R80 make wait, which one moves next, and what a master's step does. -/

namespace Sys2Proof.Machine

/-- The accesses R80 names: a write to HOST_ARG or HOST_CMD, and any access to BUF. -/
def BusAccess.waitsForBlock (p : Params) (a : BusAccess) : Bool :=
  match a, a.target p with
  | .write _ _ _, some .hostArg => true
  | .write _ _ _, some .hostCmd => true
  | _, some (.buf _) => true
  | _, _ => false

/-- Whether a master's access is held: while a block runs, a HOST access of the kind R80 names; CTRL is never held
(R321, R352; log 8). A rejected access is never held (R74; log 22). -/
def State.held (s : State) (m : Port) (a : BusAccess) : Bool :=
  match m with
  | .host => s.status.busy && a.waitsForBlock s.params
  | .ctrl => false

/-- Whether a master has a step: it has a pending operation and that is not held (R321). The poll loop reads STATUS,
which is never held (R80). -/
def State.masterEnabled (s : State) (m : Port) : Bool :=
  match (s.master m).pending with
  | [] => false
  | .waitIdle :: _ => true
  | .access a :: _ => !s.held m a

/-- Whether an agent has a step (R321). -/
def State.enabled (s : State) : Agent → Bool
  | .host => s.masterEnabled .host
  | .ctrl => s.masterEnabled .ctrl
  | .engine => s.status.busy

/-- The agents that have a step. -/
def State.enabledAgents (s : State) : List Agent := [Agent.host, .ctrl, .engine].filter s.enabled

/-- The first agent of a schedule that has a step, and the schedule after it. -/
def State.scheduled (s : State) : List Agent → Option (Agent × List Agent)
  | [] => none
  | a :: rest => if s.enabled a then some (a, rest) else s.scheduled rest

/-- The free arbiter's answer where several agents have a step (R82): ENGINE once it has waited `Config.patience` such
choices while it had a step (R322), else what `Config.arbiter` says if that agent has a step, else the first. -/
def State.arbitrate (s : State) (first : Agent) : Agent :=
  if s.status.busy ∧ Config.patience ≤ s.waited then .engine
  else if s.enabled (Config.arbiter s.tick) then Config.arbiter s.tick
  else first

/-- The agent that moves next and the state with that choice taken (log 6): as the schedule says; past the schedule, the
only agent that has a step, or the free arbiter's answer. None where no agent has a step. -/
def State.choose (s : State) : Option (Agent × State) :=
  match s.scheduled s.schedule with
  | some (a, rest) => some (a, { s with schedule := rest })
  | none =>
    match s.enabledAgents with
    | [] => none
    | [a] => some (a, { s with schedule := [] })
    | a :: _ =>
      let b := s.arbitrate a
      some (b, { s with
        schedule := [], tick := s.tick + 1, waited := if b = .engine then 0 else s.waited + 1 })

/-- A master's step: one access of its program, in program order (R81, R320). A poll reads STATUS and stays while
bit 1 of the word read is 1 (R116). -/
def State.masterStep (s : State) (m : Port) : Host.Outcome State Fault Refusal :=
  match (s.master m).pending with
  | [] => .next s
  | .access a :: rest => (s.setMaster m { s.master m with pending := rest }).busAccess m a
  | .waitIdle :: rest =>
    let s1 := s.answer m s.status.word
    if s.status.word.getLsbD 1 then .next s1 else .next (s1.setMaster m { s1.master m with pending := rest })

/-- The step of an agent (R320). -/
def State.agentStep (s : State) : Agent → Host.Outcome State Fault Refusal
  | .host => s.masterStep .host
  | .ctrl => s.masterStep .ctrl
  | .engine => .next s.frameStep

/-- One step of the block: the chosen agent's, and where no agent has a step the block is idle and keeps all state
(R82, R320, R328). -/
def stepAgents (s : State) : Host.Outcome State Fault Refusal :=
  match s.choose with
  | none => .next s
  | some (a, s1) => s1.agentStep a

/-- The address of the command register of the HOST port. -/
def hostCmdAddr (p : Params) : Nat := p.base + 0x00C

/-- The address of the command register of the CTRL port. -/
def ctrlCmdAddr (p : Params) : Nat := p.base + 0x014

/-- The state in which the HOST master's next access submits the command `{arg, cmdw}` and HOST moves next (log 7). -/
def State.withHostCommand (s : State) (cmdw arg : Word) : State :=
  { s with
    hostArg := arg
    host := { s.host with pending := .access (.write (hostCmdAddr s.params) 32 cmdw) :: s.host.pending }
    schedule := .host :: s.schedule }

end Sys2Proof.Machine
end

