-- ==== Sys2Proof/Machine/Step.lean ====
section
/-! DEFINITION. One step of the machine, and where it takes its next command from. -/

namespace Sys2Proof.Machine

/-- One step: one bus access of HOST or CTRL, or one frame of a running PROCESS (spec/00_scope.md R10). -/
def step (s : State) : Host.Outcome State Fault Refusal := stepAgents s

/-- The state with the command whose bits are `w` (bits 31:0 the command word, bits 63:32 the operand word, every bit
from `nbits` on 0) as the next access of the HOST master, which the schedule lets move next: HOST_ARG holds the operand
and HOST's first pending access writes the command word to HOST_CMD (spec/20_memory.md R87; log 7). -/
def State.withFetchWord (s : State) (nbits w : Nat) : State :=
  let bits := w % 2 ^ nbits
  s.withHostCommand (BitVec.ofNat 32 bits) (BitVec.ofNat 32 (bits / 2 ^ 32))

end Sys2Proof.Machine
end

