-- ==== Sys2Proof/Machine/Script.lean ====
section
/-! DEFINITION. The command-script statements and pseudo-instructions, as the bus operations they expand to
(spec/30_encoding.md R115 to R117). An operand is the literal the script writes, and the word written to the ARG register
is that literal's, whatever bits the command's kind then reads of it (R116). -/

namespace Sys2Proof.Machine

/-- The mnemonics of the opcode map (R104). -/
inductive Mnemonic where
  | cfgSampleRate | cfgBlockSize | cfgChannels | cfgMaxDelay
  | init | reset | clear | process | wtInit | statusClear
  | setMix | setFeedback | setDelayTime | setLfoAmp | setLfoFreq
deriving DecidableEq, Repr

/-- The command word of a mnemonic (R104, column CMDW). -/
def Mnemonic.cmdw : Mnemonic → Word
  | .cfgSampleRate => 0x00000001
  | .cfgBlockSize => 0x00000002
  | .cfgChannels => 0x00000003
  | .cfgMaxDelay => 0x00000004
  | .init => 0x00000008
  | .reset => 0x00000009
  | .clear => 0x0000000A
  | .process => 0x0000000B
  | .wtInit => 0x0000000C
  | .statusClear => 0x0000000F
  | .setMix => 0x00000010
  | .setFeedback => 0x00000011
  | .setDelayTime => 0x00000012
  | .setLfoAmp => 0x00000013
  | .setLfoFreq => 0x00000014

/-- An operand as a script writes it (R115): a decimal literal `±digits × 10^exp10` of kind F, an exact bit pattern
`f32:0x…` of kind F, an integer (decimal or `0x`, kinds U, S and M), or no operand (kind N). -/
inductive Literal where
  | decimal (negative : Bool) (digits : Nat) (exp10 : Int)
  | f32 (bits : F32)
  | int (n : Int)
  | none
deriving DecidableEq, Repr

/-- The word an operand writes to the ARG register; none for kind N, whose ARG is not rewritten (R116). DESIGN CHOICE: an
integer that does not fit the word, a negative one of kind U or M among them, is taken modulo 2^32, since R115 and R116
do not say which word it writes (log 25). -/
def Literal.word : Literal → Option Word
  | .decimal negative digits exp10 => some (ofDecimal negative digits exp10)
  | .f32 bits => some bits
  | .int n => some (BitVec.ofInt 32 n)
  | .none => Option.none

/-- The literals a mnemonic takes (R115, by the kinds of R104): kind F a decimal or an exact bit pattern, kinds U, S and
M an integer, kind N none. -/
def Mnemonic.takes (m : Mnemonic) (x : Literal) : Bool :=
  match m, x with
  | .cfgSampleRate, x | .cfgMaxDelay, x | .setMix, x | .setFeedback, x | .setDelayTime, x | .setLfoAmp, x
  | .setLfoFreq, x => (match x with | .decimal _ _ _ => true | .f32 _ => true | .int _ => false | .none => false)
  | .cfgBlockSize, x | .cfgChannels, x | .process, x | .wtInit, x | .statusClear, x =>
      (match x with | .int _ => true | .decimal _ _ _ => false | .f32 _ => false | .none => false)
  | .init, x | .reset, x | .clear, x =>
      (match x with | .none => true | .decimal _ _ _ => false | .f32 _ => false | .int _ => false)

/-- An offset as a script writes it (R115): a number, or a register's name of R71. -/
inductive Offset where
  | num (n : Nat)
  | reg (r : Reg)
deriving DecidableEq, Repr

/-- The offset's value; a register's is where R71 lists it. -/
def Offset.value : Offset → Nat
  | .num n => n
  | .reg (.buf k) => 0x1000 + 4 * k
  | .reg r => ((regTable.find? fun e => e.2 == r).map Prod.fst).getD 0

/-- A script statement (R115, R116). `load`, `fetch` and `run` name the block size the program configures. -/
inductive Stmt where
  | command (port : Port) (m : Mnemonic) (x : Literal)
  | wr (offset : Offset) (value : Word)
  | rd (offset : Offset)
  | config (sr bs ch md : Literal)
  | setAll (port : Port) (mix fb dt amp hz : Literal)
  | load (bs c t : Nat) (v : Literal)
  | fetch (bs c t : Nat)
  | run (bs : Word)
  | waitIdle
  | clrErr
deriving DecidableEq, Repr

/-- `wr OFFSET, VALUE` (R115). -/
def opWr (p : Params) (offset : Nat) (v : Word) : MasterOp := .access (.write (p.base + offset) 32 v)

/-- `rd OFFSET` (R115). -/
def opRd (p : Params) (offset : Nat) : MasterOp := .access (.read (p.base + offset) 32)

/-- The offset of a port's ARG register (R38). -/
def argOffset : Port → Nat
  | .host => 0x008
  | .ctrl => 0x010

/-- The offset of a port's command register (R39). -/
def cmdOffset : Port → Nat
  | .host => 0x00C
  | .ctrl => 0x014

/-- `host.OP x` or `ctrl.OP x`: the operand's word to the port's ARG register, then the opcode to its command register;
for kind N, which has no operand, the second write alone (R116). Whether the literal is of the mnemonic's kind is not
consulted (DESIGN CHOICE, log 27). -/
def commandOps (p : Params) (port : Port) (m : Mnemonic) (x : Literal) : List MasterOp :=
  match x.word with
  | some arg => [opWr p (argOffset port) arg, opWr p (cmdOffset port) m.cmdw]
  | none => [opWr p (cmdOffset port) m.cmdw]

/-- The offset of `BUF[c x BS + t]`. -/
def bufOffset (bs c t : Nat) : Nat := 0x1000 + 4 * (c * bs + t)

/-- The bus operations of a statement (R116). DESIGN CHOICE: a statement with a literal its mnemonic does not take
(`Mnemonic.takes`), and a `LOAD` with no value, which R115 and R116 give no expansion, expands by the same rule: two writes
with a literal, one write with none, and the word 0 for the value that `LOAD` lacks (log 27). -/
def Stmt.expand (p : Params) : Stmt → List MasterOp
  | .command port m x => commandOps p port m x
  | .wr offset v => [opWr p offset.value v]
  | .rd offset => [opRd p offset.value]
  | .config sr bs ch md =>
      commandOps p .host .cfgSampleRate sr ++ commandOps p .host .cfgBlockSize bs ++
      commandOps p .host .cfgChannels ch ++ commandOps p .host .cfgMaxDelay md ++ commandOps p .host .init .none
  | .setAll port mix fb dt amp hz =>
      commandOps p port .setMix mix ++ commandOps p port .setFeedback fb ++
      commandOps p port .setDelayTime dt ++ commandOps p port .setLfoAmp amp ++ commandOps p port .setLfoFreq hz
  | .load bs c t v => [opWr p (bufOffset bs c t) (v.word.getD 0)]
  | .fetch bs c t => [opRd p (bufOffset bs c t)]
  | .run bs => commandOps p .host .process (.int bs.toNat)
  | .waitIdle => [.waitIdle]
  | .clrErr => commandOps p .host .statusClear (.int 0x001F0000)

/-- A script as the list of bus operations of one master (R117). -/
def expandScript (p : Params) (l : List Stmt) : List MasterOp := l.flatMap (Stmt.expand p)

end Sys2Proof.Machine
end

