-- ==== Sys2Proof/Safety.lean ====
section
/-! DEFINITION. The terms claims use: the invariant of the engine (spec/10_state.md R41 to R52), the canonical form of the
memories, the masters' discipline (spec/70_reset_and_hazards.md R355), the end of a run (spec/60_exceptions.md R323), and
what a frame can depend on (R344, R352). -/

namespace Sys2Proof.Machine

/-- `+0.0 <= x < b`, and x is not -0.0. -/
abbrev fInRange (x b : F32) : Prop := fSign x = false ∧ flt x b = true

/-- `+0.0 <= x <= 1.0`, and x is not -0.0 (the legal P_MIX and P_FEEDBACK, R43). -/
abbrev fInUnit (x : F32) : Prop := fSign x = false ∧ fle x fOne = true

/-- The legal values of the parameter registers (R43). -/
abbrev Parameters.Legal (q : Parameters) : Prop :=
  fInUnit q.mix ∧ fInUnit q.feedback ∧ (fSign q.delayTime = false ∧ isFinite q.delayTime = true) ∧
  isFinite q.lfoAmp = true ∧ isFinite q.lfoFreq = true

/-- The legal ProcessSpec and capacity of a Ready block (R41, R42). -/
abbrev State.SpecLegal (s : State) : Prop :=
  isPositiveFinite s.spec.sampleRate = true ∧
  (1 ≤ s.spec.blockSize.toNat ∧ s.spec.blockSize.toNat ≤ s.params.bufRamWords) ∧
  (1 ≤ s.ch ∧ s.ch ≤ s.params.maxChannels) ∧
  s.ch * s.spec.blockSize.toNat ≤ s.params.bufRamWords ∧
  (1 ≤ s.dl.capacity.toNat ∧ s.dl.capacity.toNat ≤ 2 ^ 24) ∧
  s.ch * s.delayM ≤ s.params.delayRamWords

/-- What holds of a Ready block after every step (R52, R45, R46). -/
abbrev State.ReadyInv (s : State) : Prop :=
  s.osc.bound = true ∧ s.status.wtValid = true ∧ s.dl.alloc = true ∧
  s.osc.gain = s.par.lfoAmp ∧ s.osc.freq = s.par.lfoFreq ∧
  s.osc.inc = fdiv s.osc.freq s.spec.sampleRate ∧
  (∀ c, c < s.ch → s.head c = s.head 0) ∧ s.head 0 < s.delayM ∧
  fInRange s.osc.phase fOne ∧ fInRange s.dl.len (fromInt s.dl.capacity.toNat) ∧
  s.SpecLegal ∧ s.par.Legal

/-- The zero values of an Uninitialized block (R41 to R43, R45 to R47). -/
abbrev State.ZeroInv (s : State) : Prop :=
  s.par = Parameters.zero ∧ s.osc = Oscillator.zero ∧ s.spec = ProcessSpec.zero ∧ s.dl.capacity = 0 ∧
  s.dl.len = 0 ∧ s.dl.alloc = false ∧ s.dl.heads = List.replicate s.params.maxChannels 0

/-- What holds of an Uninitialized block (R52). -/
abbrev State.UninitInv (s : State) : Prop := s.ZeroInv ∧ s.status.busy = false

/-- The wavetable: initialised once, with a legal size and the parameter's entries (R48, R132). -/
abbrev State.WtInv (s : State) : Prop :=
  if s.status.wtValid = true then
    (2 ≤ s.wt.size.toNat ∧ s.wt.size.toNat ≤ s.params.wtMaxSize) ∧ s.wt.table = wtTable s.params s.wt.size.toNat
  else s.wt.size = 0 ∧ s.wt.table = []

/-- The invariant of the engine: R52 with the ranges of R41 to R50. -/
abbrev State.EngineInv (s : State) : Prop :=
  s.params.Legal ∧
  (s.status.ready = true → s.ReadyInv) ∧
  (s.status.ready = false → s.UninitInv) ∧
  s.WtInv ∧
  (s.status.busy = true → s.seq.procN = s.spec.blockSize ∧ s.seq.procT.toNat < s.seq.procN.toNat) ∧
  s.dl.heads.length = s.params.maxChannels

/-- What every step keeps, whatever the masters do: the engine invariant but for the two clauses that a RESET during a
block ends (BUSY = 0 while Uninitialized, PROC_N = BS; log 8). -/
abbrev State.CoreInv (s : State) : Prop :=
  s.params.Legal ∧
  (s.status.ready = true → s.ReadyInv) ∧
  (s.status.ready = false → s.ZeroInv) ∧
  s.WtInv ∧
  (s.status.busy = true → s.seq.procT.toNat < s.seq.procN.toNat) ∧
  s.dl.heads.length = s.params.maxChannels

/-- The CTRL master's next access is no RESET at HOST_CMD during a block: R213 says that RESET cannot be issued then, and
R355 makes it the CTRL master's duty. -/
abbrev State.NoResetDuringBlock (s : State) : Prop :=
  s.status.busy = true → ∀ rest, s.ctrl.pending ≠ .access (.write (s.params.base + 0x00C) 32 0x00000009) :: rest

/-- `r` is what the rational e/d (d > 0, in units of 2^-149) rounds to, to nearest with ties to even (R13): no finite
value is nearer, of two equally near ones `r` is the even one, it is an infinity exactly where e/d is at least halfway
beyond the largest finite value, and it has the sign of e/d, `zeroSign` where that is 0. -/
def RoundsTo (r : F32) (e d : Int) (zeroSign : Bool) : Prop :=
  isNaN r = false ∧
  (isFinite r = true → ∀ y : F32, isFinite y = true →
    |scaled r * d - e| ≤ |scaled y * d - e| ∧
    (|scaled r * d - e| = |scaled y * d - e| → scaled y ≠ scaled r → fMag r % 2 = 0)) ∧
  (isInf r = true ↔ (2 ^ 25 - 1) * 2 ^ 252 * d ≤ |e|) ∧
  fSign r = (if e = 0 then zeroSign else decide (e < 0))

/-- The canonical form of the three memories. -/
abbrev State.MemInv (s : State) : Prop :=
  Memory.wf s.buf ∧ DelayRam.wf s.dl.ram ∧ Cells.rising s.wt.table = true

/-- The CTRL master keeps to its side: none of its pending accesses is one R80 names (a write to HOST_ARG or HOST_CMD, an
access to BUF). R355 makes the first a duty of the masters, which the block does not enforce (log 8). -/
def State.ctrlDisciplined (s : State) : Bool :=
  s.ctrl.pending.all fun op =>
    match op with
    | .access a => !a.waitsForBlock s.params
    | .waitIdle => true

/-- A run has ended: no master has a pending operation and no block runs (R323). -/
def State.ended (s : State) : Bool := s.host.pending.isEmpty && s.ctrl.pending.isEmpty && !s.status.busy

/-- Two states no frame and no command but INIT can tell apart in what it computes: they agree on everything but the ARG
and staging registers, the INIT result, the sticky bits, the frame counters of a block that does not run, and the
masters' programs (R344, R352). -/
abbrev State.AudioEq (s t : State) : Prop :=
  s.params = t.params ∧ s.spec = t.spec ∧ s.par = t.par ∧ s.osc = t.osc ∧ s.dl = t.dl ∧ s.wt = t.wt ∧
  s.buf = t.buf ∧ s.status.ready = t.status.ready ∧ s.status.busy = t.status.busy ∧
  s.status.wtValid = t.status.wtValid ∧ (s.status.busy = true → s.seq = t.seq)

/-- Two states that agree as `AudioEq` says but for BUF, and on the words of BUF a block of the prepared spec reads and
writes (R49, R344). -/
abbrev State.AudioSame (s t : State) : Prop :=
  s.AudioEq { t with buf := s.buf } ∧ ∀ k, k < s.ch * s.spec.blockSize.toNat → s.bufRead k = t.bufRead k

/-- What happens to the engine from outside in a run, apart from the bus: a command, a write to BUF, a frame. -/
inductive Event where
  | command (i : Instr)
  | bufWrite (k : Nat) (v : Word)
  | frame
deriving DecidableEq, Repr

/-- The state after an event: a frame runs only while BUSY (R221). A BUF write may also come from CTRL, between two frames
of a running block (R321). -/
def State.after (s : State) : Event → State
  | .command i => match exec i s with | .next t => t | .fault _ => s | .refused _ => s
  | .bufWrite k v => s.bufWrite k v
  | .frame => if s.status.busy then s.frameStep else s

/-- The state after a sequence of events. -/
def State.afterAll (s : State) (q : List Event) : State := q.foldl State.after s

/-- The state after n frames. -/
def State.frames (s : State) : Nat → State
  | 0 => s
  | n + 1 => s.frameStep.frames n

/-- The state after a list of pushes on a channel. -/
def State.pushes (s : State) (c : Nat) (vs : List F32) : State := vs.foldl (fun u v => u.dlPush c v) s

end Sys2Proof.Machine
end

