-- ==== Sys2Proof/Certificates/Slice0/Obligations.lean ====
section
/-! DEFINITION. The statements for the provers. Each docstring names the rule of spec/ the statement formalises; where a
clause rests on a choice of the model it names the log entry. -/

open Sys2Proof Sys2Proof.Machine

/-! ### Encoding -/

/-- A few words written out from the opcode map R104 and the operand kinds R102 decode to their commands, and three
illegal words are refused by name (spec/95_test_vectors.md 2.1, 2.7, 2.9). -/
def Obligations.SampleWordsDecode : Prop :=
  decode .host 0x00000001 0x473B8000 = .ok (.cfgSampleRate 0x473B8000) ∧
  decode .host 0x0000000B 0x00000004 = .ok (.process 4) ∧
  decode .host 0x0000000C 0xFFFFFFFB = .ok (.wtInit (-5)) ∧
  decode .host 0x0000000F 0x00040000 = .ok (.statusClear 0b00100) ∧
  decode .ctrl 0x00000010 0x3F000000 = .ok (.setMix 0x3F000000) ∧
  decode .host 0x00000105 0 = .error .reservedBits ∧
  decode .host 0x0000000D 0 = .error .reservedOpcode ∧
  decode .ctrl 0x0000000C 4 = .error .notOnThisPort

/-- Decoding the words of a well-formed command, on a port where it is legal, gives the command back (R102 to R105). -/
def Obligations.DecodeOfEncodeIsIdentity : Prop :=
  ∀ (i : Instr) (p : Port), i.wellFormed = true → i.legalOn p = true → decode p (cmdwOf i) (argOf i) = .ok i

/-- A command word that decodes is the command's own word, the command is well formed and legal on the port, and the
operand word is the command's own but for the bits its kind ignores: all of them for kind N, all but `ARG[20:16]` for
kind M (R101, R102, R105). -/
def Obligations.EncodeOfDecodeIsIdentity : Prop :=
  ∀ (p : Port) (cmdw arg : Word) (i : Instr), decode p cmdw arg = .ok i →
    i.wellFormed = true ∧ i.legalOn p = true ∧ cmdwOf i = cmdw ∧
    argOf i =
      (match i with
       | .init | .reset | .clear => 0
       | .statusClear _ => arg &&& 0x001F0000#32
       | _ => arg)

/-- R103, R110 and R111: exactly the fifteen words of the opcode map are commands, on CTRL only the five setters,
whatever the operand; every other word has no effect but ERR_ILLEGAL, and the block goes on. -/
def Obligations.IllegalCommandsOnlyFlag : Prop :=
  ∀ (s : State) (p : Port) (cmdw : Word),
    let legal : Prop :=
      cmdw ∈ ([0x10, 0x11, 0x12, 0x13, 0x14] : List Word) ∨
      (p = .host ∧ cmdw ∈ ([0x01, 0x02, 0x03, 0x04, 0x08, 0x09, 0x0A, 0x0B, 0x0C, 0x0F] : List Word))
    (legal → ∃ i, decode p cmdw (s.argOn p) = .ok i ∧ s.submit p cmdw = exec i s) ∧
    (¬ legal → s.submit p cmdw =
      .next { s with status := { s.status with sticky := s.status.sticky ||| 0b00001#5 } })

/-! ### A step runs the decoded command -/

/-- Where HOST moves next and its next access does not wait (no block runs, or HOST has a step all the same, R321), the
step is that access on the state with it taken from HOST's program (R81, R320). Where no block runs and the access writes
a word to HOST_CMD, the step submits that word, and a legal one is its command, the operand HOST_ARG as it stands (R39,
R105). -/
def Obligations.StepRunsHostCommand : Prop :=
  (∀ (s : State) (a : BusAccess) (rest : List MasterOp) (sched : List Agent),
    s.schedule = .host :: sched → s.host.pending = .access a :: rest →
    (s.status.busy = true → s.enabled .host = true) →
    step s = State.busAccess { s with schedule := sched, host := { s.host with pending := rest } } .host a) ∧
  (∀ (s : State) (cmdw : Word) (rest : List MasterOp) (sched : List Agent),
    s.params.base % 4 = 0 → s.status.busy = false → s.schedule = .host :: sched →
    s.host.pending = .access (.write (s.params.base + 0x00C) 32 cmdw) :: rest →
    let u := { s with schedule := sched, host := { s.host with pending := rest } }
    step s = u.submit .host cmdw ∧ ∀ i, decode .host cmdw s.hostArg = .ok i → step s = exec i u)

/-- The same for CTRL, whether or not a block runs, since no access of it waits: the step is CTRL's next access (R81,
R320, R321; log 8). Where that writes a word to CTRL_CMD, or to HOST_CMD, the step submits that word, and a legal one is
its command, with the ARG register of the port written to (R39, R105, R313). -/
def Obligations.StepRunsCtrlCommand : Prop :=
  (∀ (s : State) (a : BusAccess) (rest : List MasterOp) (sched : List Agent),
    s.schedule = .ctrl :: sched → s.ctrl.pending = .access a :: rest →
    step s = State.busAccess { s with schedule := sched, ctrl := { s.ctrl with pending := rest } } .ctrl a) ∧
  (∀ (s : State) (p : Port) (cmdw : Word) (rest : List MasterOp) (sched : List Agent),
    s.params.base % 4 = 0 → s.schedule = .ctrl :: sched →
    s.ctrl.pending =
      .access (.write (s.params.base + (match p with | .host => 0x00C | .ctrl => 0x014)) 32 cmdw) :: rest →
    let u := { s with schedule := sched, ctrl := { s.ctrl with pending := rest } }
    step s = u.submit p cmdw ∧
    ∀ i, decode p cmdw (match p with | .host => s.hostArg | .ctrl => s.ctrlArg) = .ok i → step s = exec i u)

/-- `withFetchWord` places a command where the next step takes it from (log 7): the step after it runs exactly that
command, on the state with HOST_ARG holding the operand. -/
def Obligations.FetchWordIsRunNext : Prop :=
  ∀ (s : State) (nbits w : Nat) (i : Instr),
    s.params.base % 4 = 0 → s.status.busy = false →
    decode .host (BitVec.ofNat 32 (w % 2 ^ nbits)) (BitVec.ofNat 32 (w % 2 ^ nbits / 2 ^ 32)) = .ok i →
    step (s.withFetchWord nbits w) = exec i { s with hostArg := BitVec.ofNat 32 (w % 2 ^ nbits / 2 ^ 32) }

/-! ### The commands -/

/-- R200 to R203: each CFG command, legal on HOST only, stores its operand word unchanged in its staging register and
changes nothing else, in both engine states. -/
def Obligations.CfgCommandsStageOperands : Prop :=
  ∀ (s : State) (arg : Word),
    (decode .host 0x00000001 arg = .ok (.cfgSampleRate arg) ∧ decode .ctrl 0x00000001 arg = .error .notOnThisPort ∧
      exec (.cfgSampleRate arg) s = .next { s with cfg := { s.cfg with sampleRate := arg } }) ∧
    (decode .host 0x00000002 arg = .ok (.cfgBlockSize arg) ∧ decode .ctrl 0x00000002 arg = .error .notOnThisPort ∧
      exec (.cfgBlockSize arg) s = .next { s with cfg := { s.cfg with blockSize := arg } }) ∧
    (decode .host 0x00000003 arg = .ok (.cfgChannels arg) ∧ decode .ctrl 0x00000003 arg = .error .notOnThisPort ∧
      exec (.cfgChannels arg) s = .next { s with cfg := { s.cfg with channels := arg } }) ∧
    (decode .host 0x00000004 arg = .ok (.cfgMaxDelay arg) ∧ decode .ctrl 0x00000004 arg = .error .notOnThisPort ∧
      exec (.cfgMaxDelay arg) s = .next { s with cfg := { s.cfg with maxDelay := arg } })

/-- R210 and R308, INIT that does not succeed: code 7 and ERR_STATE while Ready; else the code of the first check that
fails, in the order written; nothing else changes. -/
def Obligations.InitReportsFirstFailedCheck : Prop :=
  ∀ (s : State) (arg : Word),
    decode .host 0x00000008 arg = .ok .init ∧ decode .ctrl 0x00000008 arg = .error .notOnThisPort ∧
    let md := s.cfg.maxDelay
    let sr := s.cfg.sampleRate
    let bs := s.cfg.blockSize.toNat
    let ch := s.cfg.channels.toNat
    let fails (n : BitVec 4) : Prop :=
      ∃ code : InitCode, code.bits = n ∧
        exec .init s = .next { s with status := { s.status with initOk := false, initCode := code } }
    (s.status.ready = true → ∃ code : InitCode, code.bits = 7 ∧ exec .init s =
      .next { s with status := { s.status with
        initOk := false, initCode := code, sticky := s.status.sticky ||| 0b01000#5 } }) ∧
    (s.status.ready = false →
      if ¬ (fgt md fZero = true ∧ isFinite md = true) then fails 1
      else if ¬ (fgt sr fZero = true ∧ isFinite sr = true) then fails 2
      else if bs = 0 ∨ bs > s.params.bufRamWords then fails 3
      else if ch = 0 ∨ ch > s.params.maxChannels then fails 4
      else if ch * bs > s.params.bufRamWords then fails 5
      else
        match dlCapacity sr md with
        | none => fails 6
        | some cap =>
          if ch * (cap + 1) > s.params.delayRamWords then fails 6
          else ∃ t, exec .init s = .next t ∧ t.status.ready = true ∧ t.status.initOk = true ∧ t.status.initCode.bits = 0)

/-- R211 with R173, R130 and R151, INIT that succeeds: the ProcessSpec from the staging registers, the capacity that
DL_CAPACITY gives of the staged sample rate and maximum delay (R171, R210), a zeroed delay
line, the wavetable if there is none, the oscillator bound at phase +0.0, READY; nothing else changes. -/
def Obligations.InitAppliesConfiguration : Prop :=
  ∀ (s : State) (cap : Nat),
    s.status.ready = false → initCheck s.params s.cfg = .ok cap →
    let t := { s with
      spec := { sampleRate := s.cfg.sampleRate, blockSize := s.cfg.blockSize, channels := s.cfg.channels }
      dl := {
        capacity := BitVec.ofNat 32 cap, len := 0, heads := List.replicate s.params.maxChannels 0, alloc := true
        ram := [] }
      wt :=
        if s.status.wtValid then s.wt
        else
          let N := wtClampSize s.params s.params.wtDefaultSize
          { size := BitVec.ofNat 32 N, table := (List.range N).map fun k => (k, waveEntry s.params.wave N k) }
      osc := {
        phase := 0, inc := fdiv s.par.lfoFreq s.cfg.sampleRate, gain := s.par.lfoAmp, freq := s.par.lfoFreq
        bound := true }
      status := { s.status with ready := true, initOk := true, initCode := .ok, wtValid := true } }
    exec .init s = .next t ∧ t.status.initCode.bits = 0 ∧ t.dl.capacity.toNat = cap ∧
    dlCapacity s.cfg.sampleRate s.cfg.maxDelay = some cap ∧
    (∀ c k, c < t.ch → k < cap + 1 → t.delayRead c k = 0)

/-- RESET has R213's effects in both engine states: it zeroes the parameters, the ProcessSpec, the capacity, the delay
line's heads and length and the oscillator, releases the delay RAM and leaves READY 0. Nothing else changes but the delay
RAM's contents, which are unspecified from then on; while Uninitialized nothing else changes at all. That it has the same
effects while a block runs, BUSY and the sequencing registers staying, is the model's DEDUCED reading and no rule: R213
says that RESET cannot be issued then, while CTRL is never held (R321; log 8). -/
def Obligations.ResetTearsDown : Prop :=
  ∀ (s : State) (arg : Word),
    decode .host 0x00000009 arg = .ok .reset ∧ decode .ctrl 0x00000009 arg = .error .notOnThisPort ∧
    ∃ t, exec .reset s = .next t ∧
      t = { s with
        par := ⟨0, 0, 0, 0, 0⟩
        spec := ⟨0, 0, 0⟩
        dl := {
          capacity := 0, len := 0, heads := List.replicate s.params.maxChannels 0, alloc := false, ram := t.dl.ram }
        osc := ⟨0, 0, 0, 0, false⟩
        status := { s.status with ready := false } } ∧
      (s.EngineInv → s.status.ready = false → t = { s with dl := { s.dl with ram := t.dl.ram } })

/-- R214 and R178: while Ready CLEAR makes every owned word of the delay RAM +0.0 and every head 0 and changes nothing
else; while Uninitialized it changes nothing. -/
def Obligations.ClearZeroesHistory : Prop :=
  ∀ (s : State) (arg : Word),
    decode .host 0x0000000A arg = .ok .clear ∧ decode .ctrl 0x0000000A arg = .error .notOnThisPort ∧
    (s.status.ready = false → exec .clear s = .next s) ∧
    (s.status.ready = true →
      ∃ t, exec .clear s = .next t ∧
        (s.dl.alloc = true → ∀ c k, c < s.ch → k < s.delayM → t.delayRead c k = 0) ∧
        (∀ c, c < s.params.maxChannels → t.head c = 0) ∧
        t = { s with dl := { s.dl with ram := t.dl.ram, heads := t.dl.heads } })

/-- PROCESS follows R220's pseudocode: it does nothing while Uninitialized, flags ERR_FRAMES and nothing else when the
count is not the block size, and else starts the block: PROC_N, PROC_T and BUSY, and nothing else. That it does the same
while a block runs, and so starts that block again, is the model's DESIGN CHOICE (log 26). -/
def Obligations.ProcessStartsBlock : Prop :=
  ∀ (s : State) (n : Word),
    decode .host 0x0000000B n = .ok (.process n) ∧ decode .ctrl 0x0000000B n = .error .notOnThisPort ∧
    (s.status.ready = false → exec (.process n) s = .next s) ∧
    (s.status.ready = true → n ≠ s.spec.blockSize → exec (.process n) s =
      .next { s with status := { s.status with sticky := s.status.sticky ||| 0b00100#5 } }) ∧
    (s.status.ready = true → n = s.spec.blockSize → exec (.process n) s =
      .next { s with seq := { procN := n, procT := 0 }, status := { s.status with busy := true } })

/-- R228: STATUS_CLEAR clears the sticky bits its mask `ARG[20:16]` names, whatever the other ARG bits are, and changes
no other bit of STATUS and no other state. -/
def Obligations.StatusClearMasksStickyBits : Prop :=
  ∀ (s : State) (arg : Word),
    decode .host 0x0000000F arg = .ok (.statusClear (arg.extractLsb' 16 5)) ∧
    decode .ctrl 0x0000000F arg = .error .notOnThisPort ∧
    ∃ t, exec (.statusClear (arg.extractLsb' 16 5)) s = .next t ∧
      t.status.word.extractLsb' 16 5 = s.status.word.extractLsb' 16 5 &&& ~~~ (arg.extractLsb' 16 5) ∧
      (∀ n, n < 16 ∨ 21 ≤ n → t.status.word.getLsbD n = s.status.word.getLsbD n) ∧
      t = { s with status := { s.status with sticky := t.status.sticky } }

/-- R131 with R130: the first WT_INIT sets the table: its size clamped to [2, WT_MAX_SIZE], entry k is WAVE(N, k), and
WT_VALID; every later one changes nothing. Nothing else changes, in either engine state. Every value of WAVE is finite
and in [-1, 1] (R8), and SINE takes the values R9 lists for N = 4 and N = 8, each of its zeros +0.0 (log 2). -/
def Obligations.WtInitFillsTableOnce : Prop :=
  (∀ (s : State) (arg : Word), s.params.Legal →
    decode .host 0x0000000C arg = .ok (.wtInit arg.toInt) ∧ decode .ctrl 0x0000000C arg = .error .notOnThisPort ∧
    (s.status.wtValid = true → exec (.wtInit arg.toInt) s = .next s) ∧
    (s.status.wtValid = false → ∃ t, exec (.wtInit arg.toInt) s = .next t ∧
      (t.wt.size.toNat : Int) = min (max arg.toInt 2) (s.params.wtMaxSize : Int) ∧
      (∀ k, k < t.wt.size.toNat → t.wtEntry k = waveEntry s.params.wave t.wt.size.toNat k) ∧
      t.status = { s.status with wtValid := true } ∧
      t = { s with wt := t.wt, status := t.status })) ∧
  (∀ (w : Wave) (N k : Nat), isFinite (waveEntry w N k) = true ∧ |scaled (waveEntry w N k)| ≤ 2 ^ 149) ∧
  (List.range 4).map (waveEntry .sine 4) = [0x00000000, 0x3F800000, 0x00000000, 0xBF800000] ∧
  (List.range 8).map (waveEntry .sine 8) =
    [0x00000000, 0x3F3504F3, 0x3F800000, 0x3F3504F3, 0x00000000, 0xBF3504F3, 0xBF800000, 0xBF3504F3]

/-- R250 and R251: while Uninitialized a setter changes nothing whatever its operand; while Ready one with a NaN or an
infinity changes nothing but ERR_NONFINITE. -/
def Obligations.SettersAreGuarded : Prop :=
  ∀ (s : State) (v : F32) (i : Instr),
    i ∈ [Instr.setMix v, .setFeedback v, .setDelayTime v, .setLfoAmp v, .setLfoFreq v] →
    (s.status.ready = false → exec i s = .next s) ∧
    (s.status.ready = true → isFinite v = false → exec i s =
      .next { s with status := { s.status with sticky := s.status.sticky ||| 0b00010#5 } })

/-- R252: SET_MIX, on both ports, stores its operand clamped to [0, 1], behind the setters' guard. -/
def Obligations.SetMixStoresClamped : Prop :=
  ∀ (s : State) (v : F32),
    (∀ p, decode p 0x00000010 v = .ok (.setMix v)) ∧
    exec (.setMix v) s = .next (
      if s.status.ready = false then s
      else if isFinite v = false then
        { s with status := { s.status with sticky := s.status.sticky ||| 0b00010#5 } }
      else
        { s with par := { s.par with
            mix := if fgt v fZero then (if flt v fOne then v else fOne) else fZero } })

/-- R253: SET_FEEDBACK, on both ports, stores its operand clamped to [0, 1], behind the setters' guard. -/
def Obligations.SetFeedbackStoresClamped : Prop :=
  ∀ (s : State) (v : F32),
    (∀ p, decode p 0x00000011 v = .ok (.setFeedback v)) ∧
    exec (.setFeedback v) s = .next (
      if s.status.ready = false then s
      else if isFinite v = false then
        { s with status := { s.status with sticky := s.status.sticky ||| 0b00010#5 } }
      else
        { s with par := { s.par with
            feedback := if fgt v fZero then (if flt v fOne then v else fOne) else fZero } })

/-- R254: SET_DELAY_TIME, on both ports, stores its operand, +0.0 for a negative one or a zero, behind the setters'
guard. -/
def Obligations.SetDelayTimeStoresClamped : Prop :=
  ∀ (s : State) (v : F32),
    (∀ p, decode p 0x00000012 v = .ok (.setDelayTime v)) ∧
    exec (.setDelayTime v) s = .next (
      if s.status.ready = false then s
      else if isFinite v = false then
        { s with status := { s.status with sticky := s.status.sticky ||| 0b00010#5 } }
      else { s with par := { s.par with delayTime := if fgt v fZero then v else fZero } })

/-- R256: SET_LFO_AMP, on both ports, stores its operand unclamped in P_LFO_AMP and OSC_GAIN in one step, behind the
setters' guard; the phase is unchanged. -/
def Obligations.SetLfoAmpStoresGain : Prop :=
  ∀ (s : State) (v : F32),
    (∀ p, decode p 0x00000013 v = .ok (.setLfoAmp v)) ∧
    exec (.setLfoAmp v) s = .next (
      if s.status.ready = false then s
      else if isFinite v = false then
        { s with status := { s.status with sticky := s.status.sticky ||| 0b00010#5 } }
      else { s with par := { s.par with lfoAmp := v }, osc := { s.osc with gain := v } })

/-- R257 with R152: SET_LFO_FREQ, on both ports, stores its operand unclamped in P_LFO_FREQ and OSC_FREQ and the increment
`fdiv(v, SR)` in OSC_INC in one step, behind the setters' guard; the phase is unchanged. -/
def Obligations.SetLfoFreqStoresIncrement : Prop :=
  ∀ (s : State) (v : F32),
    (∀ p, decode p 0x00000014 v = .ok (.setLfoFreq v)) ∧
    exec (.setLfoFreq v) s = .next (
      if s.status.ready = false then s
      else if isFinite v = false then
        { s with status := { s.status with sticky := s.status.sticky ||| 0b00010#5 } }
      else { s with
        par := { s.par with lfoFreq := v }
        osc := { s.osc with freq := v, inc := fdiv v s.spec.sampleRate } })

/-- R38 and R49: whatever it does, a command's own step leaves every byte of BUF, both ARG registers, the implementation's
parameters and the masters' programs as they were, and only PROCESS writes the sequencing registers. -/
def Obligations.CommandsLeaveBufferAndArgs : Prop :=
  ∀ (i : Instr) (s t : State), exec i s = .next t →
    (∀ a, t.bufByte a = s.bufByte a) ∧ t.hostArg = s.hostArg ∧ t.ctrlArg = s.ctrlArg ∧ t.params = s.params ∧
    t.host = s.host ∧ t.ctrl = s.ctrl ∧ ((∀ n, i ≠ .process n) → t.seq = s.seq)

/-! ### The host bus -/

/-- R31 and R51: ID and the five capability registers read their constants in every state. -/
def Obligations.ConstantRegistersRead : Prop :=
  ∀ (s : State),
    (regAt s.params 0x000).map s.readReg = some 0x464C4731#32 ∧
    (regAt s.params 0x080).map s.readReg = some (BitVec.ofNat 32 s.params.maxChannels) ∧
    (regAt s.params 0x084).map s.readReg = some (BitVec.ofNat 32 s.params.bufRamWords) ∧
    (regAt s.params 0x088).map s.readReg = some (BitVec.ofNat 32 s.params.delayRamWords) ∧
    (regAt s.params 0x08C).map s.readReg = some (BitVec.ofNat 32 s.params.wtMaxSize) ∧
    (regAt s.params 0x090).map s.readReg = some (BitVec.ofNat 32 s.params.wtDefaultSize) ∧
    (∀ t, step s = .next t → t.params = s.params)

/-- R32 and R304: STATUS reads READY, BUSY, WT_VALID and INIT_OK in bits 0 to 3, the code of INIT_CODE in bits 11:8, the
sticky bits in bits 20:16, and 0 in every other bit. -/
def Obligations.StatusWordLayout : Prop :=
  ∀ (t : Status),
    t.word.getLsbD 0 = t.ready ∧ t.word.getLsbD 1 = t.busy ∧ t.word.getLsbD 2 = t.wtValid ∧
    t.word.getLsbD 3 = t.initOk ∧
    t.word.extractLsb' 8 4 =
      (match t.initCode with
       | .ok => 0 | .maxDelay => 1 | .sampleRate => 2 | .blockSize => 3
       | .channels => 4 | .buffer => 5 | .capacity => 6 | .alreadyReady => 7) ∧
    t.word.extractLsb' 16 5 = t.sticky ∧
    (∀ n, (4 ≤ n ∧ n < 8) ∨ (12 ≤ n ∧ n < 16) ∨ 21 ≤ n → t.word.getLsbD n = false)

/-- R74: an access within the window that is not 32 bits wide, is misaligned, or reaches a reserved or unmapped offset
has no effect but ERR_BUS, a read of it gives 0, and it is never held. -/
def Obligations.RejectedAccessOnlyFlags : Prop :=
  ∀ (s : State) (m : Port) (addr width : Nat) (v : Word),
    inWindow s.params addr = true →
    (width ≠ 32 ∨ addr % 4 ≠ 0 ∨ regAt s.params (addr - s.params.base) = none) →
    s.busAccess m (.write addr width v) =
      .next { s with status := { s.status with sticky := s.status.sticky ||| 0b10000#5 } } ∧
    s.busAccess m (.read addr width) =
      .next (State.answer { s with status := { s.status with sticky := s.status.sticky ||| 0b10000#5 } } m 0) ∧
    s.held m (.write addr width v) = false ∧ s.held m (.read addr width) = false

/-- R75: a write to a read-only register changes nothing, a read of a command register gives 0 and changes nothing but
the word handed to the master. -/
def Obligations.ReadOnlyWritesIgnored : Prop :=
  ∀ (s : State) (m : Port) (off : Nat) (v : Word),
    s.params.base % 4 = 0 →
    (off ∈ [0x00C, 0x014] →
      s.busAccess m (.read (s.params.base + off) 32) = .next (s.answer m 0)) ∧
    (off ∈ [0x000, 0x004, 0x020, 0x024, 0x028, 0x02C, 0x030, 0x034, 0x038, 0x03C, 0x040, 0x044, 0x048, 0x04C, 0x050,
        0x060, 0x064, 0x068, 0x06C, 0x070, 0x074, 0x078, 0x07C, 0x080, 0x084, 0x088, 0x08C, 0x090] →
      s.busAccess m (.write (s.params.base + off) 32 v) = .next s)

/-- R72, R73 and R77 for BUF: a write to `BUF[k]` stores the word, low byte first, and does nothing else; a read of it
then gives the word; every byte outside its four reads as before. -/
def Obligations.BufWriteThenRead : Prop :=
  ∀ (s : State) (m : Port) (k : Nat) (v : Word),
    s.params.Legal → k < s.params.bufRamWords →
    ∃ t, s.busAccess m (.write (s.params.base + 0x1000 + 4 * k) 32 v) = .next t ∧
      t = { s with buf := t.buf } ∧
      (∀ i, i < 4 → t.bufByte (s.params.base + 0x1000 + 4 * k + i) = v.extractLsb' (8 * i) 8) ∧
      (∀ a, a < s.params.base + 0x1000 + 4 * k ∨ s.params.base + 0x1000 + 4 * k + 4 ≤ a → t.bufByte a = s.bufByte a) ∧
      t.busAccess m (.read (s.params.base + 0x1000 + 4 * k) 32) = .next (t.answer m v) ∧
      (∀ j, j < s.params.bufRamWords → j ≠ k →
        t.busAccess m (.read (s.params.base + 0x1000 + 4 * j) 32) = .next (t.answer m (s.bufRead j)))

/-- R38: a write to an ARG register stores the whole word and does nothing else, and a read gives the last value
written. -/
def Obligations.ArgRegistersHoldWord : Prop :=
  ∀ (s : State) (m : Port) (v : Word), s.params.base % 4 = 0 →
    s.busAccess m (.write (s.params.base + 0x008) 32 v) = .next { s with hostArg := v } ∧
    s.busAccess m (.write (s.params.base + 0x010) 32 v) = .next { s with ctrlArg := v } ∧
    s.busAccess m (.read (s.params.base + 0x008) 32) = .next (s.answer m s.hostArg) ∧
    s.busAccess m (.read (s.params.base + 0x010) 32) = .next (s.answer m s.ctrlArg)

/-- R80 and R321: while a block runs, a pending HOST write to HOST_ARG or HOST_CMD and a pending HOST access to BUF stay
pending through every step, and ENGINE has a step; every other pending HOST access gives HOST a step, one that R74
rejects (log 22) and one outside the window (log 9) among them; a CTRL access is never held (log 8). -/
def Obligations.HeldAccessWaitsForBlock : Prop :=
  (∀ (s : State) (a : BusAccess) (rest : List MasterOp),
    s.params.Legal → s.status.busy = true → s.host.pending = .access a :: rest →
    let waits : Prop :=
      (∃ v, a = .write (s.params.base + 0x008) 32 v ∨ a = .write (s.params.base + 0x00C) 32 v) ∨
      (∃ k, k < s.params.bufRamWords ∧
        (a = .read (s.params.base + 0x1000 + 4 * k) 32 ∨ ∃ v, a = .write (s.params.base + 0x1000 + 4 * k) 32 v))
    s.enabled .engine = true ∧
    (waits → s.enabled .host = false ∧ ∀ t, step s = .next t → t.host = s.host) ∧
    (¬ waits → s.enabled .host = true)) ∧
  (∀ (s : State), s.enabled .ctrl = true ↔ s.ctrl.pending ≠ [])

/-- R221, R320 and R322: where ENGINE moves next in a running block the step is a frame. Past the schedule every step of a
running block is a frame, or an access or a poll of a master and one more choice that ENGINE has waited; when it has
waited `Config.patience` choices, a free bound (log 6), the next step is a frame. -/
def Obligations.EngineIsNotStarved : Prop :=
  let frameOf (s t : State) : Prop :=
    (∃ u : State, (u = s ∨ u = { s with tick := s.tick + 1, waited := 0 }) ∧ t = u.frameStep) ∧
    t.schedule = [] ∧ t.seq.procT = s.seq.procT + 1 ∧ t.host = s.host ∧ t.ctrl = s.ctrl
  (∀ (s : State) (sched : List Agent), s.status.busy = true → s.schedule = .engine :: sched →
    step s = .next (State.frameStep { s with schedule := sched })) ∧
  (∀ (s : State), s.status.busy = true → s.schedule = [] → Config.patience ≤ s.waited →
    ∃ t, step s = .next t ∧ frameOf s t) ∧
  (∀ (s t : State), s.status.busy = true → s.schedule = [] → step s = .next t →
    frameOf s t ∨
    (t.schedule = [] ∧ t.waited = s.waited + 1 ∧ t.status.busy = true ∧
      ∃ (m : Port) (rest : List MasterOp),
        let u := { s with tick := s.tick + 1, waited := s.waited + 1 }
        (∃ a, (s.master m).pending = .access a :: rest ∧ s.held m a = false ∧
          (u.setMaster m { s.master m with pending := rest }).busAccess m a = .next t) ∨
        ((s.master m).pending = .waitIdle :: rest ∧ t = u.answer m s.status.word)))

/-- The poll loop of R116, of either master: a step of `WAIT_IDLE` reads STATUS, and the loop ends at the first word
whose bit 1 is 0. -/
def Obligations.WaitIdlePollsStatus : Prop :=
  ∀ (s : State) (rest : List MasterOp) (sched : List Agent),
    (s.schedule = .host :: sched → s.host.pending = .waitIdle :: rest →
      step s = .next { s with
        schedule := sched
        host := {
          pending := if s.status.busy then .waitIdle :: rest else rest, reads := s.status.word :: s.host.reads } }) ∧
    (s.schedule = .ctrl :: sched → s.ctrl.pending = .waitIdle :: rest →
      step s = .next { s with
        schedule := sched
        ctrl := {
          pending := if s.status.busy then .waitIdle :: rest else rest, reads := s.status.word :: s.ctrl.reads } })

/-! ### Reset -/

/-- R340 and R341 for every legal choice of the parameters: after power-on reset STATUS is 0, every register but ID and
the capability registers reads 0, no delay word is allocated, and the hidden registers are 0. -/
def Obligations.PowerOnState : Prop :=
  ∀ (p : Params), p.Legal →
    let s := State.powerOn p
    s.status.word = 0 ∧ s.readReg .id = 0x464C4731#32 ∧
    (∀ off r, off < 0x080 → off ≠ 0 → regAt p off = some r → s.readReg r = 0) ∧
    (∀ c, c < p.maxChannels → s.head c = 0) ∧
    s.dl.alloc = false ∧ s.seq.procN = 0 ∧ s.seq.procT = 0 ∧ s.params = p

/-- The invariants hold after power-on reset of every legal implementation (R52, R340). -/
def Obligations.InvariantsHoldAtPowerOn : Prop :=
  Config.rc.Legal ∧ State.reset = State.powerOn Config.rc ∧
  ∀ (p : Params), p.Legal →
    (State.powerOn p).EngineInv ∧ (State.powerOn p).CoreInv ∧ (State.powerOn p).MemInv ∧
    (State.powerOn p).NoResetDuringBlock ∧ (State.powerOn p).ctrlDisciplined = true

/-! ### Invariants of every step -/

/-- R52 with the ranges of R41 to R50: every step keeps the engine invariant, but for a RESET that the CTRL master, against
R213 and R355, writes to HOST_CMD during a block (log 8); every step, that one too, keeps all of the invariant but BUSY = 0
while Uninitialized and PROC_N = BS; and a CTRL master that keeps to its side goes on doing so. -/
def Obligations.EngineInvariantKept : Prop :=
  (∀ (s t : State), s.EngineInv → s.NoResetDuringBlock → step s = .next t → t.EngineInv) ∧
  (∀ (s t : State), s.CoreInv → step s = .next t → t.CoreInv) ∧
  (∀ (s t : State), s.ctrlDisciplined = true → step s = .next t → t.ctrlDisciplined = true)

/-- Every step keeps the canonical form of the sample buffer, the delay RAM and the wavetable RAM. -/
def Obligations.MemoryFormKept : Prop :=
  ∀ (s t : State), s.MemInv → step s = .next t → t.MemInv

/-- R48, R132 and R357: once the wavetable is initialised no step changes it. -/
def Obligations.WavetableNeverRewritten : Prop :=
  ∀ (s t : State), s.status.wtValid = true → step s = .next t → t.wt = s.wt ∧ t.status.wtValid = true

/-- R33: READY becomes 1 only by an INIT whose checks all hold and 0 only by RESET: among the commands, through every
frame, and in every step, where a change of READY is a write of that command's word to HOST_CMD. -/
def Obligations.ReadyChangesOnlyByInitAndReset : Prop :=
  (∀ (i : Instr) (s t : State), exec i s = .next t →
    (s.status.ready = false → t.status.ready = true →
      i = .init ∧ ∃ cap, initCheck s.params s.cfg = .ok cap) ∧
    (s.status.ready = true → t.status.ready = false → i = .reset)) ∧
  (∀ (s : State), s.frameStep.status.ready = s.status.ready) ∧
  (∀ (s t : State), step s = .next t →
    (s.status.ready = false → t.status.ready = true →
      (∃ cap, initCheck s.params s.cfg = .ok cap) ∧
      ∃ m rest, (s.master m).pending = .access (.write (s.params.base + 0x00C) 32 0x00000008) :: rest) ∧
    (s.status.ready = true → t.status.ready = false →
      ∃ m rest, (s.master m).pending = .access (.write (s.params.base + 0x00C) 32 0x00000009) :: rest))

/-- R302: a sticky bit that is 1 stays 1 through every frame and every command but STATUS_CLEAR. -/
def Obligations.StickyBitsStay : Prop :=
  (∀ (i : Instr) (s t : State) (n : Nat), exec i s = .next t → (∀ mask, i ≠ .statusClear mask) →
    s.status.sticky.getLsbD n = true → t.status.sticky.getLsbD n = true) ∧
  (∀ (s : State), s.frameStep.status.sticky = s.status.sticky)

/-- R309: a step sets at most one sticky bit. -/
def Obligations.AtMostOneStickyBitPerStep : Prop :=
  ∀ (s t : State), step s = .next t → ∀ (m n : Nat),
    (t.status.sticky.getLsbD m = true ∧ s.status.sticky.getLsbD m = false) →
    (t.status.sticky.getLsbD n = true ∧ s.status.sticky.getLsbD n = false) → m = n

/-- R301 and R310: no command stops the block, and a step stops only on an access outside the block's window, which the
spec gives no meaning (log 9); on such an access it does. -/
def Obligations.OnlyForeignAccessStops : Prop :=
  (∀ (i : Instr) (s : State), ∃ t, exec i s = .next t) ∧
  (∀ (s : State) (r : Refusal), step s ≠ .refused r) ∧
  (∀ (s : State), (∀ m a rest, (s.master m).pending = .access a :: rest → inWindow s.params a.addr = true) →
    ∃ t, step s = .next t) ∧
  (∀ (s : State) (m : Port) (a : BusAccess), inWindow s.params a.addr = false →
    s.busAccess m a = .fault .outsideWindow)

/-! ### Arithmetic -/

/-- R13: addition, subtraction, multiplication and division of finite values (the divisor not zero) give the binary32
nearest to the exact result, an even one where two are equally near, with the sign of the exact result. That an overflow
is an infinity, from halfway beyond the largest finite value on, and the sign of a zero are IEEE 754's (log 13). -/
def Obligations.OperationsRoundToNearestEven : Prop :=
  ∀ (a b : F32), isFinite a = true → isFinite b = true →
    RoundsTo (fadd a b) (scaled a + scaled b) 1 (fSign a && fSign b) ∧
    RoundsTo (fsub a b) (scaled a - scaled b) 1 (fSign a && !fSign b) ∧
    RoundsTo (fmul a b) (scaled a * scaled b) (2 ^ 149) (fSign a != fSign b) ∧
    (isZero b = false →
      RoundsTo (fdiv a b) (scaled a * 2 ^ 149 * (scaled b).sign) |scaled b| (fSign a != fSign b))

/-- R14: an operation's result is never a NaN but the canonical one, whatever the operands' payloads. -/
def Obligations.OnlyCanonicalNaNResults : Prop :=
  ∀ (a b r : F32), r ∈ [fadd a b, fsub a b, fmul a b, fdiv a b] → isNaN r = true → r = 0x7FC00000#32

/-- R15: on operands that are not NaN the comparisons are those of the values, -infinity below every finite value,
+infinity above every one, each infinity equal to itself alone (IEEE 754's order, log 13); with a NaN every comparison is
false. -/
def Obligations.ComparisonsFollowValues : Prop :=
  let below (a b : F32) : Prop :=
    (isFinite a = true ∧ isFinite b = true ∧ scaled a < scaled b) ∨
    (isInf a = true ∧ fSign a = true ∧ (isFinite b = true ∨ (isInf b = true ∧ fSign b = false))) ∨
    (isFinite a = true ∧ isInf b = true ∧ fSign b = false)
  let same (a b : F32) : Prop :=
    (isFinite a = true ∧ isFinite b = true ∧ scaled a = scaled b) ∨
    (isInf a = true ∧ isInf b = true ∧ fSign a = fSign b)
  (∀ (a b : F32), isNaN a = false → isNaN b = false →
    (flt a b = true ↔ below a b) ∧ (fle a b = true ↔ below a b ∨ same a b) ∧
    (feq a b = true ↔ same a b) ∧ (fgt a b = true ↔ below b a)) ∧
  (∀ (a b : F32), isNaN a = true ∨ isNaN b = true →
    flt a b = false ∧ fle a b = false ∧ feq a b = false ∧ fgt a b = false)

/-- R16: the floor of a finite value is the largest integral value not above it, and for x >= 0 the fractional part
`fsub(x, ffloor(x))` is exact and in [0, 1); `toInt` of an integral value is the integer it equals, and `fromInt(n)` is
the value n for every |n| <= 2^24, +0.0 for 0. -/
def Obligations.FloorAndFractionAreExact : Prop :=
  (∀ (x : F32), isFinite x = true →
    isFinite (ffloor x) = true ∧ scaled (ffloor x) = scaled x / 2 ^ 149 * 2 ^ 149 ∧
    (fSign x = false →
      scaled (fsub x (ffloor x)) = scaled x % 2 ^ 149 ∧ fInRange (fsub x (ffloor x)) fOne) ∧
    (scaled x % 2 ^ 149 = 0 → toInt x * 2 ^ 149 = scaled x)) ∧
  (∀ (n : Int), |n| ≤ 2 ^ 24 →
    isFinite (fromInt n) = true ∧ scaled (fromInt n) = n * 2 ^ 149 ∧ fSign (fromInt n) = decide (n < 0))

/-- R154: WRAP gives a value in [+0.0, 1.0) for every f32: `fsub(p, ffloor(p))` for a finite one, +0.0 where that is
1.0, the value itself where it is already there, and +0.0 for an infinity or a NaN. -/
def Obligations.WrapLandsInUnitInterval : Prop :=
  ∀ (p : F32),
    fInRange (wrapPhase p) fOne ∧ (fInRange p fOne → wrapPhase p = p) ∧
    (isFinite p = false → wrapPhase p = fZero) ∧
    (isFinite p = true →
      wrapPhase p = if feq (fsub p (ffloor p)) fOne = true then fZero else fsub p (ffloor p))

/-- R175 with R46 and R182: the delay length set lies in [+0.0, CAP) for every f32, is the requested one where that lies
there, +0.0 where it is not above 0 (a NaN too), and the largest value below CAP where it reaches CAP; DELAY_LEN is all
that `DL_SET_DELAY` writes. -/
def Obligations.DelayLengthClamped : Prop :=
  ∀ (cap : Nat) (L : F32), 1 ≤ cap → cap ≤ 2 ^ 24 →
    fInRange (delayClamp cap L) (fromInt cap) ∧
    (fgt L fZero = true → flt L (fromInt cap) = true → delayClamp cap L = L) ∧
    (fgt L fZero = false → delayClamp cap L = fZero) ∧
    (fgt L fZero = true → flt L (fromInt cap) = false →
      ∀ y, flt y (fromInt cap) = true → fle y (delayClamp cap L) = true) ∧
    toInt (ffloor (delayClamp cap L)) ≤ (cap : Int) - 1 ∧
    (∀ s : State, s.dl.capacity.toNat = cap →
      s.dlSetDelay L = { s with dl := { s.dl with len := delayClamp cap L } })

/-- R171: the capacity is the ceiling of the rounded product, between 1 and 2^24; FAIL where the product is infinite or
the ceiling is 0 or above 2^24. -/
def Obligations.CapacityIsCeiling : Prop :=
  ∀ (sr md : F32), isPositiveFinite sr = true → isPositiveFinite md = true →
    match dlCapacity sr md with
    | some cap =>
        1 ≤ cap ∧ cap ≤ 2 ^ 24 ∧ isFinite (fmul sr md) = true ∧
        scaled (fmul sr md) ≤ cap * 2 ^ 149 ∧ cap * 2 ^ 149 < scaled (fmul sr md) + 2 ^ 149
    | none => isFinite (fmul sr md) = false ∨ scaled (fmul sr md) = 0 ∨ 2 ^ 24 * 2 ^ 149 < scaled (fmul sr md)

/-- R17 with R43: what the clamps of the setters store is always a legal value, and a legal value is stored as given. -/
def Obligations.ClampsGiveLegalValues : Prop :=
  ∀ (v : F32), isFinite v = true →
    fInUnit (clamp01 v) ∧ (fSign (clampLow0 v) = false ∧ isFinite (clampLow0 v) = true) ∧
    (fInUnit v → clamp01 v = v) ∧ (fSign v = false → clampLow0 v = v)

/-- R133 and R176: the interpolation is `a + fr x (b - a)`, rounded after each operation; at a fraction of 0 it gives the
first entry, but for a first entry of -0.0, where the result is still a zero. -/
def Obligations.InterpolationAtEntry : Prop :=
  ∀ (a b : F32),
    (∀ fr, interpolate a b fr = fadd a (fmul fr (fsub b a))) ∧
    (isFinite a = true → isFinite (fsub b a) = true →
      (isZero a = false ∨ a = fZero → interpolate a b fZero = a) ∧
      (isZero a = true → isZero (interpolate a b fZero) = true))

/-- R133 and R134: with an initialised table a read at an admitted index x interpolates, by the fraction of x, from entry
floor(x) mod N to entry (floor(x) + 1) mod N, is finite, and at a whole index (x = N among them) is the entry itself, but
for the sign of an entry -0.0. -/
def Obligations.WavetableReadIsFinite : Prop :=
  ∀ (s : State) (x : F32), s.params.Legal → s.WtInv → s.status.wtValid = true →
    isFinite x = true → fSign x = false →
    let N := s.wt.size.toNat
    let i : Int := scaled x / 2 ^ 149
    let a := waveEntry s.params.wave N (i % (N : Int)).toNat
    let b := waveEntry s.params.wave N ((i + 1) % (N : Int)).toNat
    s.wtRead x = fadd a (fmul (fsub x (ffloor x)) (fsub b a)) ∧
    isFinite (s.wtRead x) = true ∧
    (scaled x % 2 ^ 149 = 0 → isZero a = false ∨ a = fZero → s.wtRead x = a)

/-! ### Frames -/

/-- R221: a block of n frames runs for exactly n frames: BUSY stays 1 until the last frame and is 0 after it. -/
def Obligations.BlockRunsEveryFrame : Prop :=
  ∀ (s : State), s.status.busy = true → s.seq.procT.toNat < s.seq.procN.toNat →
    let n := s.seq.procN.toNat - s.seq.procT.toNat
    (∀ m, m < n → (s.frames m).status.busy = true ∧ (s.frames m).seq.procT.toNat = s.seq.procT.toNat + m) ∧
    (s.frames n).status.busy = false ∧ (s.frames n).seq.procN = s.seq.procN

/-- R153 and R225: before the channels a frame advances the oscillator once, its output taken at the phase before the
advance, and sets the delay length `(base + y) x SR`, clamped; nothing else changes. -/
def Obligations.FrameAdvancesOscillatorOnce : Prop :=
  ∀ (s : State),
    let y := fmul s.osc.gain (s.wtRead (fmul s.osc.phase (fromInt s.wt.size.toNat)))
    s.frameHead = { s with
      osc := { s.osc with phase := wrapPhase (fadd s.osc.phase s.osc.inc) }
      dl := { s.dl with
        len := delayClamp s.dl.capacity.toNat (fmul (fadd s.par.delayTime y) s.spec.sampleRate) } }

/-- R222 to R225: in a frame of a running block the oscillator advances once and sets the delay length, and every
channel's output, pushed value and head are those the rule gives from the state before the channels, whatever the other
channels hold (the channels do not interact). Nothing else changes: not another byte of BUF, not another word or head of
the delay line, no other state but PROC_T and BUSY. -/
def Obligations.FrameComputesEveryChannel : Prop :=
  ∀ (s : State), s.EngineInv → DelayRam.wf s.dl.ram → s.status.ready = true → s.status.busy = true →
    let t := s.seq.procT.toNat
    let y := fmul s.osc.gain (s.wtRead (fmul s.osc.phase (fromInt s.wt.size.toNat)))
    let h := { s with
      osc := { s.osc with phase := wrapPhase (fadd s.osc.phase s.osc.inc) }
      dl := { s.dl with
        len := delayClamp s.dl.capacity.toNat (fmul (fadd s.par.delayTime y) s.spec.sampleRate) } }
    let f := s.frameStep
    let at_ (c : Nat) : Nat := c * s.spec.blockSize.toNat + t
    let dry (c : Nat) : F32 := s.bufRead (at_ c)
    let wet (c : Nat) : F32 := fadd (dry c) (fmul (h.dlPop c) s.par.feedback)
    (∀ c, c < s.ch →
      f.bufRead (at_ c) = fadd (fmul (wet c) s.par.mix) (fmul (dry c) (fsub fOne s.par.mix)) ∧
      f.delayRead c (s.head c) = wet c ∧
      f.head c = (s.head c + 1) % s.delayM ∧
      (∀ k, k < s.delayM → k ≠ s.head c → f.delayRead c k = s.delayRead c k)) ∧
    (∀ c, s.ch ≤ c → f.head c = s.head c) ∧
    (∀ a, (∀ c, c < s.ch → a < bufAddr s.params (at_ c) ∨ bufAddr s.params (at_ c) + 4 ≤ a) →
      f.bufByte a = s.bufByte a) ∧
    f = { s with
      osc := h.osc
      dl := { h.dl with ram := f.dl.ram, heads := f.dl.heads }
      buf := f.buf
      seq := { s.seq with procT := s.seq.procT + 1 }
      status := { s.status with busy := decide (s.seq.procT + 1 ≠ s.seq.procN) } }

/-- R180: a pop at delay length i + fr returns `a + fr x (b - a)`, rounded after each operation, where a and b are the
values pushed i + 1 and i + 2 pushes ago, +0.0 where a line of zeros (after INIT or CLEAR) has had fewer pushes; so length
0 delays by one sample (R351). -/
def Obligations.PopReadsEarlierPushes : Prop :=
  ∀ (s : State) (c i : Nat) (L : F32) (vs : List F32),
    DelayRam.wf s.dl.ram → s.dl.alloc = true → c < s.ch → c < s.dl.heads.length → s.head c < s.delayM →
    i + 1 ≤ s.dl.capacity.toNat → toInt (ffloor L) = i →
    (i + 2 ≤ vs.length ∨ ∀ k, k < s.delayM → s.delayRead c k = fZero) →
    let u := s.pushes c vs
    let ago (j : Nat) : F32 := if j ≤ vs.length then vs.getD (vs.length - j) fZero else fZero
    State.dlPop { u with dl := { u.dl with len := L } } c =
      fadd (ago (i + 1)) (fmul (fsub L (ffloor L)) (fsub (ago (i + 2)) (ago (i + 1))))

/-- R214: after CLEAR the next pop of every channel returns +0.0 whatever the delay length is. -/
def Obligations.ClearSilencesDelayLine : Prop :=
  ∀ (s : State), s.EngineInv → s.status.ready = true →
    ∃ t, exec .clear s = .next t ∧ ∀ c, c < s.ch → t.dlPop c = fZero

/-- R361: a wet value computed from a non-finite sample or tap is non-finite, and so is the output, whatever the feedback
and the mix (a NaN, and an infinite tap at zero feedback, give the NaN). In a frame of a running block a non-finite input
sample, or a non-finite word at either tap the pop reads, leaves a non-finite word pushed and a non-finite output, so a
later pop that reads the word does the same. -/
def Obligations.NonFiniteSamplesPersist : Prop :=
  (∀ (fb m dry d : F32), isFinite dry = false ∨ isFinite d = false →
    isFinite (feedbackSum fb dry d) = false ∧ isFinite (mixOutput m (feedbackSum fb dry d) dry) = false) ∧
  (∀ (fb m dry d : F32), isNaN dry = true ∨ isNaN d = true ∨ (isInf d = true ∧ isZero fb = true) →
    feedbackSum fb dry d = qNaN ∧ mixOutput m (feedbackSum fb dry d) dry = qNaN) ∧
  (∀ (s : State) (c : Nat), s.EngineInv → DelayRam.wf s.dl.ram → s.status.ready = true → s.status.busy = true →
    c < s.ch →
    let f := s.frameStep
    let k := c * s.spec.blockSize.toNat + s.seq.procT.toNat
    let tap (j : Int) : F32 :=
      s.delayRead c (((s.head c : Int) - j - toInt (ffloor f.dl.len)) % (s.delayM : Int)).toNat
    isFinite (s.bufRead k) = false ∨ isFinite (tap 1) = false ∨ isFinite (tap 2) = false →
    isFinite (f.delayRead c (s.head c)) = false ∧ isFinite (f.bufRead k) = false)

/-- R352 and the last sentence of R344: a frame and every command but INIT compute the same, bit for bit, in two states
that differ only in the ARG and staging registers, the INIT result, the sticky bits and the masters' programs. -/
def Obligations.AudioDependsOnlyOnAudioState : Prop :=
  ∀ (s t : State) (q : List Event), Event.command .init ∉ q → s.AudioEq t → (s.afterAll q).AudioEq (t.afterAll q)

/-- R344: from two Uninitialized states of one implementation with the same staged values, and wavetables that are the
same once INIT has run, INIT followed by any sequence of commands, BUF writes and frames without another INIT gives the
same audio state, bit for bit, whatever was run before: with the same BUF where BUF was the same, and, where the sequence
begins by loading every word of the block (95_test_vectors.md P5), with the same words of the block whatever BUF was. -/
def Obligations.ReinitialisedRunsAgree : Prop :=
  ∀ (s t : State) (cap : Nat) (loads q : List Event),
    s.EngineInv → t.EngineInv → s.status.ready = false → t.status.ready = false →
    s.params = t.params → s.cfg = t.cfg →
    (s.wtInitialise s.params.wtDefaultSize).wt = (t.wtInitialise t.params.wtDefaultSize).wt →
    initCheck s.params s.cfg = .ok cap → Event.command .init ∉ q →
    let u := s.after (.command .init)
    let v := t.after (.command .init)
    (s.buf = t.buf → (u.afterAll q).AudioEq (v.afterAll q)) ∧
    ((∀ e, e ∈ loads → ∃ k w, e = .bufWrite k w) →
      (∀ k, k < s.cfg.channels.toNat * s.cfg.blockSize.toNat → ∃ w, Event.bufWrite k w ∈ loads) →
      (u.afterAll (loads ++ q)).AudioSame (v.afterAll (loads ++ q)))

/-! ### Reads of the registers, special operands -/

/-- R71 with R32, R38 to R43, R45, R46, R48 and R51: a read of each register of the register window gives that register's
value and changes nothing but the words handed to the master. -/
def Obligations.RegisterReadsReturnTheirState : Prop :=
  ∀ (s : State) (m : Port) (off : Nat) (w : Word),
    s.params.base % 4 = 0 →
    (off, w) ∈
      ([(0x000, 0x464C4731#32), (0x004, s.status.word), (0x008, s.hostArg), (0x00C, 0), (0x010, s.ctrlArg), (0x014, 0),
        (0x020, s.cfg.sampleRate), (0x024, s.cfg.blockSize), (0x028, s.cfg.channels), (0x02C, s.cfg.maxDelay),
        (0x030, s.spec.sampleRate), (0x034, s.spec.blockSize), (0x038, s.spec.channels), (0x03C, s.dl.capacity),
        (0x040, s.par.mix), (0x044, s.par.feedback), (0x048, s.par.delayTime), (0x04C, s.par.lfoAmp),
        (0x050, s.par.lfoFreq), (0x060, s.osc.phase), (0x064, s.osc.inc), (0x068, s.osc.gain), (0x06C, s.osc.freq),
        (0x070, if s.osc.bound = true then 1 else 0), (0x074, s.dl.len), (0x078, BitVec.ofNat 32 (s.head 0)),
        (0x07C, s.wt.size), (0x080, BitVec.ofNat 32 s.params.maxChannels), (0x084, BitVec.ofNat 32 s.params.bufRamWords),
        (0x088, BitVec.ofNat 32 s.params.delayRamWords), (0x08C, BitVec.ofNat 32 s.params.wtMaxSize),
        (0x090, BitVec.ofNat 32 s.params.wtDefaultSize)] : List (Nat × Word)) →
    s.busAccess m (.read (s.params.base + off) 32) = .next (s.answer m w)

/-- R13 and R14 on the operands R13 leaves to IEEE 754 (log 13): a NaN operand and the invalid operations give the
canonical NaN, an infinity is kept by sums, products and quotients with the sign IEEE 754 gives it, and a zero divisor
gives an infinity. -/
def Obligations.SpecialOperandsGiveIeeeResults : Prop :=
  ∀ (a b : F32),
    let sign := fSign a != fSign b
    (isNaN a = true ∨ isNaN b = true → fadd a b = qNaN ∧ fsub a b = qNaN ∧ fmul a b = qNaN ∧ fdiv a b = qNaN) ∧
    (isNaN a = false → isNaN b = false →
      (isInf a = true → isInf b = false → fadd a b = a ∧ fsub a b = a) ∧
      (isInf a = false → isInf b = true → fadd a b = b ∧ fsub a b = b ^^^ 0x80000000#32) ∧
      (isInf a = true → isInf b = true →
        (sign = false → fadd a b = a ∧ fsub a b = qNaN) ∧ (sign = true → fadd a b = qNaN ∧ fsub a b = a)) ∧
      (isInf a = true ∨ isInf b = true →
        if isZero a = true ∨ isZero b = true then fmul a b = qNaN
        else isInf (fmul a b) = true ∧ fSign (fmul a b) = sign) ∧
      (isInf a = true →
        if isInf b = true then fdiv a b = qNaN else isInf (fdiv a b) = true ∧ fSign (fdiv a b) = sign) ∧
      (isInf a = false →
        if isInf b = true then isZero (fdiv a b) = true ∧ fSign (fdiv a b) = sign
        else if isZero b = true then
          if isZero a = true then fdiv a b = qNaN else isInf (fdiv a b) = true ∧ fSign (fdiv a b) = sign
        else True))
end

