-- ==== Sys2Proof/Laws/State.lean ====
section
/-! SUPPORT. What each update of the state does to each field: one lemma per field per update, so that no proof unfolds an update. -/

namespace Sys2Proof.Machine

variable (s : State)

@[simp] theorem State.flag_params (x : Sticky) : (s.flag x).params = s.params := rfl
@[simp] theorem State.flag_status (x : Sticky) : (s.flag x).status = { s.status with sticky := s.status.sticky ||| x.mask } := rfl
@[simp] theorem State.flag_hostArg (x : Sticky) : (s.flag x).hostArg = s.hostArg := rfl
@[simp] theorem State.flag_ctrlArg (x : Sticky) : (s.flag x).ctrlArg = s.ctrlArg := rfl
@[simp] theorem State.flag_cfg (x : Sticky) : (s.flag x).cfg = s.cfg := rfl
@[simp] theorem State.flag_spec (x : Sticky) : (s.flag x).spec = s.spec := rfl
@[simp] theorem State.flag_par (x : Sticky) : (s.flag x).par = s.par := rfl
@[simp] theorem State.flag_osc (x : Sticky) : (s.flag x).osc = s.osc := rfl
@[simp] theorem State.flag_dl (x : Sticky) : (s.flag x).dl = s.dl := rfl
@[simp] theorem State.flag_wt (x : Sticky) : (s.flag x).wt = s.wt := rfl
@[simp] theorem State.flag_buf (x : Sticky) : (s.flag x).buf = s.buf := rfl
@[simp] theorem State.flag_seq (x : Sticky) : (s.flag x).seq = s.seq := rfl
@[simp] theorem State.flag_host (x : Sticky) : (s.flag x).host = s.host := rfl
@[simp] theorem State.flag_ctrl (x : Sticky) : (s.flag x).ctrl = s.ctrl := rfl
@[simp] theorem State.flag_schedule (x : Sticky) : (s.flag x).schedule = s.schedule := rfl
@[simp] theorem State.flag_tick (x : Sticky) : (s.flag x).tick = s.tick := rfl
@[simp] theorem State.flag_waited (x : Sticky) : (s.flag x).waited = s.waited := rfl

@[simp] theorem State.clearSticky_params (m : BitVec 5) : (s.clearSticky m).params = s.params := rfl
@[simp] theorem State.clearSticky_status (m : BitVec 5) : (s.clearSticky m).status = { s.status with sticky := s.status.sticky &&& ~~~m } := rfl
@[simp] theorem State.clearSticky_hostArg (m : BitVec 5) : (s.clearSticky m).hostArg = s.hostArg := rfl
@[simp] theorem State.clearSticky_ctrlArg (m : BitVec 5) : (s.clearSticky m).ctrlArg = s.ctrlArg := rfl
@[simp] theorem State.clearSticky_cfg (m : BitVec 5) : (s.clearSticky m).cfg = s.cfg := rfl
@[simp] theorem State.clearSticky_spec (m : BitVec 5) : (s.clearSticky m).spec = s.spec := rfl
@[simp] theorem State.clearSticky_par (m : BitVec 5) : (s.clearSticky m).par = s.par := rfl
@[simp] theorem State.clearSticky_osc (m : BitVec 5) : (s.clearSticky m).osc = s.osc := rfl
@[simp] theorem State.clearSticky_dl (m : BitVec 5) : (s.clearSticky m).dl = s.dl := rfl
@[simp] theorem State.clearSticky_wt (m : BitVec 5) : (s.clearSticky m).wt = s.wt := rfl
@[simp] theorem State.clearSticky_buf (m : BitVec 5) : (s.clearSticky m).buf = s.buf := rfl
@[simp] theorem State.clearSticky_seq (m : BitVec 5) : (s.clearSticky m).seq = s.seq := rfl
@[simp] theorem State.clearSticky_host (m : BitVec 5) : (s.clearSticky m).host = s.host := rfl
@[simp] theorem State.clearSticky_ctrl (m : BitVec 5) : (s.clearSticky m).ctrl = s.ctrl := rfl
@[simp] theorem State.clearSticky_schedule (m : BitVec 5) : (s.clearSticky m).schedule = s.schedule := rfl
@[simp] theorem State.clearSticky_tick (m : BitVec 5) : (s.clearSticky m).tick = s.tick := rfl
@[simp] theorem State.clearSticky_waited (m : BitVec 5) : (s.clearSticky m).waited = s.waited := rfl

@[simp] theorem State.initFailed_params (c : InitCode) : (s.initFailed c).params = s.params := rfl
@[simp] theorem State.initFailed_status (c : InitCode) : (s.initFailed c).status = { s.status with initOk := false, initCode := c } := rfl
@[simp] theorem State.initFailed_hostArg (c : InitCode) : (s.initFailed c).hostArg = s.hostArg := rfl
@[simp] theorem State.initFailed_ctrlArg (c : InitCode) : (s.initFailed c).ctrlArg = s.ctrlArg := rfl
@[simp] theorem State.initFailed_cfg (c : InitCode) : (s.initFailed c).cfg = s.cfg := rfl
@[simp] theorem State.initFailed_spec (c : InitCode) : (s.initFailed c).spec = s.spec := rfl
@[simp] theorem State.initFailed_par (c : InitCode) : (s.initFailed c).par = s.par := rfl
@[simp] theorem State.initFailed_osc (c : InitCode) : (s.initFailed c).osc = s.osc := rfl
@[simp] theorem State.initFailed_dl (c : InitCode) : (s.initFailed c).dl = s.dl := rfl
@[simp] theorem State.initFailed_wt (c : InitCode) : (s.initFailed c).wt = s.wt := rfl
@[simp] theorem State.initFailed_buf (c : InitCode) : (s.initFailed c).buf = s.buf := rfl
@[simp] theorem State.initFailed_seq (c : InitCode) : (s.initFailed c).seq = s.seq := rfl
@[simp] theorem State.initFailed_host (c : InitCode) : (s.initFailed c).host = s.host := rfl
@[simp] theorem State.initFailed_ctrl (c : InitCode) : (s.initFailed c).ctrl = s.ctrl := rfl
@[simp] theorem State.initFailed_schedule (c : InitCode) : (s.initFailed c).schedule = s.schedule := rfl
@[simp] theorem State.initFailed_tick (c : InitCode) : (s.initFailed c).tick = s.tick := rfl
@[simp] theorem State.initFailed_waited (c : InitCode) : (s.initFailed c).waited = s.waited := rfl

@[simp] theorem State.oscBind_params (hz g : F32) : (s.oscBind hz g).params = s.params := rfl
@[simp] theorem State.oscBind_status (hz g : F32) : (s.oscBind hz g).status = s.status := rfl
@[simp] theorem State.oscBind_hostArg (hz g : F32) : (s.oscBind hz g).hostArg = s.hostArg := rfl
@[simp] theorem State.oscBind_ctrlArg (hz g : F32) : (s.oscBind hz g).ctrlArg = s.ctrlArg := rfl
@[simp] theorem State.oscBind_cfg (hz g : F32) : (s.oscBind hz g).cfg = s.cfg := rfl
@[simp] theorem State.oscBind_spec (hz g : F32) : (s.oscBind hz g).spec = s.spec := rfl
@[simp] theorem State.oscBind_par (hz g : F32) : (s.oscBind hz g).par = s.par := rfl
@[simp] theorem State.oscBind_osc (hz g : F32) : (s.oscBind hz g).osc = { phase := fZero, inc := fdiv hz s.spec.sampleRate, gain := g, freq := hz, bound := true } := rfl
@[simp] theorem State.oscBind_dl (hz g : F32) : (s.oscBind hz g).dl = s.dl := rfl
@[simp] theorem State.oscBind_wt (hz g : F32) : (s.oscBind hz g).wt = s.wt := rfl
@[simp] theorem State.oscBind_buf (hz g : F32) : (s.oscBind hz g).buf = s.buf := rfl
@[simp] theorem State.oscBind_seq (hz g : F32) : (s.oscBind hz g).seq = s.seq := rfl
@[simp] theorem State.oscBind_host (hz g : F32) : (s.oscBind hz g).host = s.host := rfl
@[simp] theorem State.oscBind_ctrl (hz g : F32) : (s.oscBind hz g).ctrl = s.ctrl := rfl
@[simp] theorem State.oscBind_schedule (hz g : F32) : (s.oscBind hz g).schedule = s.schedule := rfl
@[simp] theorem State.oscBind_tick (hz g : F32) : (s.oscBind hz g).tick = s.tick := rfl
@[simp] theorem State.oscBind_waited (hz g : F32) : (s.oscBind hz g).waited = s.waited := rfl

@[simp] theorem State.oscSetFrequency_params (hz : F32) : (s.oscSetFrequency hz).params = s.params := rfl
@[simp] theorem State.oscSetFrequency_status (hz : F32) : (s.oscSetFrequency hz).status = s.status := rfl
@[simp] theorem State.oscSetFrequency_hostArg (hz : F32) : (s.oscSetFrequency hz).hostArg = s.hostArg := rfl
@[simp] theorem State.oscSetFrequency_ctrlArg (hz : F32) : (s.oscSetFrequency hz).ctrlArg = s.ctrlArg := rfl
@[simp] theorem State.oscSetFrequency_cfg (hz : F32) : (s.oscSetFrequency hz).cfg = s.cfg := rfl
@[simp] theorem State.oscSetFrequency_spec (hz : F32) : (s.oscSetFrequency hz).spec = s.spec := rfl
@[simp] theorem State.oscSetFrequency_par (hz : F32) : (s.oscSetFrequency hz).par = s.par := rfl
@[simp] theorem State.oscSetFrequency_osc (hz : F32) : (s.oscSetFrequency hz).osc = { s.osc with freq := hz, inc := fdiv hz s.spec.sampleRate } := rfl
@[simp] theorem State.oscSetFrequency_dl (hz : F32) : (s.oscSetFrequency hz).dl = s.dl := rfl
@[simp] theorem State.oscSetFrequency_wt (hz : F32) : (s.oscSetFrequency hz).wt = s.wt := rfl
@[simp] theorem State.oscSetFrequency_buf (hz : F32) : (s.oscSetFrequency hz).buf = s.buf := rfl
@[simp] theorem State.oscSetFrequency_seq (hz : F32) : (s.oscSetFrequency hz).seq = s.seq := rfl
@[simp] theorem State.oscSetFrequency_host (hz : F32) : (s.oscSetFrequency hz).host = s.host := rfl
@[simp] theorem State.oscSetFrequency_ctrl (hz : F32) : (s.oscSetFrequency hz).ctrl = s.ctrl := rfl
@[simp] theorem State.oscSetFrequency_schedule (hz : F32) : (s.oscSetFrequency hz).schedule = s.schedule := rfl
@[simp] theorem State.oscSetFrequency_tick (hz : F32) : (s.oscSetFrequency hz).tick = s.tick := rfl
@[simp] theorem State.oscSetFrequency_waited (hz : F32) : (s.oscSetFrequency hz).waited = s.waited := rfl

@[simp] theorem State.oscSetGain_params (g : F32) : (s.oscSetGain g).params = s.params := rfl
@[simp] theorem State.oscSetGain_status (g : F32) : (s.oscSetGain g).status = s.status := rfl
@[simp] theorem State.oscSetGain_hostArg (g : F32) : (s.oscSetGain g).hostArg = s.hostArg := rfl
@[simp] theorem State.oscSetGain_ctrlArg (g : F32) : (s.oscSetGain g).ctrlArg = s.ctrlArg := rfl
@[simp] theorem State.oscSetGain_cfg (g : F32) : (s.oscSetGain g).cfg = s.cfg := rfl
@[simp] theorem State.oscSetGain_spec (g : F32) : (s.oscSetGain g).spec = s.spec := rfl
@[simp] theorem State.oscSetGain_par (g : F32) : (s.oscSetGain g).par = s.par := rfl
@[simp] theorem State.oscSetGain_osc (g : F32) : (s.oscSetGain g).osc = { s.osc with gain := g } := rfl
@[simp] theorem State.oscSetGain_dl (g : F32) : (s.oscSetGain g).dl = s.dl := rfl
@[simp] theorem State.oscSetGain_wt (g : F32) : (s.oscSetGain g).wt = s.wt := rfl
@[simp] theorem State.oscSetGain_buf (g : F32) : (s.oscSetGain g).buf = s.buf := rfl
@[simp] theorem State.oscSetGain_seq (g : F32) : (s.oscSetGain g).seq = s.seq := rfl
@[simp] theorem State.oscSetGain_host (g : F32) : (s.oscSetGain g).host = s.host := rfl
@[simp] theorem State.oscSetGain_ctrl (g : F32) : (s.oscSetGain g).ctrl = s.ctrl := rfl
@[simp] theorem State.oscSetGain_schedule (g : F32) : (s.oscSetGain g).schedule = s.schedule := rfl
@[simp] theorem State.oscSetGain_tick (g : F32) : (s.oscSetGain g).tick = s.tick := rfl
@[simp] theorem State.oscSetGain_waited (g : F32) : (s.oscSetGain g).waited = s.waited := rfl

@[simp] theorem State.oscReset_params : s.oscReset.params = s.params := rfl
@[simp] theorem State.oscReset_status : s.oscReset.status = s.status := rfl
@[simp] theorem State.oscReset_hostArg : s.oscReset.hostArg = s.hostArg := rfl
@[simp] theorem State.oscReset_ctrlArg : s.oscReset.ctrlArg = s.ctrlArg := rfl
@[simp] theorem State.oscReset_cfg : s.oscReset.cfg = s.cfg := rfl
@[simp] theorem State.oscReset_spec : s.oscReset.spec = s.spec := rfl
@[simp] theorem State.oscReset_par : s.oscReset.par = s.par := rfl
@[simp] theorem State.oscReset_osc : s.oscReset.osc = Oscillator.zero := rfl
@[simp] theorem State.oscReset_dl : s.oscReset.dl = s.dl := rfl
@[simp] theorem State.oscReset_wt : s.oscReset.wt = s.wt := rfl
@[simp] theorem State.oscReset_buf : s.oscReset.buf = s.buf := rfl
@[simp] theorem State.oscReset_seq : s.oscReset.seq = s.seq := rfl
@[simp] theorem State.oscReset_host : s.oscReset.host = s.host := rfl
@[simp] theorem State.oscReset_ctrl : s.oscReset.ctrl = s.ctrl := rfl
@[simp] theorem State.oscReset_schedule : s.oscReset.schedule = s.schedule := rfl
@[simp] theorem State.oscReset_tick : s.oscReset.tick = s.tick := rfl
@[simp] theorem State.oscReset_waited : s.oscReset.waited = s.waited := rfl

@[simp] theorem State.oscAdvance_params : s.oscAdvance.params = s.params := rfl
@[simp] theorem State.oscAdvance_status : s.oscAdvance.status = s.status := rfl
@[simp] theorem State.oscAdvance_hostArg : s.oscAdvance.hostArg = s.hostArg := rfl
@[simp] theorem State.oscAdvance_ctrlArg : s.oscAdvance.ctrlArg = s.ctrlArg := rfl
@[simp] theorem State.oscAdvance_cfg : s.oscAdvance.cfg = s.cfg := rfl
@[simp] theorem State.oscAdvance_spec : s.oscAdvance.spec = s.spec := rfl
@[simp] theorem State.oscAdvance_par : s.oscAdvance.par = s.par := rfl
@[simp] theorem State.oscAdvance_osc : s.oscAdvance.osc = { s.osc with phase := wrapPhase (fadd s.osc.phase s.osc.inc) } := rfl
@[simp] theorem State.oscAdvance_dl : s.oscAdvance.dl = s.dl := rfl
@[simp] theorem State.oscAdvance_wt : s.oscAdvance.wt = s.wt := rfl
@[simp] theorem State.oscAdvance_buf : s.oscAdvance.buf = s.buf := rfl
@[simp] theorem State.oscAdvance_seq : s.oscAdvance.seq = s.seq := rfl
@[simp] theorem State.oscAdvance_host : s.oscAdvance.host = s.host := rfl
@[simp] theorem State.oscAdvance_ctrl : s.oscAdvance.ctrl = s.ctrl := rfl
@[simp] theorem State.oscAdvance_schedule : s.oscAdvance.schedule = s.schedule := rfl
@[simp] theorem State.oscAdvance_tick : s.oscAdvance.tick = s.tick := rfl
@[simp] theorem State.oscAdvance_waited : s.oscAdvance.waited = s.waited := rfl

@[simp] theorem State.dlPrepare_params : s.dlPrepare.params = s.params := rfl
@[simp] theorem State.dlPrepare_status : s.dlPrepare.status = s.status := rfl
@[simp] theorem State.dlPrepare_hostArg : s.dlPrepare.hostArg = s.hostArg := rfl
@[simp] theorem State.dlPrepare_ctrlArg : s.dlPrepare.ctrlArg = s.ctrlArg := rfl
@[simp] theorem State.dlPrepare_cfg : s.dlPrepare.cfg = s.cfg := rfl
@[simp] theorem State.dlPrepare_spec : s.dlPrepare.spec = s.spec := rfl
@[simp] theorem State.dlPrepare_par : s.dlPrepare.par = s.par := rfl
@[simp] theorem State.dlPrepare_osc : s.dlPrepare.osc = s.osc := rfl
@[simp] theorem State.dlPrepare_dl : s.dlPrepare.dl = { s.dl with ram := [], heads := List.replicate s.params.maxChannels 0, len := fZero, alloc := true } := rfl
@[simp] theorem State.dlPrepare_wt : s.dlPrepare.wt = s.wt := rfl
@[simp] theorem State.dlPrepare_buf : s.dlPrepare.buf = s.buf := rfl
@[simp] theorem State.dlPrepare_seq : s.dlPrepare.seq = s.seq := rfl
@[simp] theorem State.dlPrepare_host : s.dlPrepare.host = s.host := rfl
@[simp] theorem State.dlPrepare_ctrl : s.dlPrepare.ctrl = s.ctrl := rfl
@[simp] theorem State.dlPrepare_schedule : s.dlPrepare.schedule = s.schedule := rfl
@[simp] theorem State.dlPrepare_tick : s.dlPrepare.tick = s.tick := rfl
@[simp] theorem State.dlPrepare_waited : s.dlPrepare.waited = s.waited := rfl

@[simp] theorem State.dlRelease_params : s.dlRelease.params = s.params := rfl
@[simp] theorem State.dlRelease_status : s.dlRelease.status = s.status := rfl
@[simp] theorem State.dlRelease_hostArg : s.dlRelease.hostArg = s.hostArg := rfl
@[simp] theorem State.dlRelease_ctrlArg : s.dlRelease.ctrlArg = s.ctrlArg := rfl
@[simp] theorem State.dlRelease_cfg : s.dlRelease.cfg = s.cfg := rfl
@[simp] theorem State.dlRelease_spec : s.dlRelease.spec = s.spec := rfl
@[simp] theorem State.dlRelease_par : s.dlRelease.par = s.par := rfl
@[simp] theorem State.dlRelease_osc : s.dlRelease.osc = s.osc := rfl
@[simp] theorem State.dlRelease_dl : s.dlRelease.dl = { s.dl with ram := [], heads := List.replicate s.params.maxChannels 0, len := fZero, alloc := false } := rfl
@[simp] theorem State.dlRelease_wt : s.dlRelease.wt = s.wt := rfl
@[simp] theorem State.dlRelease_buf : s.dlRelease.buf = s.buf := rfl
@[simp] theorem State.dlRelease_seq : s.dlRelease.seq = s.seq := rfl
@[simp] theorem State.dlRelease_host : s.dlRelease.host = s.host := rfl
@[simp] theorem State.dlRelease_ctrl : s.dlRelease.ctrl = s.ctrl := rfl
@[simp] theorem State.dlRelease_schedule : s.dlRelease.schedule = s.schedule := rfl
@[simp] theorem State.dlRelease_tick : s.dlRelease.tick = s.tick := rfl
@[simp] theorem State.dlRelease_waited : s.dlRelease.waited = s.waited := rfl

@[simp] theorem State.dlClear_params : s.dlClear.params = s.params := rfl
@[simp] theorem State.dlClear_status : s.dlClear.status = s.status := rfl
@[simp] theorem State.dlClear_hostArg : s.dlClear.hostArg = s.hostArg := rfl
@[simp] theorem State.dlClear_ctrlArg : s.dlClear.ctrlArg = s.ctrlArg := rfl
@[simp] theorem State.dlClear_cfg : s.dlClear.cfg = s.cfg := rfl
@[simp] theorem State.dlClear_spec : s.dlClear.spec = s.spec := rfl
@[simp] theorem State.dlClear_par : s.dlClear.par = s.par := rfl
@[simp] theorem State.dlClear_osc : s.dlClear.osc = s.osc := rfl
@[simp] theorem State.dlClear_dl : s.dlClear.dl = { s.dl with ram := [], heads := List.replicate s.params.maxChannels 0 } := rfl
@[simp] theorem State.dlClear_wt : s.dlClear.wt = s.wt := rfl
@[simp] theorem State.dlClear_buf : s.dlClear.buf = s.buf := rfl
@[simp] theorem State.dlClear_seq : s.dlClear.seq = s.seq := rfl
@[simp] theorem State.dlClear_host : s.dlClear.host = s.host := rfl
@[simp] theorem State.dlClear_ctrl : s.dlClear.ctrl = s.ctrl := rfl
@[simp] theorem State.dlClear_schedule : s.dlClear.schedule = s.schedule := rfl
@[simp] theorem State.dlClear_tick : s.dlClear.tick = s.tick := rfl
@[simp] theorem State.dlClear_waited : s.dlClear.waited = s.waited := rfl

@[simp] theorem State.dlSetDelay_params (L : F32) : (s.dlSetDelay L).params = s.params := rfl
@[simp] theorem State.dlSetDelay_status (L : F32) : (s.dlSetDelay L).status = s.status := rfl
@[simp] theorem State.dlSetDelay_hostArg (L : F32) : (s.dlSetDelay L).hostArg = s.hostArg := rfl
@[simp] theorem State.dlSetDelay_ctrlArg (L : F32) : (s.dlSetDelay L).ctrlArg = s.ctrlArg := rfl
@[simp] theorem State.dlSetDelay_cfg (L : F32) : (s.dlSetDelay L).cfg = s.cfg := rfl
@[simp] theorem State.dlSetDelay_spec (L : F32) : (s.dlSetDelay L).spec = s.spec := rfl
@[simp] theorem State.dlSetDelay_par (L : F32) : (s.dlSetDelay L).par = s.par := rfl
@[simp] theorem State.dlSetDelay_osc (L : F32) : (s.dlSetDelay L).osc = s.osc := rfl
@[simp] theorem State.dlSetDelay_dl (L : F32) : (s.dlSetDelay L).dl = { s.dl with len := delayClamp s.dl.capacity.toNat L } := rfl
@[simp] theorem State.dlSetDelay_wt (L : F32) : (s.dlSetDelay L).wt = s.wt := rfl
@[simp] theorem State.dlSetDelay_buf (L : F32) : (s.dlSetDelay L).buf = s.buf := rfl
@[simp] theorem State.dlSetDelay_seq (L : F32) : (s.dlSetDelay L).seq = s.seq := rfl
@[simp] theorem State.dlSetDelay_host (L : F32) : (s.dlSetDelay L).host = s.host := rfl
@[simp] theorem State.dlSetDelay_ctrl (L : F32) : (s.dlSetDelay L).ctrl = s.ctrl := rfl
@[simp] theorem State.dlSetDelay_schedule (L : F32) : (s.dlSetDelay L).schedule = s.schedule := rfl
@[simp] theorem State.dlSetDelay_tick (L : F32) : (s.dlSetDelay L).tick = s.tick := rfl
@[simp] theorem State.dlSetDelay_waited (L : F32) : (s.dlSetDelay L).waited = s.waited := rfl

@[simp] theorem State.dlPush_params (c : Nat) (v : F32) : (s.dlPush c v).params = s.params := rfl
@[simp] theorem State.dlPush_status (c : Nat) (v : F32) : (s.dlPush c v).status = s.status := rfl
@[simp] theorem State.dlPush_hostArg (c : Nat) (v : F32) : (s.dlPush c v).hostArg = s.hostArg := rfl
@[simp] theorem State.dlPush_ctrlArg (c : Nat) (v : F32) : (s.dlPush c v).ctrlArg = s.ctrlArg := rfl
@[simp] theorem State.dlPush_cfg (c : Nat) (v : F32) : (s.dlPush c v).cfg = s.cfg := rfl
@[simp] theorem State.dlPush_spec (c : Nat) (v : F32) : (s.dlPush c v).spec = s.spec := rfl
@[simp] theorem State.dlPush_par (c : Nat) (v : F32) : (s.dlPush c v).par = s.par := rfl
@[simp] theorem State.dlPush_osc (c : Nat) (v : F32) : (s.dlPush c v).osc = s.osc := rfl
@[simp] theorem State.dlPush_dl (c : Nat) (v : F32) : (s.dlPush c v).dl = { s.dl with ram := DelayRam.write s.dl.ram (s.delayIndex c (s.head c)) v, heads := s.dl.heads.set c ((s.head c + 1) % s.delayM) } := rfl
@[simp] theorem State.dlPush_wt (c : Nat) (v : F32) : (s.dlPush c v).wt = s.wt := rfl
@[simp] theorem State.dlPush_buf (c : Nat) (v : F32) : (s.dlPush c v).buf = s.buf := rfl
@[simp] theorem State.dlPush_seq (c : Nat) (v : F32) : (s.dlPush c v).seq = s.seq := rfl
@[simp] theorem State.dlPush_host (c : Nat) (v : F32) : (s.dlPush c v).host = s.host := rfl
@[simp] theorem State.dlPush_ctrl (c : Nat) (v : F32) : (s.dlPush c v).ctrl = s.ctrl := rfl
@[simp] theorem State.dlPush_schedule (c : Nat) (v : F32) : (s.dlPush c v).schedule = s.schedule := rfl
@[simp] theorem State.dlPush_tick (c : Nat) (v : F32) : (s.dlPush c v).tick = s.tick := rfl
@[simp] theorem State.dlPush_waited (c : Nat) (v : F32) : (s.dlPush c v).waited = s.waited := rfl

@[simp] theorem State.setSpec_params (cap : Nat) : (s.setSpec cap).params = s.params := rfl
@[simp] theorem State.setSpec_status (cap : Nat) : (s.setSpec cap).status = s.status := rfl
@[simp] theorem State.setSpec_hostArg (cap : Nat) : (s.setSpec cap).hostArg = s.hostArg := rfl
@[simp] theorem State.setSpec_ctrlArg (cap : Nat) : (s.setSpec cap).ctrlArg = s.ctrlArg := rfl
@[simp] theorem State.setSpec_cfg (cap : Nat) : (s.setSpec cap).cfg = s.cfg := rfl
@[simp] theorem State.setSpec_spec (cap : Nat) : (s.setSpec cap).spec = { sampleRate := s.cfg.sampleRate, blockSize := s.cfg.blockSize, channels := s.cfg.channels } := rfl
@[simp] theorem State.setSpec_par (cap : Nat) : (s.setSpec cap).par = s.par := rfl
@[simp] theorem State.setSpec_osc (cap : Nat) : (s.setSpec cap).osc = s.osc := rfl
@[simp] theorem State.setSpec_dl (cap : Nat) : (s.setSpec cap).dl = { s.dl with capacity := BitVec.ofNat 32 cap } := rfl
@[simp] theorem State.setSpec_wt (cap : Nat) : (s.setSpec cap).wt = s.wt := rfl
@[simp] theorem State.setSpec_buf (cap : Nat) : (s.setSpec cap).buf = s.buf := rfl
@[simp] theorem State.setSpec_seq (cap : Nat) : (s.setSpec cap).seq = s.seq := rfl
@[simp] theorem State.setSpec_host (cap : Nat) : (s.setSpec cap).host = s.host := rfl
@[simp] theorem State.setSpec_ctrl (cap : Nat) : (s.setSpec cap).ctrl = s.ctrl := rfl
@[simp] theorem State.setSpec_schedule (cap : Nat) : (s.setSpec cap).schedule = s.schedule := rfl
@[simp] theorem State.setSpec_tick (cap : Nat) : (s.setSpec cap).tick = s.tick := rfl
@[simp] theorem State.setSpec_waited (cap : Nat) : (s.setSpec cap).waited = s.waited := rfl

@[simp] theorem State.initSucceeded_params : s.initSucceeded.params = s.params := rfl
@[simp] theorem State.initSucceeded_status : s.initSucceeded.status = { s.status with ready := true, initOk := true, initCode := .ok } := rfl
@[simp] theorem State.initSucceeded_hostArg : s.initSucceeded.hostArg = s.hostArg := rfl
@[simp] theorem State.initSucceeded_ctrlArg : s.initSucceeded.ctrlArg = s.ctrlArg := rfl
@[simp] theorem State.initSucceeded_cfg : s.initSucceeded.cfg = s.cfg := rfl
@[simp] theorem State.initSucceeded_spec : s.initSucceeded.spec = s.spec := rfl
@[simp] theorem State.initSucceeded_par : s.initSucceeded.par = s.par := rfl
@[simp] theorem State.initSucceeded_osc : s.initSucceeded.osc = s.osc := rfl
@[simp] theorem State.initSucceeded_dl : s.initSucceeded.dl = s.dl := rfl
@[simp] theorem State.initSucceeded_wt : s.initSucceeded.wt = s.wt := rfl
@[simp] theorem State.initSucceeded_buf : s.initSucceeded.buf = s.buf := rfl
@[simp] theorem State.initSucceeded_seq : s.initSucceeded.seq = s.seq := rfl
@[simp] theorem State.initSucceeded_host : s.initSucceeded.host = s.host := rfl
@[simp] theorem State.initSucceeded_ctrl : s.initSucceeded.ctrl = s.ctrl := rfl
@[simp] theorem State.initSucceeded_schedule : s.initSucceeded.schedule = s.schedule := rfl
@[simp] theorem State.initSucceeded_tick : s.initSucceeded.tick = s.tick := rfl
@[simp] theorem State.initSucceeded_waited : s.initSucceeded.waited = s.waited := rfl

@[simp] theorem State.zeroSpec_params : s.zeroSpec.params = s.params := rfl
@[simp] theorem State.zeroSpec_status : s.zeroSpec.status = s.status := rfl
@[simp] theorem State.zeroSpec_hostArg : s.zeroSpec.hostArg = s.hostArg := rfl
@[simp] theorem State.zeroSpec_ctrlArg : s.zeroSpec.ctrlArg = s.ctrlArg := rfl
@[simp] theorem State.zeroSpec_cfg : s.zeroSpec.cfg = s.cfg := rfl
@[simp] theorem State.zeroSpec_spec : s.zeroSpec.spec = ProcessSpec.zero := rfl
@[simp] theorem State.zeroSpec_par : s.zeroSpec.par = Parameters.zero := rfl
@[simp] theorem State.zeroSpec_osc : s.zeroSpec.osc = s.osc := rfl
@[simp] theorem State.zeroSpec_dl : s.zeroSpec.dl = { s.dl with capacity := 0 } := rfl
@[simp] theorem State.zeroSpec_wt : s.zeroSpec.wt = s.wt := rfl
@[simp] theorem State.zeroSpec_buf : s.zeroSpec.buf = s.buf := rfl
@[simp] theorem State.zeroSpec_seq : s.zeroSpec.seq = s.seq := rfl
@[simp] theorem State.zeroSpec_host : s.zeroSpec.host = s.host := rfl
@[simp] theorem State.zeroSpec_ctrl : s.zeroSpec.ctrl = s.ctrl := rfl
@[simp] theorem State.zeroSpec_schedule : s.zeroSpec.schedule = s.schedule := rfl
@[simp] theorem State.zeroSpec_tick : s.zeroSpec.tick = s.tick := rfl
@[simp] theorem State.zeroSpec_waited : s.zeroSpec.waited = s.waited := rfl

@[simp] theorem State.startBlock_params (n : Word) : (s.startBlock n).params = s.params := rfl
@[simp] theorem State.startBlock_status (n : Word) : (s.startBlock n).status = { s.status with busy := true } := rfl
@[simp] theorem State.startBlock_hostArg (n : Word) : (s.startBlock n).hostArg = s.hostArg := rfl
@[simp] theorem State.startBlock_ctrlArg (n : Word) : (s.startBlock n).ctrlArg = s.ctrlArg := rfl
@[simp] theorem State.startBlock_cfg (n : Word) : (s.startBlock n).cfg = s.cfg := rfl
@[simp] theorem State.startBlock_spec (n : Word) : (s.startBlock n).spec = s.spec := rfl
@[simp] theorem State.startBlock_par (n : Word) : (s.startBlock n).par = s.par := rfl
@[simp] theorem State.startBlock_osc (n : Word) : (s.startBlock n).osc = s.osc := rfl
@[simp] theorem State.startBlock_dl (n : Word) : (s.startBlock n).dl = s.dl := rfl
@[simp] theorem State.startBlock_wt (n : Word) : (s.startBlock n).wt = s.wt := rfl
@[simp] theorem State.startBlock_buf (n : Word) : (s.startBlock n).buf = s.buf := rfl
@[simp] theorem State.startBlock_seq (n : Word) : (s.startBlock n).seq = { procN := n, procT := 0 } := rfl
@[simp] theorem State.startBlock_host (n : Word) : (s.startBlock n).host = s.host := rfl
@[simp] theorem State.startBlock_ctrl (n : Word) : (s.startBlock n).ctrl = s.ctrl := rfl
@[simp] theorem State.startBlock_schedule (n : Word) : (s.startBlock n).schedule = s.schedule := rfl
@[simp] theorem State.startBlock_tick (n : Word) : (s.startBlock n).tick = s.tick := rfl
@[simp] theorem State.startBlock_waited (n : Word) : (s.startBlock n).waited = s.waited := rfl

@[simp] theorem State.bufWrite_params (k : Nat) (v : Word) : (s.bufWrite k v).params = s.params := by unfold State.bufWrite; split <;> rfl
@[simp] theorem State.bufWrite_status (k : Nat) (v : Word) : (s.bufWrite k v).status = s.status := by unfold State.bufWrite; split <;> rfl
@[simp] theorem State.bufWrite_hostArg (k : Nat) (v : Word) : (s.bufWrite k v).hostArg = s.hostArg := by unfold State.bufWrite; split <;> rfl
@[simp] theorem State.bufWrite_ctrlArg (k : Nat) (v : Word) : (s.bufWrite k v).ctrlArg = s.ctrlArg := by unfold State.bufWrite; split <;> rfl
@[simp] theorem State.bufWrite_cfg (k : Nat) (v : Word) : (s.bufWrite k v).cfg = s.cfg := by unfold State.bufWrite; split <;> rfl
@[simp] theorem State.bufWrite_spec (k : Nat) (v : Word) : (s.bufWrite k v).spec = s.spec := by unfold State.bufWrite; split <;> rfl
@[simp] theorem State.bufWrite_par (k : Nat) (v : Word) : (s.bufWrite k v).par = s.par := by unfold State.bufWrite; split <;> rfl
@[simp] theorem State.bufWrite_osc (k : Nat) (v : Word) : (s.bufWrite k v).osc = s.osc := by unfold State.bufWrite; split <;> rfl
@[simp] theorem State.bufWrite_dl (k : Nat) (v : Word) : (s.bufWrite k v).dl = s.dl := by unfold State.bufWrite; split <;> rfl
@[simp] theorem State.bufWrite_wt (k : Nat) (v : Word) : (s.bufWrite k v).wt = s.wt := by unfold State.bufWrite; split <;> rfl
@[simp] theorem State.bufWrite_seq (k : Nat) (v : Word) : (s.bufWrite k v).seq = s.seq := by unfold State.bufWrite; split <;> rfl
@[simp] theorem State.bufWrite_host (k : Nat) (v : Word) : (s.bufWrite k v).host = s.host := by unfold State.bufWrite; split <;> rfl
@[simp] theorem State.bufWrite_ctrl (k : Nat) (v : Word) : (s.bufWrite k v).ctrl = s.ctrl := by unfold State.bufWrite; split <;> rfl
@[simp] theorem State.bufWrite_schedule (k : Nat) (v : Word) : (s.bufWrite k v).schedule = s.schedule := by unfold State.bufWrite; split <;> rfl
@[simp] theorem State.bufWrite_tick (k : Nat) (v : Word) : (s.bufWrite k v).tick = s.tick := by unfold State.bufWrite; split <;> rfl
@[simp] theorem State.bufWrite_waited (k : Nat) (v : Word) : (s.bufWrite k v).waited = s.waited := by unfold State.bufWrite; split <;> rfl

@[simp] theorem State.wtInitialise_params (n : Int) : (s.wtInitialise n).params = s.params := by unfold State.wtInitialise; split <;> rfl
@[simp] theorem State.wtInitialise_hostArg (n : Int) : (s.wtInitialise n).hostArg = s.hostArg := by unfold State.wtInitialise; split <;> rfl
@[simp] theorem State.wtInitialise_ctrlArg (n : Int) : (s.wtInitialise n).ctrlArg = s.ctrlArg := by unfold State.wtInitialise; split <;> rfl
@[simp] theorem State.wtInitialise_cfg (n : Int) : (s.wtInitialise n).cfg = s.cfg := by unfold State.wtInitialise; split <;> rfl
@[simp] theorem State.wtInitialise_spec (n : Int) : (s.wtInitialise n).spec = s.spec := by unfold State.wtInitialise; split <;> rfl
@[simp] theorem State.wtInitialise_par (n : Int) : (s.wtInitialise n).par = s.par := by unfold State.wtInitialise; split <;> rfl
@[simp] theorem State.wtInitialise_osc (n : Int) : (s.wtInitialise n).osc = s.osc := by unfold State.wtInitialise; split <;> rfl
@[simp] theorem State.wtInitialise_dl (n : Int) : (s.wtInitialise n).dl = s.dl := by unfold State.wtInitialise; split <;> rfl
@[simp] theorem State.wtInitialise_buf (n : Int) : (s.wtInitialise n).buf = s.buf := by unfold State.wtInitialise; split <;> rfl
@[simp] theorem State.wtInitialise_seq (n : Int) : (s.wtInitialise n).seq = s.seq := by unfold State.wtInitialise; split <;> rfl
@[simp] theorem State.wtInitialise_host (n : Int) : (s.wtInitialise n).host = s.host := by unfold State.wtInitialise; split <;> rfl
@[simp] theorem State.wtInitialise_ctrl (n : Int) : (s.wtInitialise n).ctrl = s.ctrl := by unfold State.wtInitialise; split <;> rfl
@[simp] theorem State.wtInitialise_schedule (n : Int) : (s.wtInitialise n).schedule = s.schedule := by unfold State.wtInitialise; split <;> rfl
@[simp] theorem State.wtInitialise_tick (n : Int) : (s.wtInitialise n).tick = s.tick := by unfold State.wtInitialise; split <;> rfl
@[simp] theorem State.wtInitialise_waited (n : Int) : (s.wtInitialise n).waited = s.waited := by unfold State.wtInitialise; split <;> rfl

@[simp] theorem State.setMaster_params (m : Port) (r : Master) : (s.setMaster m r).params = s.params := by cases m <;> rfl
@[simp] theorem State.setMaster_status (m : Port) (r : Master) : (s.setMaster m r).status = s.status := by cases m <;> rfl
@[simp] theorem State.setMaster_hostArg (m : Port) (r : Master) : (s.setMaster m r).hostArg = s.hostArg := by cases m <;> rfl
@[simp] theorem State.setMaster_ctrlArg (m : Port) (r : Master) : (s.setMaster m r).ctrlArg = s.ctrlArg := by cases m <;> rfl
@[simp] theorem State.setMaster_cfg (m : Port) (r : Master) : (s.setMaster m r).cfg = s.cfg := by cases m <;> rfl
@[simp] theorem State.setMaster_spec (m : Port) (r : Master) : (s.setMaster m r).spec = s.spec := by cases m <;> rfl
@[simp] theorem State.setMaster_par (m : Port) (r : Master) : (s.setMaster m r).par = s.par := by cases m <;> rfl
@[simp] theorem State.setMaster_osc (m : Port) (r : Master) : (s.setMaster m r).osc = s.osc := by cases m <;> rfl
@[simp] theorem State.setMaster_dl (m : Port) (r : Master) : (s.setMaster m r).dl = s.dl := by cases m <;> rfl
@[simp] theorem State.setMaster_wt (m : Port) (r : Master) : (s.setMaster m r).wt = s.wt := by cases m <;> rfl
@[simp] theorem State.setMaster_buf (m : Port) (r : Master) : (s.setMaster m r).buf = s.buf := by cases m <;> rfl
@[simp] theorem State.setMaster_seq (m : Port) (r : Master) : (s.setMaster m r).seq = s.seq := by cases m <;> rfl
@[simp] theorem State.setMaster_schedule (m : Port) (r : Master) : (s.setMaster m r).schedule = s.schedule := by cases m <;> rfl
@[simp] theorem State.setMaster_tick (m : Port) (r : Master) : (s.setMaster m r).tick = s.tick := by cases m <;> rfl
@[simp] theorem State.setMaster_waited (m : Port) (r : Master) : (s.setMaster m r).waited = s.waited := by cases m <;> rfl

@[simp] theorem State.answer_params (m : Port) (v : Word) : (s.answer m v).params = s.params := by cases m <;> rfl
@[simp] theorem State.answer_status (m : Port) (v : Word) : (s.answer m v).status = s.status := by cases m <;> rfl
@[simp] theorem State.answer_hostArg (m : Port) (v : Word) : (s.answer m v).hostArg = s.hostArg := by cases m <;> rfl
@[simp] theorem State.answer_ctrlArg (m : Port) (v : Word) : (s.answer m v).ctrlArg = s.ctrlArg := by cases m <;> rfl
@[simp] theorem State.answer_cfg (m : Port) (v : Word) : (s.answer m v).cfg = s.cfg := by cases m <;> rfl
@[simp] theorem State.answer_spec (m : Port) (v : Word) : (s.answer m v).spec = s.spec := by cases m <;> rfl
@[simp] theorem State.answer_par (m : Port) (v : Word) : (s.answer m v).par = s.par := by cases m <;> rfl
@[simp] theorem State.answer_osc (m : Port) (v : Word) : (s.answer m v).osc = s.osc := by cases m <;> rfl
@[simp] theorem State.answer_dl (m : Port) (v : Word) : (s.answer m v).dl = s.dl := by cases m <;> rfl
@[simp] theorem State.answer_wt (m : Port) (v : Word) : (s.answer m v).wt = s.wt := by cases m <;> rfl
@[simp] theorem State.answer_buf (m : Port) (v : Word) : (s.answer m v).buf = s.buf := by cases m <;> rfl
@[simp] theorem State.answer_seq (m : Port) (v : Word) : (s.answer m v).seq = s.seq := by cases m <;> rfl
@[simp] theorem State.answer_schedule (m : Port) (v : Word) : (s.answer m v).schedule = s.schedule := by cases m <;> rfl
@[simp] theorem State.answer_tick (m : Port) (v : Word) : (s.answer m v).tick = s.tick := by cases m <;> rfl
@[simp] theorem State.answer_waited (m : Port) (v : Word) : (s.answer m v).waited = s.waited := by cases m <;> rfl

@[simp] theorem State.setMaster_master (m : Port) (r : Master) : (s.setMaster m r).master m = r := by cases m <;> rfl
@[simp] theorem State.setMaster_host_host (r : Master) : (s.setMaster .host r).host = r := rfl
@[simp] theorem State.setMaster_host_ctrl (r : Master) : (s.setMaster .host r).ctrl = s.ctrl := rfl
@[simp] theorem State.setMaster_ctrl_host (r : Master) : (s.setMaster .ctrl r).host = s.host := rfl
@[simp] theorem State.setMaster_ctrl_ctrl (r : Master) : (s.setMaster .ctrl r).ctrl = r := rfl
@[simp] theorem State.master_host : s.master .host = s.host := rfl
@[simp] theorem State.master_ctrl : s.master .ctrl = s.ctrl := rfl
@[simp] theorem State.argOn_host : s.argOn .host = s.hostArg := rfl
@[simp] theorem State.argOn_ctrl : s.argOn .ctrl = s.ctrlArg := rfl

/-- The reset state is power-on reset in the reference configuration. -/
theorem State.reset_eq : State.reset = State.powerOn Config.rc := rfl

end Sys2Proof.Machine
end

