-- ==== Sys2Proof/Laws/Memory.lean ====
section
/-! SUPPORT. The laws of the three memories: what a read gives after a write or an erasure, and that every operation keeps
the canonical form. -/

namespace Sys2Proof.Machine

variable {w : Nat}

/-! ### Reading after writing -/

@[simp] theorem Cells.read_nil (a : Nat) : Cells.read ([] : List (Nat × BitVec w)) a = none := rfl

/-- A read after a write: the written value there, the old one elsewhere. -/
theorem Cells.read_write (m : List (Nat × BitVec w)) (a b : Nat) (v : BitVec w) :
    Cells.read (Cells.write m a v) b = if a = b then some v else Cells.read m b := by
  induction m with
  | nil => simp [Cells.write, Cells.read]
  | cons c rest ih =>
    obtain ⟨k, u⟩ := c
    simp only [Cells.write]
    split
    · simp [Cells.read]
    · split
      · subst_vars
        simp only [Cells.read]
        split <;> simp_all
      · simp only [Cells.read, ih]
        split <;> simp_all

@[simp] theorem Cells.read_write_same (m : List (Nat × BitVec w)) (a : Nat) (v : BitVec w) :
    Cells.read (Cells.write m a v) a = some v := by simp [Cells.read_write]

theorem Cells.read_write_ne (m : List (Nat × BitVec w)) {a b : Nat} (h : a ≠ b) (v : BitVec w) :
    Cells.read (Cells.write m a v) b = Cells.read m b := by simp [Cells.read_write, h]

/-! ### The canonical form -/

/-- Every address listed lies above `a`. -/
def Cells.above (a : Nat) (m : List (Nat × BitVec w)) : Prop := ∀ c ∈ m, a < c.1

theorem Cells.rising_cons (k : Nat) (v : BitVec w) (m : List (Nat × BitVec w)) :
    Cells.rising ((k, v) :: m) = true ↔ Cells.above k m ∧ Cells.rising m = true := by
  induction m generalizing k v with
  | nil => simp [Cells.rising, Cells.above]
  | cons c rest ih =>
    obtain ⟨j, u⟩ := c
    rw [Cells.rising, Bool.and_eq_true]
    constructor
    · rintro ⟨h1, h2⟩
      refine ⟨?_, h2⟩
      have hkj : k < j := of_decide_eq_true h1
      intro c hc
      rcases List.mem_cons.1 hc with rfl | hc
      · exact hkj
      · exact lt_trans hkj (((ih j u).1 h2).1 c hc)
    · rintro ⟨h1, h2⟩
      exact ⟨decide_eq_true (h1 (j, u) (List.mem_cons_self ..)), h2⟩

theorem Cells.read_eq_none_of_above {a : Nat} {m : List (Nat × BitVec w)} (h : Cells.above a m) :
    Cells.read m a = none := by
  induction m with
  | nil => rfl
  | cons c rest ih =>
    obtain ⟨k, u⟩ := c
    have hk : a < k := h (k, u) (List.mem_cons_self ..)
    rw [Cells.read, if_neg (by omega)]
    exact ih fun d hd => h d (List.mem_cons_of_mem _ hd)

theorem Cells.mem_write {m : List (Nat × BitVec w)} {a : Nat} {v : BitVec w} {c : Nat × BitVec w}
    (h : c ∈ Cells.write m a v) : c = (a, v) ∨ c ∈ m := by
  induction m with
  | nil => simpa [Cells.write] using h
  | cons d rest ih =>
    obtain ⟨k, u⟩ := d
    rw [Cells.write] at h
    split at h
    · simpa using h
    · split at h
      · rcases List.mem_cons.1 h with h | h
        · exact .inl h
        · exact .inr (List.mem_cons_of_mem _ h)
      · rcases List.mem_cons.1 h with h | h
        · exact .inr (h ▸ List.mem_cons_self ..)
        · exact (ih h).imp id (List.mem_cons_of_mem _)

theorem Cells.mem_erase {m : List (Nat × BitVec w)} {a : Nat} {c : Nat × BitVec w}
    (h : c ∈ Cells.erase m a) : c ∈ m := by
  induction m with
  | nil => simp [Cells.erase] at h
  | cons d rest ih =>
    obtain ⟨k, u⟩ := d
    rw [Cells.erase] at h
    split at h
    · exact List.mem_cons_of_mem _ h
    · rcases List.mem_cons.1 h with h | h
      · exact h ▸ List.mem_cons_self ..
      · exact List.mem_cons_of_mem _ (ih h)

/-- A write keeps the addresses strictly rising. -/
theorem Cells.rising_write {m : List (Nat × BitVec w)} (h : Cells.rising m = true) (a : Nat) (v : BitVec w) :
    Cells.rising (Cells.write m a v) = true := by
  induction m with
  | nil => rfl
  | cons c rest ih =>
    obtain ⟨k, u⟩ := c
    obtain ⟨h1, h2⟩ := (Cells.rising_cons ..).1 h
    rw [Cells.write]
    split
    · next hlt =>
      refine (Cells.rising_cons ..).2 ⟨?_, h⟩
      intro c hc
      rcases List.mem_cons.1 hc with rfl | hc
      · exact hlt
      · exact lt_trans hlt (h1 c hc)
    · split
      · next he => exact (Cells.rising_cons ..).2 ⟨he ▸ h1, h2⟩
      · next hlt he =>
        refine (Cells.rising_cons ..).2 ⟨?_, ih h2⟩
        intro c hc
        rcases Cells.mem_write hc with rfl | hc
        · show k < a
          omega
        · exact h1 c hc

/-- An erasure keeps the addresses strictly rising. -/
theorem Cells.rising_erase {m : List (Nat × BitVec w)} (h : Cells.rising m = true) (a : Nat) :
    Cells.rising (Cells.erase m a) = true := by
  induction m with
  | nil => rfl
  | cons c rest ih =>
    obtain ⟨k, u⟩ := c
    obtain ⟨h1, h2⟩ := (Cells.rising_cons ..).1 h
    rw [Cells.erase]
    split
    · exact h2
    · exact (Cells.rising_cons ..).2 ⟨fun c hc => h1 c (Cells.mem_erase hc), ih h2⟩

/-- A read after an erasure in canonical form: nothing there, the old value elsewhere. -/
theorem Cells.read_erase {m : List (Nat × BitVec w)} (h : Cells.rising m = true) (a b : Nat) :
    Cells.read (Cells.erase m a) b = if a = b then none else Cells.read m b := by
  induction m with
  | nil => simp [Cells.erase]
  | cons c rest ih =>
    obtain ⟨k, u⟩ := c
    obtain ⟨h1, h2⟩ := (Cells.rising_cons ..).1 h
    rw [Cells.erase]
    split
    · next he =>
      subst he
      split
      · next hb => subst hb; exact Cells.read_eq_none_of_above h1
      · next hb => rw [Cells.read, if_neg hb]
    · next he =>
      rw [Cells.read, Cells.read, ih h2]
      split
      · next hb => rw [if_neg (by omega)]
      · rfl

/-! ### The delay RAM -/

/-- A write keeps the delay RAM's canonical form. -/
theorem DelayRam.wf_write {m : List (Nat × Word)} (h : DelayRam.wf m) (i : Nat) (v : Word) :
    DelayRam.wf (DelayRam.write m i v) := by
  obtain ⟨h1, h2⟩ := h
  rw [List.all_eq_true] at h2
  unfold DelayRam.write
  split
  · exact ⟨Cells.rising_erase h1 i, List.all_eq_true.2 fun c hc => h2 c (Cells.mem_erase hc)⟩
  · next hv =>
    refine ⟨Cells.rising_write h1 i v, List.all_eq_true.2 fun c hc => ?_⟩
    rcases Cells.mem_write hc with rfl | hc
    · simpa using hv
    · exact h2 c hc

/-- A read of the delay RAM after a write: the written word there (a word that is not listed reads +0.0), the old one
elsewhere. -/
theorem DelayRam.read_write {m : List (Nat × Word)} (h : DelayRam.wf m) (i j : Nat) (v : Word) :
    (Cells.read (DelayRam.write m i v) j).getD 0 = if i = j then v else (Cells.read m j).getD 0 := by
  unfold DelayRam.write
  split
  · next hv =>
    rw [Cells.read_erase h.1]
    split <;> simp [hv]
  · rw [Cells.read_write]
    split <;> simp

/-- Every index a write lists is the written one or was listed before. -/
theorem DelayRam.mem_write {m : List (Nat × Word)} {i : Nat} {v : Word} {c : Nat × Word}
    (h : c ∈ DelayRam.write m i v) : c.1 = i ∨ c ∈ m := by
  unfold DelayRam.write at h
  split at h
  · exact .inr (Cells.mem_erase h)
  · exact (Cells.mem_write h).imp (congrArg Prod.fst) id

/-! ### The sample buffer -/

theorem Memory.wf_writeWord {m : List Host.Cell} (h : Memory.wf m) (a : Nat) (v : Word) :
    Memory.wf (Memory.writeWord m a v) :=
  Cells.rising_write (Cells.rising_write (Cells.rising_write (Cells.rising_write h _ _) _ _) _ _) _ _

/-- A write to BUF keeps the memory's canonical form. -/
theorem State.wf_bufWrite {s : State} (h : Memory.wf s.buf) (k : Nat) (v : Word) : Memory.wf (s.bufWrite k v).buf := by
  unfold State.bufWrite
  split
  · exact Memory.wf_writeWord h _ _
  · exact h

/-- A byte after a word is written at `a`: the word's byte of its place in the four, else the old one. -/
theorem Memory.read_writeWord (m : List Host.Cell) (a b : Nat) (v : Word) :
    Cells.read (Memory.writeWord m a v) b =
      if b = a then some (v.extractLsb' 0 8) else if b = a + 1 then some (v.extractLsb' 8 8)
      else if b = a + 2 then some (v.extractLsb' 16 8) else if b = a + 3 then some (v.extractLsb' 24 8)
      else Cells.read m b := by
  simp only [Memory.writeWord, Cells.read_write]
  split_ifs <;> first | rfl | omega

/-- A byte outside the four of `BUF[k]` is unchanged by a write to it. -/
theorem State.bufByte_bufWrite_outside (s : State) (k : Nat) (v : Word) {a : Nat}
    (h : a < bufAddr s.params k ∨ bufAddr s.params k + 4 ≤ a) : (s.bufWrite k v).bufByte a = s.bufByte a := by
  unfold State.bufWrite State.bufByte
  split
  · simp only [Memory.read_writeWord]
    rw [if_neg (by omega), if_neg (by omega), if_neg (by omega), if_neg (by omega)]
  · rfl

/-- The four bytes of a word, put together again. -/
theorem word_of_bytes (v : Word) :
    v.extractLsb' 24 8 ++ v.extractLsb' 16 8 ++ v.extractLsb' 8 8 ++ v.extractLsb' 0 8 = v := by
  apply BitVec.eq_of_getLsbD_eq
  intro i hi
  simp only [BitVec.getLsbD_append, BitVec.getLsbD_extractLsb']
  interval_cases i <;> rfl

/-- A read of `BUF[k]` after a write to `BUF[k]` gives the word. -/
theorem State.bufRead_bufWrite_same (s : State) {k : Nat} (hk : k < s.params.bufRamWords) (v : Word) :
    (s.bufWrite k v).bufRead k = v := by
  unfold State.bufRead
  rw [if_pos (by simpa using hk)]
  simp only [State.bufWrite, if_pos hk, State.bufByte, Memory.read_writeWord]
  simp [word_of_bytes]

/-- A read of `BUF[k]` after a write to another word gives what it gave before. -/
theorem State.bufRead_bufWrite_ne (s : State) {k j : Nat} (h : k ≠ j) (v : Word) :
    (s.bufWrite k v).bufRead j = s.bufRead j := by
  have hp : (s.bufWrite k v).params = s.params := by simp
  have hb : ∀ i < 4, (s.bufWrite k v).bufByte (bufAddr s.params j + i) = s.bufByte (bufAddr s.params j + i) := by
    intro i hi
    apply State.bufByte_bufWrite_outside
    unfold bufAddr
    omega
  unfold State.bufRead
  simp only [hp]
  split
  · simp only [hb 3 (by omega), hb 2 (by omega), hb 1 (by omega)]
    have := hb 0 (by omega)
    simp only [Nat.add_zero] at this
    rw [this]
  · rfl

/-- A table's list has rising indices. -/
theorem rising_wtTable (p : Params) (N : Nat) : Cells.rising (wtTable p N) = true := by
  have key : ∀ (f : Nat → Word) (n b : Nat),
      Cells.rising ((List.range' b n).map fun k => (k, f k)) = true := by
    intro f n
    induction n with
    | zero => intro b; rfl
    | succ n ih =>
      intro b
      rw [List.range'_succ, List.map_cons]
      refine (Cells.rising_cons ..).2 ⟨?_, ih _⟩
      intro c hc
      obtain ⟨k, hk, rfl⟩ := List.mem_map.1 hc
      have := List.mem_range'_1.1 hk
      simp only
      omega
  rw [wtTable, List.range_eq_range']
  exact key _ _ _

/-- Entry k of a table's list. -/
theorem read_wtTable (p : Params) {N k : Nat} (h : k < N) :
    Cells.read (wtTable p N) k = some (waveEntry p.wave N k) := by
  have key : ∀ (f : Nat → Word) (n b : Nat), b ≤ k → k < b + n →
      Cells.read ((List.range' b n).map fun j => (j, f j)) k = some (f k) := by
    intro f n
    induction n with
    | zero => intro b _ _; omega
    | succ n ih =>
      intro b h1 h2
      rw [List.range'_succ, List.map_cons, Cells.read]
      split
      · next he => rw [he]
      · exact ih _ (by omega) (by omega)
  rw [wtTable, List.range_eq_range']
  exact key _ _ _ (by omega) (by omega)

end Sys2Proof.Machine
end

