-- ==== Sys2Proof/Laws/Step.lean ====
section
/-! SUPPORT. What one step can do: the chosen agent's step, a bus access, a submitted command, a frame, each said once. -/

namespace Sys2Proof.Machine

/-! ### Which agent moves -/

theorem State.scheduled_enabled {s : State} {l rest : List Agent} {a : Agent}
    (h : s.scheduled l = some (a, rest)) : s.enabled a = true := by
  induction l with
  | nil => simp [State.scheduled] at h
  | cons b l ih =>
    rw [State.scheduled] at h
    split at h
    · next hb =>
      simp only [Option.some.injEq, Prod.mk.injEq] at h
      exact h.1 ▸ hb
    · exact ih h

theorem State.mem_enabledAgents {s : State} {a : Agent} : a ∈ s.enabledAgents ↔ s.enabled a = true := by
  cases a <;> simp [State.enabledAgents]

theorem State.arbitrate_enabled {s : State} {a : Agent} (h : s.enabled a = true) :
    s.enabled (s.arbitrate a) = true := by
  unfold State.arbitrate
  split
  · next hb => exact hb.1
  · split
    · assumption
    · exact h

/-- The agent that moves has a step, and choosing it changes only the schedule and the arbiter's counters. -/
theorem State.choose_some {s u : State} {a : Agent} (h : s.choose = some (a, u)) :
    s.enabled a = true ∧ u = { s with schedule := u.schedule, tick := u.tick, waited := u.waited } := by
  unfold State.choose at h
  split at h
  · next hs =>
    simp only [Option.some.injEq, Prod.mk.injEq] at h
    obtain ⟨rfl, rfl⟩ := h
    exact ⟨State.scheduled_enabled hs, rfl⟩
  · split at h
    · simp at h
    · next he =>
      simp only [Option.some.injEq, Prod.mk.injEq] at h
      obtain ⟨rfl, rfl⟩ := h
      exact ⟨State.mem_enabledAgents.1 (by simp [he]), rfl⟩
    · next b _ _ he =>
      simp only [Option.some.injEq, Prod.mk.injEq] at h
      obtain ⟨rfl, rfl⟩ := h
      exact ⟨State.arbitrate_enabled (State.mem_enabledAgents.1 (by simp [he])), rfl⟩

/-- No agent is chosen only where none has a step. -/
theorem State.choose_none {s : State} (h : s.choose = none) (a : Agent) : s.enabled a = false := by
  unfold State.choose at h
  split at h
  · simp at h
  · split at h
    · next he =>
      by_contra hc
      have := State.mem_enabledAgents (s := s) (a := a)
      rw [he] at this
      simp_all
    · simp at h
    · simp at h

/-- A step is the idle step of a block no agent of which has a step, or the chosen agent's. -/
theorem step_cases (s : State) :
    (s.choose = none ∧ step s = .next s) ∨ ∃ a u, s.choose = some (a, u) ∧ step s = u.agentStep a := by
  unfold step stepAgents
  cases h : s.choose with
  | none => exact .inl ⟨rfl, rfl⟩
  | some p => exact .inr ⟨p.1, p.2, rfl, rfl⟩

/-- Where the schedule's first agent has a step, it moves. -/
theorem step_of_schedule {s : State} {a : Agent} {rest : List Agent} (h : s.schedule = a :: rest)
    (he : s.enabled a = true) : step s = State.agentStep { s with schedule := rest } a := by
  simp [step, stepAgents, State.choose, h, State.scheduled, he]

/-! ### The bus -/

/-- What a bus access can do when it answers a next state. -/
theorem State.busAccess_next {s t : State} {m : Port} {a : BusAccess} (h : s.busAccess m a = .next t) :
    inWindow s.params a.addr = true ∧
    ((∃ addr width r, a = .read addr width ∧ a.target s.params = some r ∧ t = s.answer m (s.readReg r)) ∨
     (∃ addr width v r, a = .write addr width v ∧ a.target s.params = some r ∧ s.writeReg r v = .next t) ∨
     (∃ addr width, a = .read addr width ∧ a.target s.params = none ∧ t = (s.flag .errBus).answer m 0) ∨
     (∃ addr width v, a = .write addr width v ∧ a.target s.params = none ∧ t = s.flag .errBus)) := by
  unfold State.busAccess at h
  split at h
  · next hw =>
    refine ⟨hw, ?_⟩
    cases a with
    | read addr width =>
      cases ht : BusAccess.target s.params (.read addr width) with
      | none =>
        simp only [ht, Host.Outcome.next.injEq] at h
        exact .inr (.inr (.inl ⟨addr, width, rfl, rfl, h.symm⟩))
      | some r =>
        simp only [ht, Host.Outcome.next.injEq] at h
        exact .inl ⟨addr, width, r, rfl, rfl, h.symm⟩
    | write addr width v =>
      cases ht : BusAccess.target s.params (.write addr width v) with
      | none =>
        simp only [ht, Host.Outcome.next.injEq] at h
        exact .inr (.inr (.inr ⟨addr, width, v, rfl, rfl, h.symm⟩))
      | some r =>
        simp only [ht] at h
        exact .inr (.inl ⟨addr, width, v, r, rfl, rfl, h⟩)
  · cases h

/-- What a register write can do: nothing, store an ARG register or a BUF word, or submit a command. -/
theorem State.writeReg_cases (s : State) (r : Reg) (v : Word) :
    s.writeReg r v = .next s ∨ s.writeReg r v = .next { s with hostArg := v } ∨
    s.writeReg r v = .next { s with ctrlArg := v } ∨ (∃ k, r = .buf k ∧ s.writeReg r v = .next (s.bufWrite k v)) ∨
    (∃ p, r = (match p with | .host => .hostCmd | .ctrl => .ctrlCmd) ∧ s.writeReg r v = s.submit p v) := by
  cases r <;> simp [State.writeReg]
  · exact .inr (.inr (.inr ⟨.host, rfl, rfl⟩))
  · exact .inr (.inr (.inr ⟨.ctrl, rfl, rfl⟩))

/-- What submitting a word can do: run the decoded command, or flag ERR_ILLEGAL. -/
theorem State.submit_cases (s : State) (p : Port) (cmdw : Word) :
    (∃ i, decode p cmdw (s.argOn p) = .ok i ∧ s.submit p cmdw = exec i s) ∨
    (∃ e, decode p cmdw (s.argOn p) = .error e ∧ s.submit p cmdw = .next (s.flag .errIllegal)) := by
  unfold State.submit
  cases h : decode p cmdw (s.argOn p) with
  | ok i => exact .inl ⟨i, rfl, rfl⟩
  | error e => exact .inr ⟨e, rfl, rfl⟩

/-- What a master's step does, by its first pending operation. -/
theorem State.masterStep_access {s : State} {m : Port} {a : BusAccess} {rest : List MasterOp}
    (h : (s.master m).pending = .access a :: rest) :
    s.masterStep m = (s.setMaster m { s.master m with pending := rest }).busAccess m a := by
  simp [State.masterStep, h]

/-! ### A frame -/

/-- Before the channels a frame changes the oscillator's phase and the delay length only. -/
theorem State.frameHead_eq (s : State) :
    s.frameHead = { s with osc := s.frameHead.osc, dl := s.frameHead.dl } := rfl

/-- A channel's part of a frame changes the delay line and BUF only. -/
theorem State.channelStep_eq (t : Nat) (s : State) (c : Nat) :
    s.channelStep t c = { s with dl := (s.channelStep t c).dl, buf := (s.channelStep t c).buf } := by
  unfold State.channelStep State.bufWrite State.dlPush
  simp only
  split <;> rfl

/-- Any number of channels' parts of a frame change the delay line and BUF only. -/
theorem State.channels_eq (t : Nat) (s : State) (l : List Nat) :
    l.foldl (State.channelStep t) s =
      { s with dl := (l.foldl (State.channelStep t) s).dl, buf := (l.foldl (State.channelStep t) s).buf } := by
  induction l generalizing s with
  | nil => rfl
  | cons c l ih =>
    rw [List.foldl_cons, ih (s.channelStep t c), State.channelStep_eq]

/-- A frame changes the oscillator's phase, the delay line and BUF only. -/
theorem State.frame_eq (s : State) (t : Nat) :
    s.frame t = { s with osc := s.frameHead.osc, dl := (s.frame t).dl, buf := (s.frame t).buf } := by
  unfold State.frame
  rw [State.channels_eq]
  rfl

/-- A frame step changes the oscillator's phase, the delay line, BUF, PROC_T and BUSY only. -/
theorem State.frameStep_eq (s : State) :
    s.frameStep = { s with
      osc := s.frameHead.osc
      dl := s.frameStep.dl
      buf := s.frameStep.buf
      seq := { s.seq with procT := s.seq.procT + 1 }
      status := { s.status with busy := if s.seq.procT + 1 = s.seq.procN then false else s.status.busy } } := by
  unfold State.frameStep
  rw [State.frame_eq]

end Sys2Proof.Machine
end

