-- ==== Sys2Proof/Laws/Bus.lean ====
section
/-! SUPPORT. What the address map and an access's target can be, said once. -/

namespace Sys2Proof.Machine

/-- A listed register is at an offset below 0x094. -/
theorem regTable_lookup_lt {off : Nat} {r : Reg} (h : regTable.lookup off = some r) : off < 0x094 := by
  simp only [regTable, List.cons_append, List.nil_append, List.lookup] at h
  repeat' split at h
  all_goals first | (simp only [beq_iff_eq] at *; omega) | cases h

/-- No register of the register window is a word of BUF. -/
theorem regTable_lookup_ne_buf {off k : Nat} (h : regTable.lookup off = some (.buf k)) : False := by
  simp only [regTable, List.cons_append, List.nil_append, List.lookup] at h
  repeat' split at h
  all_goals simp at h

/-- HOST_ARG is at offset 0x008 alone. -/
theorem regTable_lookup_hostArg {off : Nat} (h : regTable.lookup off = some .hostArg) : off = 0x008 := by
  simp only [regTable, List.cons_append, List.nil_append, List.lookup] at h
  repeat' split at h
  all_goals simp_all

/-- HOST_CMD is at offset 0x00C alone. -/
theorem regTable_lookup_hostCmd {off : Nat} (h : regTable.lookup off = some .hostCmd) : off = 0x00C := by
  simp only [regTable, List.cons_append, List.nil_append, List.lookup] at h
  repeat' split at h
  all_goals simp_all

/-- The mapped words: those of the register window below 0x1000, BUF's from there on. -/
theorem regAt_eq_some {p : Params} {off : Nat} {r : Reg} :
    regAt p off = some r ↔
      (off < 0x1000 ∧ regTable.lookup off = some r) ∨
      (0x1000 ≤ off ∧ (off - 0x1000) / 4 < p.bufRamWords ∧ r = .buf ((off - 0x1000) / 4)) := by
  unfold regAt
  split
  · split
    · simp only [Option.some.injEq]
      constructor
      · rintro rfl
        exact .inr ⟨by assumption, by assumption, rfl⟩
      · rintro (⟨h, -⟩ | ⟨-, -, rfl⟩)
        · omega
        · rfl
    · simp only [reduceCtorEq, false_iff]
      rintro (⟨h, -⟩ | ⟨-, h, -⟩)
      · omega
      · contradiction
  · constructor
    · exact fun h => .inl ⟨by omega, h⟩
    · rintro (⟨-, h⟩ | ⟨h, -⟩)
      · exact h
      · omega

/-- The word an access reaches. -/
theorem BusAccess.target_eq_some {p : Params} {a : BusAccess} {r : Reg} :
    a.target p = some r ↔
      (p.base ≤ a.addr ∧ a.addr < p.base + 0x800000) ∧ a.width = 32 ∧ a.addr % 4 = 0 ∧
        regAt p (a.addr - p.base) = some r := by
  unfold BusAccess.target
  split
  · next h => simp_all [inWindow]
  · next h =>
    simp only [reduceCtorEq, false_iff]
    rintro ⟨h1, h2, h3, -⟩
    exact h ⟨by simpa [inWindow] using h1, h2, h3⟩

/-- An access waits for the block exactly where it writes HOST_ARG or HOST_CMD or reaches BUF (R80). -/
theorem BusAccess.waitsForBlock_iff {p : Params} {a : BusAccess} :
    a.waitsForBlock p = true ↔
      ((∃ addr width v, a = .write addr width v ∧ (a.target p = some .hostArg ∨ a.target p = some .hostCmd)) ∨
        ∃ k, a.target p = some (.buf k)) := by
  unfold BusAccess.waitsForBlock
  cases a with
  | read addr width =>
    cases h : BusAccess.target p (.read addr width) with
    | none => simp
    | some r => cases r <;> simp
  | write addr width v =>
    cases h : BusAccess.target p (.write addr width v) with
    | none => simp
    | some r => cases r <;> simp

end Sys2Proof.Machine
end

