-- ==== Sys2Proof/Laws/Float.lean ====
section
/-! SUPPORT. The laws of the binary32 words and of the one rounding function: a word is its sign and its magnitude code,
codes are ordered as their values, and `roundMag` picks between the two codes next to the exact value. -/

namespace Sys2Proof.Machine

/-! ### A word is its sign and its magnitude code -/

theorem fMag_lt (x : F32) : fMag x < 2 ^ 31 := Nat.mod_lt _ (by norm_num)

theorem toNat_eq_sign_mag (x : F32) : x.toNat = (if fSign x then 2 ^ 31 else 0) + fMag x := by
  have h := x.isLt
  unfold fSign fMag
  rw [BitVec.msb_eq_decide]
  by_cases hx : 2 ^ 31 ≤ x.toNat
  · rw [if_pos (by simpa using hx)]
    omega
  · rw [if_neg (by simpa using hx)]
    omega

@[simp] theorem fMag_pack (sign : Bool) {m : Nat} (h : m < 2 ^ 31) : fMag (pack sign m) = m := by
  unfold fMag pack
  rw [BitVec.toNat_ofNat]
  split <;> omega

@[simp] theorem fSign_pack (sign : Bool) {m : Nat} (h : m < 2 ^ 31) : fSign (pack sign m) = sign := by
  unfold fSign pack
  rw [BitVec.msb_eq_decide, BitVec.toNat_ofNat]
  cases sign <;> simp <;> omega

theorem pack_sign_mag (x : F32) : pack (fSign x) (fMag x) = x := by
  apply BitVec.eq_of_toNat_eq
  have h := toNat_eq_sign_mag x
  have hx := x.isLt
  unfold pack
  rw [BitVec.toNat_ofNat, ← h, Nat.mod_eq_of_lt hx]

theorem eq_of_sign_mag {x y : F32} (h1 : fSign x = fSign y) (h2 : fMag x = fMag y) : x = y := by
  rw [← pack_sign_mag x, ← pack_sign_mag y, h1, h2]

theorem infMag_lt : infMag < 2 ^ 31 := by decide

theorem isFinite_iff (x : F32) : isFinite x = true ↔ fMag x < infMag := by simp [isFinite]

theorem isNaN_iff (x : F32) : isNaN x = true ↔ infMag < fMag x := by simp [isNaN]

theorem isInf_iff (x : F32) : isInf x = true ↔ fMag x = infMag := by simp [isInf]

theorem isZero_iff (x : F32) : isZero x = true ↔ fMag x = 0 := by simp [isZero]

theorem isNaN_eq_false_of_finite {x : F32} (h : isFinite x = true) : isNaN x = false := by
  rw [isFinite_iff] at h
  simp only [isNaN, decide_eq_false_iff_not]
  omega

theorem isInf_eq_false_of_finite {x : F32} (h : isFinite x = true) : isInf x = false := by
  rw [isFinite_iff] at h
  simp only [isInf, decide_eq_false_iff_not]
  omega

/-! ### The value of a magnitude code -/

@[simp] theorem scaledMag_zero : scaledMag 0 = 0 := by decide

/-- The code `e x 2^23 + m` of a 24-bit quotient `m` in the unit `2^e` (a full quotient unless e = 0) has the value
`m x 2^e`. -/
theorem scaledMag_code {e m : Nat} (hm : m ≤ 2 ^ 24) (he : e = 0 ∨ 2 ^ 23 ≤ m) :
    scaledMag (e * 2 ^ 23 + m) = m * 2 ^ e := by
  unfold scaledMag
  split
  · next h =>
    have : e = 0 := by omega
    subst this
    simp
  · next h =>
    by_cases htop : m = 2 ^ 24
    · subst htop
      have h1 : (e * 2 ^ 23 + 2 ^ 24) % 2 ^ 23 = 0 := by omega
      have h2 : (e * 2 ^ 23 + 2 ^ 24) / 2 ^ 23 - 1 = e + 1 := by omega
      rw [h1, h2, pow_succ 2 e]
      ring
    · have h1 : (e * 2 ^ 23 + m) % 2 ^ 23 + 2 ^ 23 = m := by omega
      have h2 : (e * 2 ^ 23 + m) / 2 ^ 23 - 1 = e := by omega
      rw [h1, h2]

/-- The next code has the next value in the same unit. -/
theorem scaledMag_lt_succ (k : Nat) : scaledMag k < scaledMag (k + 1) := by
  by_cases h : k < 2 ^ 23
  · have h0 : scaledMag k = k := if_pos h
    have h1 := scaledMag_code (e := 0) (m := k + 1) (by omega) (.inl rfl)
    simp only [Nat.zero_mul, Nat.zero_add, pow_zero, Nat.mul_one] at h1
    omega
  · obtain ⟨e, m, hk, hm1, hm2⟩ : ∃ e m, k = e * 2 ^ 23 + m ∧ 2 ^ 23 ≤ m ∧ m < 2 ^ 24 :=
      ⟨k / 2 ^ 23 - 1, k % 2 ^ 23 + 2 ^ 23, by omega, by omega, by omega⟩
    rw [hk, scaledMag_code (by omega) (.inr hm1), Nat.add_assoc, scaledMag_code (by omega) (.inr (by omega))]
    exact Nat.mul_lt_mul_of_pos_right (by omega) (Nat.two_pow_pos e)

theorem scaledMag_strictMono : StrictMono scaledMag := strictMono_nat_of_lt_succ scaledMag_lt_succ

theorem scaledMag_lt_iff {a b : Nat} : scaledMag a < scaledMag b ↔ a < b := scaledMag_strictMono.lt_iff_lt

theorem scaledMag_le_iff {a b : Nat} : scaledMag a ≤ scaledMag b ↔ a ≤ b := scaledMag_strictMono.le_iff_le

theorem scaledMag_inj {a b : Nat} : scaledMag a = scaledMag b ↔ a = b := scaledMag_strictMono.injective.eq_iff

/-- Where the infinities' code stands in the order: 2^128, in units of 2^-149. -/
theorem scaledMag_infMag : scaledMag infMag = 2 ^ 23 * 2 ^ 254 := by
  norm_num [infMag, scaledMag]

/-! ### Rounding -/

theorem roundMag_le_infMag (n d : Nat) : roundMag n d ≤ infMag := Nat.min_le_right ..

theorem roundMag_lt (n d : Nat) : roundMag n d < 2 ^ 31 := lt_of_le_of_lt (roundMag_le_infMag n d) infMag_lt

/-- What rounding does: `k` is the last code not above the exact value, the result `k` or `k + 1`, whichever is nearer,
the even one of two equally near, and never beyond the infinities' code. -/
theorem roundMag_spec (n : Nat) {d : Nat} (hd : 0 < d) :
    ∃ k, scaledMag k * d ≤ n ∧ n < scaledMag (k + 1) * d ∧
      roundMag n d =
        min (if (scaledMag k + scaledMag (k + 1)) * d < 2 * n ∨
              ((scaledMag k + scaledMag (k + 1)) * d = 2 * n ∧ k % 2 = 1) then k + 1 else k) infMag := by
  set e := Nat.log2 (n / d) - 23 with he
  set u := d * 2 ^ e with hu
  have hu0 : 0 < u := Nat.mul_pos hd (Nat.two_pow_pos e)
  set m := n / u with hm
  set r := n % u with hr
  have hn : n = u * m + r := (Nat.div_add_mod n u).symm
  have hru : r < u := Nat.mod_lt _ hu0
  have hmq : m = n / d / 2 ^ e := by rw [hm, hu, Nat.div_div_eq_div_mul]
  have hm24 : m < 2 ^ 24 := by
    rw [hmq, Nat.div_lt_iff_lt_mul (Nat.two_pow_pos e), ← pow_add]
    have h1 : n / d < 2 ^ (Nat.log2 (n / d) + 1) := Nat.lt_log2_self
    exact lt_of_lt_of_le h1 (Nat.pow_le_pow_right (by norm_num) (by omega))
  have hme : e = 0 ∨ 2 ^ 23 ≤ m := by
    by_cases h : e = 0
    · exact .inl h
    · right
      rw [hmq, Nat.le_div_iff_mul_le (Nat.two_pow_pos e), ← pow_add]
      have hq : n / d ≠ 0 := by
        intro h0
        rw [h0] at he
        simp at he
        exact h he
      have h1 : 2 ^ Nat.log2 (n / d) ≤ n / d := Nat.log2_self_le hq
      have h2 : 23 + e = Nat.log2 (n / d) := by omega
      rw [h2]
      exact h1
  have hk : scaledMag (e * 2 ^ 23 + m) = m * 2 ^ e := scaledMag_code (by omega) hme
  have hk1 : scaledMag (e * 2 ^ 23 + m + 1) = (m + 1) * 2 ^ e := by
    rw [Nat.add_assoc]
    exact scaledMag_code (by omega) (hme.imp id (by omega))
  refine ⟨e * 2 ^ 23 + m, ?_, ?_, ?_⟩
  · rw [hk, hn, hu]
    nlinarith
  · rw [hk1, hn]
    have : (m + 1) * 2 ^ e * d = u * m + u := by rw [hu]; ring
    omega
  · have hsum : (scaledMag (e * 2 ^ 23 + m) + scaledMag (e * 2 ^ 23 + m + 1)) * d = 2 * (u * m) + u := by
      rw [hk, hk1, hu]
      ring
    have hpar : (e * 2 ^ 23 + m) % 2 = m % 2 := by
      rw [show e * 2 ^ 23 = 2 * (e * 2 ^ 22) by ring, Nat.mul_add_mod]
    rw [hsum, hpar]
    have hc : (2 * (u * m) + u < 2 * n ∨ 2 * (u * m) + u = 2 * n ∧ m % 2 = 1) ↔
        (u < 2 * r ∨ 2 * r = u ∧ m % 2 = 1) := by omega
    simp only [hc]
    have hdef : roundMag n d =
        min (e * 2 ^ 23 + if u < 2 * r ∨ 2 * r = u ∧ m % 2 = 1 then m + 1 else m) infMag := rfl
    rw [hdef]
    split <;> simp only [Nat.add_assoc]

/-- A value not above a code's rounds to a code not above it. -/
theorem roundMag_le_of_le {n d m : Nat} (hd : 0 < d) (h : n ≤ scaledMag m * d) : roundMag n d ≤ m := by
  obtain ⟨k, h1, h2, h3⟩ := roundMag_spec n hd
  rw [h3]
  refine le_trans (Nat.min_le_left ..) ?_
  have hkm : k ≤ m := scaledMag_le_iff.1 (Nat.le_of_mul_le_mul_right (le_trans h1 h) hd)
  split
  · next hc =>
    by_contra hlt
    have hkm' : k = m := by omega
    subst hkm'
    have h4 := Nat.mul_lt_mul_of_pos_right (scaledMag_lt_succ k) hd
    rw [Nat.add_mul] at hc
    omega
  · exact hkm

/-- A value not below a finite code's rounds to a code not below it. -/
theorem le_roundMag_of_le {n d m : Nat} (hd : 0 < d) (hm : m ≤ infMag) (h : scaledMag m * d ≤ n) :
    m ≤ roundMag n d := by
  obtain ⟨k, h1, h2, h3⟩ := roundMag_spec n hd
  rw [h3]
  refine Nat.le_min.2 ⟨?_, hm⟩
  have hkm : m < k + 1 := scaledMag_lt_iff.1 (Nat.lt_of_mul_lt_mul_right (lt_of_le_of_lt h h2))
  split <;> omega

/-- A value that is a code's rounds to that code. -/
theorem roundMag_exact {d m : Nat} (hd : 0 < d) (hm : m ≤ infMag) : roundMag (scaledMag m * d) d = m :=
  le_antisymm (roundMag_le_of_le hd le_rfl) (le_roundMag_of_le hd hm le_rfl)

/-- An exact value that is a binary32's is not changed by rounding. -/
theorem roundInt_exact {z sign : Bool} {m : Nat} {v : Int} (hm : m < infMag) (h0 : v ≠ 0)
    (hv : v = if sign then -(scaledMag m : Int) else (scaledMag m : Int)) : roundInt z v = pack sign m := by
  have hpos : 0 < scaledMag m := by
    rcases Nat.eq_zero_or_pos (scaledMag m) with h | h
    · rw [h] at hv
      simp at hv
      exact absurd hv h0
    · exact h
  have habs : v.natAbs = scaledMag m := by cases sign <;> simp at hv <;> omega
  have hs : decide (v < 0) = sign := by cases sign <;> simp at hv <;> simp <;> omega
  rw [roundInt, if_neg h0, habs, hs]
  have := roundMag_exact (d := 1) (by norm_num) (le_of_lt hm)
  rw [Nat.mul_one] at this
  rw [this]

/-! ### The value of a word -/

theorem scaled_eq (x : F32) :
    scaled x = if fSign x then -(scaledMag (fMag x) : Int) else (scaledMag (fMag x) : Int) := rfl

theorem natAbs_scaled (x : F32) : (scaled x).natAbs = scaledMag (fMag x) := by
  rw [scaled_eq]
  split <;> simp

theorem scaledMag_eq_zero {m : Nat} : scaledMag m = 0 ↔ m = 0 := by
  have := scaledMag_inj (a := m) (b := 0)
  rwa [scaledMag_zero] at this

theorem scaled_eq_zero {x : F32} : scaled x = 0 ↔ isZero x = true := by
  rw [← Int.natAbs_eq_zero, natAbs_scaled, scaledMag_eq_zero, isZero_iff]

theorem scaled_pack (sign : Bool) {m : Nat} (h : m < 2 ^ 31) :
    scaled (pack sign m) = if sign then -(scaledMag m : Int) else (scaledMag m : Int) := by
  rw [scaled_eq, fSign_pack sign h, fMag_pack sign h]

/-- Rounding a finite word's own value gives the word, but for the sign of a zero. -/
theorem roundInt_scaled {x : F32} (hx : isFinite x = true) (z : Bool) :
    roundInt z (scaled x) = if isZero x then pack z 0 else x := by
  split
  · next h => rw [roundInt, if_pos (scaled_eq_zero.2 h)]
  · next h =>
    rw [roundInt_exact ((isFinite_iff x).1 hx) (fun h0 => h (scaled_eq_zero.1 h0)) (scaled_eq x), pack_sign_mag]

/-- The keys compare as the values. -/
theorem fKey_lt_iff (a b : F32) : fKey a < fKey b ↔ scaled a < scaled b := by
  have hm := scaledMag_lt_iff (a := fMag a) (b := fMag b)
  have hm' := scaledMag_lt_iff (a := fMag b) (b := fMag a)
  have ha := scaledMag_eq_zero (m := fMag a)
  have hb := scaledMag_eq_zero (m := fMag b)
  unfold fKey scaled
  split <;> split <;> omega

theorem fKey_eq_iff (a b : F32) : fKey a = fKey b ↔ scaled a = scaled b := by
  have h1 := fKey_lt_iff a b
  have h2 := fKey_lt_iff b a
  omega

/-! ### Sums, products, quotients of finite words -/

theorem fadd_finite {a b : F32} (ha : isFinite a = true) (hb : isFinite b = true) :
    fadd a b = roundInt (fSign a && fSign b) (scaled a + scaled b) := by
  simp [fadd, isNaN_eq_false_of_finite ha, isNaN_eq_false_of_finite hb, isInf_eq_false_of_finite ha,
    isInf_eq_false_of_finite hb]

theorem fmul_finite {a b : F32} (ha : isFinite a = true) (hb : isFinite b = true) :
    fmul a b =
      pack (fSign a != fSign b) (roundMag (scaledMag (fMag a) * scaledMag (fMag b)) (2 ^ 149)) := by
  simp [fmul, isNaN_eq_false_of_finite ha, isNaN_eq_false_of_finite hb, isInf_eq_false_of_finite ha,
    isInf_eq_false_of_finite hb]

theorem fdiv_finite {a b : F32} (ha : isFinite a = true) (hb : isFinite b = true) (h0 : isZero b = false) :
    fdiv a b =
      pack (fSign a != fSign b) (roundMag (scaledMag (fMag a) * 2 ^ 149) (scaledMag (fMag b))) := by
  simp [fdiv, isNaN_eq_false_of_finite ha, isNaN_eq_false_of_finite hb, isInf_eq_false_of_finite ha,
    isInf_eq_false_of_finite hb, h0]

theorem fneg_finite {x : F32} (hx : isFinite x = true) : fneg x = pack (!fSign x) (fMag x) := by
  simp [fneg, isNaN_eq_false_of_finite hx]

theorem isFinite_fneg {x : F32} (hx : isFinite x = true) : isFinite (fneg x) = true := by
  rw [isFinite_iff] at *
  rwa [fneg_finite (by rwa [isFinite_iff]), fMag_pack _ (fMag_lt x)]

theorem scaled_fneg {x : F32} (hx : isFinite x = true) : scaled (fneg x) = -scaled x := by
  rw [fneg_finite hx, scaled_pack _ (fMag_lt x), scaled_eq]
  cases fSign x <;> simp

/-- A difference of finite words is their exact difference rounded. -/
theorem fsub_finite {a b : F32} (ha : isFinite a = true) (hb : isFinite b = true) :
    fsub a b = roundInt (fSign a && !fSign b) (scaled a - scaled b) := by
  rw [fsub, fadd_finite ha (isFinite_fneg hb), scaled_fneg hb, fneg_finite hb, fSign_pack _ (fMag_lt b), sub_eq_add_neg]

end Sys2Proof.Machine
end

