-- ==== Sys2Proof/Laws/PerInstr.lean ====
section
/-! SUPPORT. What holds of the encoding of every command, one lemma per constructor. -/

namespace Sys2Proof.Laws

/-- The command word of an instruction has RSVD = 0, its opcode in OPC, and that opcode selects a command of the opcode
map (spec/30_encoding.md R101, R104). -/
def EncodedInMap.Statement (i : Instr) : Prop :=
  rsvdOf (cmdwOf i) = 0 ∧ opcOf (cmdwOf i) = opcodeOf i ∧
    ∀ arg, (commandOf (opcodeOf i).toNat arg).map opcodeOf = some (opcodeOf i)

/-- A zero-extended opcode has RSVD = 0. -/
theorem rsvdOf_opcode (o : BitVec 8) : rsvdOf (o.setWidth 32) = 0 := by
  unfold rsvdOf
  ext i hi
  simp

/-- A zero-extended opcode has that opcode in OPC. -/
theorem opcOf_opcode (o : BitVec 8) : opcOf (o.setWidth 32) = o := by
  unfold opcOf
  ext i hi
  simp [hi, show i < 32 by omega]

theorem EncodedInMap.cfgSampleRate (v : F32) : EncodedInMap.Statement (.cfgSampleRate v) :=
  ⟨rsvdOf_opcode _, opcOf_opcode _, fun _ => rfl⟩

theorem EncodedInMap.cfgBlockSize (v : Word) : EncodedInMap.Statement (.cfgBlockSize v) :=
  ⟨rsvdOf_opcode _, opcOf_opcode _, fun _ => rfl⟩

theorem EncodedInMap.cfgChannels (v : Word) : EncodedInMap.Statement (.cfgChannels v) :=
  ⟨rsvdOf_opcode _, opcOf_opcode _, fun _ => rfl⟩

theorem EncodedInMap.cfgMaxDelay (v : F32) : EncodedInMap.Statement (.cfgMaxDelay v) :=
  ⟨rsvdOf_opcode _, opcOf_opcode _, fun _ => rfl⟩

theorem EncodedInMap.init : EncodedInMap.Statement .init :=
  ⟨rsvdOf_opcode _, opcOf_opcode _, fun _ => rfl⟩

theorem EncodedInMap.reset : EncodedInMap.Statement .reset :=
  ⟨rsvdOf_opcode _, opcOf_opcode _, fun _ => rfl⟩

theorem EncodedInMap.clear : EncodedInMap.Statement .clear :=
  ⟨rsvdOf_opcode _, opcOf_opcode _, fun _ => rfl⟩

theorem EncodedInMap.process (n : Word) : EncodedInMap.Statement (.process n) :=
  ⟨rsvdOf_opcode _, opcOf_opcode _, fun _ => rfl⟩

theorem EncodedInMap.wtInit (size : Int) : EncodedInMap.Statement (.wtInit size) :=
  ⟨rsvdOf_opcode _, opcOf_opcode _, fun _ => rfl⟩

theorem EncodedInMap.statusClear (mask : BitVec 5) : EncodedInMap.Statement (.statusClear mask) :=
  ⟨rsvdOf_opcode _, opcOf_opcode _, fun _ => rfl⟩

theorem EncodedInMap.setMix (v : F32) : EncodedInMap.Statement (.setMix v) :=
  ⟨rsvdOf_opcode _, opcOf_opcode _, fun _ => rfl⟩

theorem EncodedInMap.setFeedback (v : F32) : EncodedInMap.Statement (.setFeedback v) :=
  ⟨rsvdOf_opcode _, opcOf_opcode _, fun _ => rfl⟩

theorem EncodedInMap.setDelayTime (v : F32) : EncodedInMap.Statement (.setDelayTime v) :=
  ⟨rsvdOf_opcode _, opcOf_opcode _, fun _ => rfl⟩

theorem EncodedInMap.setLfoAmp (v : F32) : EncodedInMap.Statement (.setLfoAmp v) :=
  ⟨rsvdOf_opcode _, opcOf_opcode _, fun _ => rfl⟩

theorem EncodedInMap.setLfoFreq (v : F32) : EncodedInMap.Statement (.setLfoFreq v) :=
  ⟨rsvdOf_opcode _, opcOf_opcode _, fun _ => rfl⟩

end Sys2Proof.Laws
end

