-- ==== Sys2Proof/Tests/Slice0.lean ====
section
/-! SUPPORT. Tests against the spec's vectors (spec/95_test_vectors.md; each test names its vector) and, for every
statement with hypotheses, a state and operands that meet them together. -/

namespace Sys2Proof.Tests

open Sys2Proof Sys2Proof.Machine

/- The tests are elaborated one after the other: many kernel evaluations at once take one large thread stack each. -/
set_option Elab.async false

/-! ### Helpers -/

/-- The state after a command. -/
def run (s : State) (i : Instr) : State := s.after (.command i)

/-- The state after commands. -/
def runs (s : State) (l : List Instr) : State := l.foldl run s

/-- The staging commands of `CONFIG sr, bs, ch, md` and INIT. -/
def config (sr : F32) (bs ch : Word) (md : F32) : List Instr :=
  [.cfgSampleRate sr, .cfgBlockSize bs, .cfgChannels ch, .cfgMaxDelay md, .init]

/-- 4.0, 0.5 and 0.25. -/
def four : F32 := 0x40800000
def half : F32 := 0x3F000000
def quarter : F32 := 0x3E800000

/-- A 4-entry table, SR 4.0, the block size given, one channel, CAP 4. -/
def boot (bs : Word) : State := runs State.reset (.wtInit 4 :: config four bs 1 fOne)

/-- A Ready state that has staged `init` values but no INIT yet, with the 4-entry table. -/
def staged : State := runs State.reset (.wtInit 4 :: (config four 4 1 fOne).dropLast)

/-- The boot state with four samples of 1.0, mixed at 1.0 with feedback 0.5, and a running block of four frames. -/
def busy : State :=
  run ((List.range 4).foldl (fun s k => s.bufWrite k fOne) (runs (boot 4) [.setMix fOne, .setFeedback half]))
    (.process 4)

/-- A state whose HOST master has one access pending and moves next. -/
def hostNext (s : State) (a : BusAccess) : State :=
  { s with schedule := [.host], host := { s.host with pending := [.access a] } }

/-- The state a step answers, if it answers one. -/
def stepped (s : State) : Option State :=
  match step s with
  | .next t => some t
  | .fault _ => none
  | .refused _ => none

/-- The state after n steps that all answer a next state. -/
def stepsOf (s : State) : Nat → State
  | 0 => s
  | n + 1 => stepsOf ((stepped s).getD s) n

/-! ### Well-formedness and legality (R102, R103) -/

theorem test_wf_refuses_size_above : (Instr.wtInit (2 ^ 31)).wellFormed = false := by decide
theorem test_wf_refuses_size_below : (Instr.wtInit (-2 ^ 31 - 1)).wellFormed = false := by decide
theorem test_wf_admits_both_ends :
    (Instr.wtInit (2 ^ 31 - 1)).wellFormed = true ∧ (Instr.wtInit (-2 ^ 31)).wellFormed = true := by decide
theorem test_legal_refuses_host_only_on_ctrl :
    (Instr.process 4).legalOn .ctrl = false ∧ (Instr.statusClear 1).legalOn .ctrl = false := by decide
theorem test_legal_admits_setter_on_ctrl : (Instr.setMix 0).legalOn .ctrl = true := by decide

/-! ### Decoding: every command's word as the opcode map R104 writes it, its operand as R102 reads it -/

theorem test_decode_cfgSampleRate : decodeTableWord 64 0x473B8000_00000001 = some (.cfgSampleRate 0x473B8000) := by decide
theorem test_decode_cfgBlockSize : decodeTableWord 64 0x00000008_00000002 = some (.cfgBlockSize 8) := by decide
theorem test_decode_cfgChannels : decodeTableWord 64 0x00000002_00000003 = some (.cfgChannels 2) := by decide
theorem test_decode_cfgMaxDelay : decodeTableWord 64 0x3CA3D70A_00000004 = some (.cfgMaxDelay 0x3CA3D70A) := by decide
theorem test_decode_init : decodeTableWord 64 0xFFFFFFFF_00000008 = some .init := by decide
theorem test_decode_reset : decodeTableWord 32 0x00000009 = some .reset := by decide
theorem test_decode_clear : decodeTableWord 64 0x00000001_0000000A = some .clear := by decide
theorem test_decode_process : decodeTableWord 64 0x00000004_0000000B = some (.process 4) := by decide
theorem test_decode_wtInit : decodeTableWord 64 0xFFFFFFFB_0000000C = some (.wtInit (-5)) := by decide
theorem test_decode_statusClear : decodeTableWord 64 0xFFF4FFFF_0000000F = some (.statusClear 0b10100) := by decide
theorem test_decode_setMix : decodeTableWord 64 0x3F000000_00000010 = some (.setMix half) := by decide
theorem test_decode_setFeedback : decodeTableWord 64 0x3F000000_00000011 = some (.setFeedback half) := by decide
theorem test_decode_setDelayTime : decodeTableWord 64 0x3F000000_00000012 = some (.setDelayTime half) := by decide
theorem test_decode_setLfoAmp : decodeTableWord 64 0xBE000000_00000013 = some (.setLfoAmp 0xBE000000) := by decide
theorem test_decode_setLfoFreq : decodeTableWord 64 0x3F800000_00000014 = some (.setLfoFreq fOne) := by decide

/-- R111, V-DEC: every reserved opcode is refused by name. -/
theorem test_decode_reserved :
    ∀ opc : Fin 256, opc.val ∈ [0, 5, 6, 7, 13, 14] ++ List.range' 21 235 →
      decode .host (BitVec.ofNat 32 opc.val) 0 = .error .reservedOpcode := by decide +kernel
/-- V-DEC: non-zero RSVD bits. -/
theorem test_decode_rsvd :
    decode .host 0x80000008 0 = .error .reservedBits ∧ decode .host 0x00000105 0 = .error .reservedBits := by decide
/-- V-DEC: PROCESS and WT_INIT are HOST-only. -/
theorem test_decode_ports :
    decode .ctrl 0x0000000B 4 = .error .notOnThisPort ∧ decode .ctrl 0x0000000C 4 = .error .notOnThisPort := by decide
theorem test_encode_inverts : encode (.wtInit (-5)) = [0x0000000C, 0xFFFFFFFB] := by decide

/-! ### Arithmetic (E5, V-ENG1, V-OSC, V-DL) -/

/-- V-ENG1: 0.1 + 0.2 x 0.3, an infinity times zero, the signed zeros. -/
theorem test_feedback_sum :
    feedbackSum 0x3E99999A 0x3DCCCCCD 0x3E4CCCCD = 0x3E23D70A ∧ feedbackSum 0 fOne 0x7F800000 = qNaN ∧
    feedbackSum half 0x80000000 0x80000000 = 0x80000000 := by decide +kernel
/-- V-ENG2. -/
theorem test_mix :
    mixOutput 0x3DCCCCCD fOne 0x40400000 = 0x40333332 ∧ mixOutput quarter 0x3FA00000 fOne = 0x3F880000 ∧
    mixOutput 0 0x40000000 0x80000000 = 0 ∧ mixOutput fOne fOne 0x7F800000 = qNaN := by decide +kernel
/-- V-ENG3. -/
theorem test_delay_length : delayLength 0x473B8000 0x3BA3D70A 0x3B03126F = 0x43A80000 := by decide +kernel
/-- V-OSC1. -/
theorem test_wrap :
    wrapPhase 0xBE800000 = 0x3F400000 ∧ wrapPhase 0xB0800000 = 0 ∧ wrapPhase 0x7F800000 = 0 ∧
    wrapPhase 0x40200000 = half := by decide +kernel
/-- V-OSC2. -/
theorem test_increment :
    fdiv fOne 0x473B8000 = 0x37AEC33E ∧ fdiv fOne 0x40400000 = 0x3EAAAAAB ∧
    fdiv 0x7F61B1E6 half = 0x7F800000 := by decide +kernel
/-- V-DL1. -/
theorem test_capacity :
    dlCapacity 0x473B8000 0x3CA3D70A = some 960 ∧ dlCapacity four 0x3E99999A = some 2 ∧
    dlCapacity 0x4B800000 0x3FC00000 = none ∧ dlCapacity 0x0DA24260 0x0DA24260 = none ∧
    dlCapacity 0x7149F2CA 0x7149F2CA = none := by decide +kernel
/-- V-DL2. -/
theorem test_delay_clamp :
    delayClamp 4 four = 0x407FFFFF ∧ delayClamp 4 0x00000001 = 0x00000001 ∧ delayClamp 4 qNaN = 0 ∧
    delayClamp 1 0x40A00000 = 0x3F7FFFFF := by decide +kernel
/-- R115: a decimal operand is the nearest binary32 (the useful constants of 95_test_vectors.md). -/
theorem test_decimal :
    ofDecimal false 1 (-1) = 0x3DCCCCCD ∧ ofDecimal false 48000 0 = 0x473B8000 ∧
    ofDecimal true 2 (-1) = 0xBE4CCCCD := by decide +kernel

/-! ### The commands, at most two small tests each -/

/-- R200 to R203: a CFG command stores the word unchanged. -/
theorem test_cfgSampleRate : (run State.reset (.cfgSampleRate 0x7FC00001)).cfg.sampleRate = 0x7FC00001 := by decide
theorem test_cfgBlockSize : (run State.reset (.cfgBlockSize 0xFFFFFFFF)).cfg.blockSize = 0xFFFFFFFF := by decide
theorem test_cfgChannels : (run State.reset (.cfgChannels 9)).cfg.channels = 9 := by decide
theorem test_cfgMaxDelay : (run State.reset (.cfgMaxDelay 0x80000000)).cfg.maxDelay = 0x80000000 := by decide

/-- V-INIT, the row that succeeds. -/
theorem test_init : (boot 4).status.word = 0x0000000D ∧ (boot 4).dl.capacity = 4 := by decide +kernel
/-- V-INIT: INIT while Ready. -/
theorem test_init_while_ready : (run (boot 4) .init).status.word = 0x00080705 := by decide +kernel

/-- 2.11: RESET keeps the wavetable and the INIT result. -/
theorem test_reset :
    (run (boot 8) .reset).status.word = 0x0000000C ∧ (run (boot 8) .reset).wt.size = 4 ∧
    (run (boot 8) .reset).cfg.sampleRate = four := by decide +kernel
/-- 2.11: RESET at power-on changes nothing. -/
theorem test_reset_at_power_on : run State.reset .reset = State.reset := by decide

/-- V-DL4. -/
theorem test_clear :
    let s := [fOne, four, half].foldl (fun u v => u.dlPush 0 v) (boot 4)
    s.head 0 = 3 ∧ s.delayRead 0 1 = four ∧ (run s .clear).head 0 = 0 ∧ (run s .clear).delayRead 0 1 = 0 := by
  decide +kernel
/-- 2.11: CLEAR while Uninitialized changes nothing. -/
theorem test_clear_uninitialized : run State.reset .clear = State.reset := by decide

/-- 2.10: the accepted count. -/
theorem test_process : (run (boot 4) (.process 4)).status.word = 0x0000000F := by decide +kernel
/-- 2.10: another count. -/
theorem test_process_count : (run (boot 4) (.process 3)).status.word = 0x0004000D := by decide +kernel

/-- V-WT1 and E3. -/
theorem test_wtInit :
    let s := runs State.reset [.wtInit 4, .wtInit 8]
    s.wt = { size := 4, table := [(0, 0), (1, fOne), (2, 0), (3, 0xBF800000)] } ∧ s.status.word = 4 := by decide +kernel
/-- V-WT1: the sizes, and the entry sin(pi/4). -/
theorem test_wtInit_sizes :
    wtClampSize Config.rc (-5) = 2 ∧ wtClampSize Config.rc 1 = 2 ∧ wtClampSize Config.rc 4096 = 4096 ∧
    wtClampSize Config.rc 4097 = 4096 ∧ sine 8 1 = 0x3F3504F3 ∧ sine 8 7 = 0xBF3504F3 := by decide +kernel

/-- 2.9. -/
theorem test_statusClear :
    let s := { State.reset with status := { State.reset.status with sticky := 0b11111 } }
    (run s (.statusClear 0b00100)).status.sticky = 0b11011 ∧ (run s (.statusClear 0)).status.sticky = 0b11111 := by
  decide

/-- E2. -/
theorem test_setMix :
    (run (boot 4) (.setMix 0x3FC00000)).par.mix = fOne ∧ (run (boot 4) (.setMix 0xBE4CCCCD)).par.mix = 0 := by
  decide +kernel
/-- V-PAR1: while Uninitialized. -/
theorem test_setMix_uninitialized : run State.reset (.setMix half) = State.reset := by decide
/-- V-PAR2: a NaN. -/
theorem test_setFeedback :
    (run (boot 4) (.setFeedback qNaN)).status.word = 0x0002000D ∧
    (run (boot 4) (.setFeedback half)).par.feedback = half := by decide +kernel
/-- E2. -/
theorem test_setDelayTime :
    (run (boot 4) (.setDelayTime 0xBF000000)).par.delayTime = 0 ∧
    (run (boot 4) (.setDelayTime 0x3FC00000)).par.delayTime = 0x3FC00000 := by decide +kernel
/-- V-PAR2. -/
theorem test_setLfoAmp :
    (run (boot 4) (.setLfoAmp 0x80000000)).osc.gain = 0x80000000 ∧
    (run (boot 4) (.setLfoAmp 0xBE000000)).par.lfoAmp = 0xBE000000 := by decide +kernel
/-- V-PAR2. -/
theorem test_setLfoFreq :
    (run (boot 4) (.setLfoFreq 0xC0000000)).osc.inc = 0xBF000000 ∧
    (run (boot 4) (.setLfoFreq 0xC0000000)).osc.freq = 0xC0000000 := by decide +kernel

/-! ### The wavetable, the oscillator, the delay line, the frame -/

/-- V-WT2. -/
theorem test_wtRead :
    (boot 4).wtRead 0x40100000 = 0xBE800000 ∧ (boot 4).wtRead 0x40600000 = 0xBF000000 ∧ (boot 4).wtRead four = 0 := by
  decide +kernel
/-- R153's example. -/
theorem test_oscStep :
    let s := { boot 4 with osc := { phase := quarter, inc := quarter, gain := half, freq := fOne, bound := true } }
    s.oscOutput = half ∧ s.oscAdvance.osc.phase = half := by decide +kernel
/-- V-DL3: after six pushes, the last tap of a full delay line. -/
theorem test_dlPop :
    let s := [fOne, 0x40000000, 0x40400000, four, 0x40A00000, 0x40C00000].foldl (fun u v => u.dlPush 0 v) (boot 4)
    (s.dlSetDelay four).dlPop 0 = 0x40000001 ∧ s.head 0 = 1 := by decide +kernel
/-- P3, scenario A before the setter with mix 1.0: the second frame's output is its wet value 1.5. -/
theorem test_frame :
    busy.frameStep.frameStep.bufRead 1 = 0x3FC00000 ∧ busy.frameStep.frameStep.status.busy = true := by
  decide +kernel

/-! ### The bus and the agents (V-BUS, V-DEC) -/

/-- V-BUS: reads of ID, a misaligned and a reserved offset. -/
theorem test_bus_reads :
    ((stepped (hostNext State.reset (.read 0x000 32))).map (·.host.reads) = some [0x464C4731]) ∧
    ((stepped (hostNext State.reset (.read 0x002 32))).map (·.status.word) = some 0x00100000) ∧
    ((stepped (hostNext State.reset (.read 0x018 32))).map (·.status.word) = some 0x00100000) := by decide +kernel
/-- V-BUS: the last word of BUF, the first unmapped offset, a 16-bit write. -/
theorem test_bus_writes :
    ((stepped (hostNext State.reset (.write 0x4FFC 32 fOne))).map (·.bufRead 4095) = some fOne) ∧
    ((stepped (hostNext State.reset (.write 0x5000 32 fOne))).map (·.status.word) = some 0x00100000) ∧
    ((stepped (hostNext State.reset (.write 0x008 16 5))).map (·.hostArg) = some 0) := by decide +kernel
/-- V-DEC: an illegal word while Ready. -/
theorem test_bus_illegal_command :
    (stepped (hostNext (boot 4) (.write 0x00C 32 0x108))).map (·.status.word) = some 0x0001000D := by decide +kernel
/-- R80: HOST's read of BUF waits for the block, so the scheduled HOST turn goes to ENGINE. -/
theorem test_hold :
    (stepped (hostNext busy (.read 0x1000 32))).map (·.seq.procT) = some 1 := by decide +kernel
/-- An access outside the window is not this block's (log 9). -/
theorem test_outside_window :
    (match step (hostNext State.reset (.read 0x800000 32)) with | .fault .outsideWindow => true | _ => false) = true := by
  decide +kernel
/-- P4's bus writes of `host.SET_MIX 0.5`, `host.CLEAR` and `rd STATUS` (R116). -/
theorem test_expand :
    expandScript Config.rc [.command .host .setMix (.decimal false 5 (-1)), .command .host .clear .none,
        .rd (.reg .status)] =
      [.access (.write 0x008 32 half), .access (.write 0x00C 32 0x10), .access (.write 0x00C 32 0x0A),
        .access (.read 0x004 32)] := by decide +kernel
/-- 2.9's `host.STATUS_CLEAR 0xFFE0FFFF` and CLRERR: the whole integer goes to HOST_ARG (R116). -/
theorem test_expand_whole_operand :
    expandScript Config.rc [.command .host .statusClear (.int 0xFFE0FFFF), .clrErr] =
      [.access (.write 0x008 32 0xFFE0FFFF), .access (.write 0x00C 32 0x0F),
        .access (.write 0x008 32 0x001F0000), .access (.write 0x00C 32 0x0F)] := by decide +kernel
/-- A literal its mnemonic does not take is expanded all the same (log 27). -/
theorem test_expand_literal_not_taken :
    expandScript Config.rc [.command .host .init (.int 5), .command .host .setMix .none, .load 4 0 0 .none] =
      [opWr Config.rc 0x008 5, opWr Config.rc 0x00C 0x08, opWr Config.rc 0x00C 0x10, opWr Config.rc 0x1000 0] := by
  decide

/-- R104 and R115: a mnemonic's command word is that of the command it names, and the literals it takes are its kind's. -/
theorem test_mnemonics :
    Mnemonic.statusClear.cmdw = cmdwOf (.statusClear 0) ∧ Mnemonic.setLfoFreq.cmdw = cmdwOf (.setLfoFreq 0) ∧
    Mnemonic.clear.takes .none = true ∧ Mnemonic.setMix.takes (.int 1) = false ∧
    Mnemonic.wtInit.takes (.int (-5)) = true := by decide
/-- R321: CTRL's BUF write goes through while a block runs. -/
theorem test_ctrl_not_held :
    let s := { busy with schedule := [.ctrl], ctrl := { busy.ctrl with pending := [.access (.write 0x1000 32 four)] } }
    (stepped s).map (·.bufRead 0) = some four := by decide +kernel
/-- A RESET that CTRL writes to HOST_CMD while a block runs takes R213's effects, and the frames left run with no channel
until BUSY ends (R221, log 8). -/
theorem test_reset_during_block :
    let s := { busy with schedule := [.ctrl], ctrl := { busy.ctrl with pending := [.access (.write 0x00C 32 0x09)] } }
    (stepsOf s 1).status.word = 0x0000000E ∧ (stepsOf s 1).spec.channels = 0 ∧
    (stepsOf s 4).status.busy = true ∧ (stepsOf s 5).status.word = 0x0000000C ∧ (stepsOf s 5).buf = busy.buf := by
  decide +kernel
/-- withFetchWord runs its command as the first step after reset (log 7). -/
theorem test_fetch_first :
    (stepped (State.reset.withFetchWord 64 0x00000008_00000002)).map (·.cfg.blockSize) = some 8 := by decide +kernel

/-! ### Witnesses: states and operands that meet the hypotheses of a statement together, one theorem a statement, and a
boundary value for each of its clauses -/

/-- The smallest and the largest implementation R8 admits. -/
def least : Params := { Config.rc with
  maxChannels := 1, bufRamWords := 1, delayRamWords := 2, wtMaxSize := 2, wtDefaultSize := 2 }
def most : Params := { Config.rc with
  maxChannels := 255, bufRamWords := 2 ^ 20, delayRamWords := 2 ^ 26, wtMaxSize := 2 ^ 24, wtDefaultSize := 2 ^ 24
  base := 0x800000 }

/-- A state after RESET, with the staged values of `staged`. -/
def torn : State := run (boot 4) .reset

theorem rc_legal : Config.rc.Legal := by decide

theorem witness_DecodeOfEncodeIsIdentity :
    (Instr.wtInit (-2 ^ 31)).wellFormed = true ∧ (Instr.wtInit (-2 ^ 31)).legalOn .host = true ∧
    (Instr.setLfoFreq 0xFFFFFFFF).wellFormed = true ∧ (Instr.setLfoFreq 0xFFFFFFFF).legalOn .ctrl = true := by decide

/-- One for each clause of the operand word. -/
theorem witness_EncodeOfDecodeIsIdentity :
    decode .host 0x00000008 0xFFFFFFFF = .ok .init ∧
    decode .host 0x0000000F 0xFFFFFFFF = .ok (.statusClear 0b11111) ∧
    decode .ctrl 0x00000014 0xFFFFFFFF = .ok (.setLfoFreq 0xFFFFFFFF) := by decide

/-- Words at both ends of the legal ones, and illegal ones next to them. -/
theorem witness_IllegalCommandsOnlyFlag :
    (0x14 : Word) ∈ ([0x10, 0x11, 0x12, 0x13, 0x14] : List Word) ∧
    (0x01 : Word) ∈ ([0x01, 0x02, 0x03, 0x04, 0x08, 0x09, 0x0A, 0x0B, 0x0C, 0x0F] : List Word) ∧
    (0x15 : Word) ∉ ([0x10, 0x11, 0x12, 0x13, 0x14] : List Word) ∧
    (0x110 : Word) ∉ ([0x10, 0x11, 0x12, 0x13, 0x14] : List Word) ∧
    (0x0F : Word) ∉ ([0x10, 0x11, 0x12, 0x13, 0x14] : List Word) := by decide

/-- A read of STATUS while a block runs and a write to BUF while none does; a legal command word, and an illegal one. -/
theorem witness_StepRunsHostCommand :
    (let s := hostNext busy (.read 0x004 32)
     s.schedule = .host :: [] ∧ s.host.pending = .access (.read 0x004 32) :: [] ∧
     s.status.busy = true ∧ s.enabled .host = true) ∧
    (let s := hostNext State.reset (.write 0x1000 32 5)
     s.schedule = .host :: [] ∧ s.host.pending = .access (.write 0x1000 32 5) :: [] ∧ s.status.busy = false) ∧
    (∀ w : Word,
      let s := { hostNext State.reset (.write 0x00C 32 w) with hostArg := 4 }
      s.params.base % 4 = 0 ∧ s.status.busy = false ∧ s.schedule = .host :: [] ∧
      s.host.pending = .access (.write (s.params.base + 0x00C) 32 w) :: []) ∧
    decode .host 0x0000000B 4 = .ok (.process 4) ∧ decode .host 0x0000010B 4 = .error .reservedBits :=
  ⟨⟨rfl, by decide +kernel, by decide +kernel, by decide +kernel⟩, ⟨rfl, rfl, rfl⟩, fun _ => ⟨rfl, rfl, rfl, rfl⟩,
   by decide, by decide⟩

/-- A write to BUF, a setter on CTRL_CMD and a RESET on HOST_CMD, all from CTRL while a block runs. -/
theorem witness_StepRunsCtrlCommand :
    let s (addr : Nat) (w : Word) := { busy with
      schedule := [.ctrl], ctrlArg := half
      ctrl := { busy.ctrl with pending := [.access (.write addr 32 w)] } }
    busy.params.base % 4 = 0 ∧ (s 0x014 0x10).schedule = .ctrl :: [] ∧
    (s 0x1000 5).ctrl.pending = .access (.write 0x1000 32 5) :: [] ∧
    (s 0x014 0x10).ctrl.pending = .access (.write (busy.params.base + 0x014) 32 0x10) :: [] ∧
    decode .ctrl 0x10 (s 0x014 0x10).ctrlArg = .ok (.setMix half) ∧
    (s 0x00C 0x09).ctrl.pending = .access (.write (busy.params.base + 0x00C) 32 0x09) :: [] ∧
    decode .host 0x09 (s 0x00C 0x09).hostArg = .ok .reset := by decide +kernel

theorem witness_FetchWordIsRunNext :
    State.reset.params.base % 4 = 0 ∧ State.reset.status.busy = false ∧
    decode .host (BitVec.ofNat 32 (0x3F000000_00000010 % 2 ^ 64)) (BitVec.ofNat 32 (0x3F000000_00000010 % 2 ^ 64 / 2 ^ 32))
      = .ok (.setMix half) := by decide

/-- V-INIT: the first failing check of each code, at the boundary of the check, and the state that passes them all. -/
theorem witness_InitReportsFirstFailedCheck :
    (boot 4).status.ready = true ∧
    ([(four, 4, 1, 0x80000000, 1), (0, 4, 1, fOne, 2), (four, 4097, 1, fOne, 3), (four, 4, 9, fOne, 4),
      (four, 513, 8, fOne, 5), (0x47800000, 4, 1, fOne, 6)] :
        List (F32 × Word × Word × F32 × BitVec 4)).all (fun c =>
      let s := runs State.reset (config c.1 c.2.1 c.2.2.1 c.2.2.2.1)
      !s.status.ready && s.status.initCode.bits == c.2.2.2.2) = true ∧
    (staged.status.ready = false ∧ (run staged .init).status.initCode = .ok) := by decide +kernel

theorem witness_InitAppliesConfiguration :
    staged.status.ready = false ∧ initCheck staged.params staged.cfg = .ok 4 := by decide +kernel

theorem witness_ClearZeroesHistory :
    State.reset.status.ready = false ∧ busy.frameStep.status.ready = true ∧ busy.frameStep.dl.alloc = true ∧
    busy.frameStep.delayRead 0 0 = fOne ∧ 0 < busy.frameStep.ch ∧ 4 < busy.frameStep.delayM := by decide +kernel

theorem witness_ProcessStartsBlock :
    State.reset.status.ready = false ∧ (boot 4).status.ready = true ∧ (3 : Word) ≠ (boot 4).spec.blockSize ∧
    (4 : Word) = (boot 4).spec.blockSize := by decide +kernel

theorem witness_WtInitFillsTableOnce :
    State.reset.params.Legal ∧ State.reset.status.wtValid = false ∧ (boot 4).params.Legal ∧
    (boot 4).status.wtValid = true := by decide +kernel

theorem witness_SettersAreGuarded :
    Instr.setLfoFreq qNaN ∈
      [Instr.setMix qNaN, .setFeedback qNaN, .setDelayTime qNaN, .setLfoAmp qNaN, .setLfoFreq qNaN] ∧
    State.reset.status.ready = false ∧ (boot 4).status.ready = true ∧ isFinite qNaN = false ∧
    isFinite 0x7F800000 = false := by decide +kernel

/-- Each case of a setter: Uninitialized, a non-finite operand, the clamps at their bounds. -/
theorem witness_setters :
    State.reset.status.ready = false ∧ (boot 4).status.ready = true ∧ isFinite 0xFF800000 = false ∧
    isFinite 0x7F7FFFFF = true ∧ fgt fOne fZero = true ∧ flt fOne fOne = false ∧ fgt 0x80000000 fZero = false ∧
    flt 0x3F7FFFFF fOne = true := by decide +kernel

theorem witness_CommandsLeaveBufferAndArgs :
    exec (.cfgChannels 2) busy = .next { busy with cfg := { busy.cfg with channels := 2 } } := rfl

/-- Each way an access is rejected, at offsets on both sides of the mapped ones. -/
theorem witness_RejectedAccessOnlyFlags :
    inWindow Config.rc 0x008 = true ∧ inWindow Config.rc 0x7FFFFF = true ∧ 0x7FFFFF % 4 ≠ 0 ∧
    regAt Config.rc 0x018 = none ∧ regAt Config.rc 0x094 = none ∧ regAt Config.rc 0xFFC = none ∧
    regAt Config.rc 0x5000 = none ∧ regAt Config.rc 0x090 ≠ none ∧ regAt Config.rc 0x4FFC ≠ none := by decide

theorem witness_ReadOnlyWritesIgnored :
    State.reset.params.base % 4 = 0 ∧ regAt Config.rc 0x000 = some .id ∧ regAt Config.rc 0x090 = some .capWtDefault ∧
    regAt Config.rc 0x00C = some .hostCmd ∧ regAt Config.rc 0x014 = some .ctrlCmd := by decide

theorem witness_BufWriteThenRead :
    State.reset.params.Legal ∧ 0 < State.reset.params.bufRamWords ∧ 4095 < State.reset.params.bufRamWords := by decide

theorem witness_ArgRegistersHoldWord : State.reset.params.base % 4 = 0 := by decide

/-- One for each clause: the writes and the BUF accesses at both ends that wait, and an access that does not. -/
theorem witness_HeldAccessWaitsForBlock :
    busy.params.Legal ∧ busy.status.busy = true ∧
    (∀ a ∈ [BusAccess.write 0x008 32 5, .write 0x00C 32 5, .read 0x1000 32, .write 0x4FFC 32 5],
      (hostNext busy a).host.pending = .access a :: [] ∧ (hostNext busy a).enabled .host = false) ∧
    (∀ a ∈ [BusAccess.read 0x008 32, .read 0x004 32, .write 0x1002 32 5, .read 0x5000 32],
      (hostNext busy a).enabled .host = true) := by decide +kernel

/-- ENGINE next by the schedule, and ENGINE after its longest wait. For the third clause `busy` itself: it has a next
state by `busy_steps`. -/
theorem witness_EngineIsNotStarved :
    (let s := { busy with schedule := [.engine] }
     s.status.busy = true ∧ s.schedule = .engine :: []) ∧
    (let s := { busy with waited := Config.patience }
     s.status.busy = true ∧ s.schedule = [] ∧ Config.patience ≤ s.waited) :=
  ⟨⟨by decide +kernel, rfl⟩, by decide +kernel, rfl, Nat.le_refl _⟩

/-- Each master, while a block runs and while none does. -/
theorem witness_WaitIdlePollsStatus :
    (∀ s ∈ [busy, boot 4],
      (let u := { s with schedule := [.host], host := { s.host with pending := [.waitIdle] } }
       u.schedule = .host :: [] ∧ u.host.pending = .waitIdle :: []) ∧
      (let u := { s with schedule := [.ctrl], ctrl := { s.ctrl with pending := [.waitIdle] } }
       u.schedule = .ctrl :: [] ∧ u.ctrl.pending = .waitIdle :: [])) ∧
    busy.status.busy = true ∧ (boot 4).status.busy = false := by decide +kernel

theorem witness_PowerOnState : least.Legal ∧ most.Legal ∧ 0x074 < 0x080 ∧ regAt most 0x07C = some .wtSize := by decide

theorem witness_InvariantsHoldAtPowerOn : least.Legal ∧ most.Legal := by decide

/-- The engine invariant of a Ready state, by evaluation of its parts. -/
theorem busy_engineInv : busy.EngineInv := by
  refine ⟨?legal, fun _ => ?ready, fun h => ?uninit, ?wt, fun _ => ?seq, ?heads⟩
  case ready => and_intros <;> decide +kernel
  case uninit => exact absurd h (by decide +kernel)
  all_goals decide +kernel

/-- The engine invariant of an Uninitialized state, from the parts that say something of it. -/
theorem engineInv_of_uninit {s : State} (hr : s.status.ready = false) (hl : s.params.Legal) (hu : s.UninitInv)
    (hw : s.WtInv) : s.EngineInv :=
  ⟨hl, fun h => absurd (hr ▸ h) Bool.false_ne_true, fun _ => hu, hw,
   fun h => absurd (hu.2 ▸ h) Bool.false_ne_true, by rw [hu.1.2.2.2.2.2.2, List.length_replicate]⟩

theorem torn_engineInv : torn.EngineInv := by apply engineInv_of_uninit <;> decide +kernel

theorem staged_engineInv : staged.EngineInv := by apply engineInv_of_uninit <;> decide +kernel

/-- A running block of two channels, whose frame is the second one. -/
def busyTwo : State :=
  (run ((List.range 8).foldl (fun s k => s.bufWrite k half)
    (runs State.reset (.wtInit 4 :: config four 4 2 fOne ++ [.setMix half, .setFeedback half, .setLfoAmp quarter])))
    (.process 4)).frameStep

theorem busyTwo_engineInv : busyTwo.EngineInv := by
  refine ⟨?legal, fun _ => ?ready, fun h => ?uninit, ?wt, fun _ => ?seq, ?heads⟩
  case ready => and_intros <;> decide +kernel
  case uninit => exact absurd h (by decide +kernel)
  all_goals decide +kernel

/-- In `busy` no master has a pending access, so its step is a frame. -/
theorem busy_steps : step busy = .next busy.frameStep := by
  have h : busy.choose = some (.engine, busy) := by decide +kernel
  simp only [step, stepAgents, h, State.agentStep]

theorem witness_EngineInvariantKept :
    busy.EngineInv ∧ busy.NoResetDuringBlock ∧ busy.ctrlDisciplined = true ∧ step busy = .next busy.frameStep := by
  have hc : busy.ctrl.pending = [] := by decide +kernel
  exact ⟨busy_engineInv, fun _ rest => by simp [hc], by decide +kernel, busy_steps⟩

/-- A CTRL access that R80 would hold from HOST, while a block runs, and a state RESET leaves during a block. -/
theorem witness_EngineInvariantKept_ctrl :
    let s := { busy with schedule := [.ctrl], ctrl := { busy.ctrl with pending := [.access (.write 0x00C 32 0x08)] } }
    s.ctrlDisciplined = false ∧ (stepped s).map (·.status.initCode) = some .alreadyReady ∧
    (run busy .reset).ZeroInv ∧ (run busy .reset).WtInv ∧ (run busy .reset).status.busy = true := by decide +kernel

theorem witness_MemoryFormKept :
    busy.frameStep.MemInv ∧ busy.frameStep.dl.ram ≠ [] ∧ busy.frameStep.buf ≠ [] ∧ (stepped busy.frameStep).isSome := by
  decide +kernel

theorem witness_WavetableNeverRewritten : busy.status.wtValid = true ∧ step busy = .next busy.frameStep :=
  ⟨by decide +kernel, busy_steps⟩

theorem witness_ReadyChangesOnlyByInitAndReset :
    (staged.status.ready = false ∧ (run staged .init).status.ready = true) ∧
    ((boot 4).status.ready = true ∧ (run (boot 4) .reset).status.ready = false) ∧
    (stepped (hostNext staged (.write 0x00C 32 0x08))).map (·.status.ready) = some true ∧
    (stepped (hostNext (boot 4) (.write 0x00C 32 0x09))).map (·.status.ready) = some false := by decide +kernel

theorem witness_StickyBitsStay :
    let s := (boot 4).flag .errBus
    exec (.cfgChannels 2) s = .next { s with cfg := { s.cfg with channels := 2 } } ∧
    (∀ mask, Instr.cfgChannels 2 ≠ .statusClear mask) ∧ s.status.sticky.getLsbD 4 = true :=
  ⟨rfl, fun _ h => (nomatch h), by decide +kernel⟩

theorem witness_AtMostOneStickyBitPerStep :
    let s := hostNext (boot 4) (.read 0x002 32)
    (stepped s).map (fun t => t.status.sticky.getLsbD 4 && !s.status.sticky.getLsbD 4) = some true := by decide +kernel

/-- No pending access is foreign, and an address that is. -/
theorem witness_OnlyForeignAccessStops :
    let s := hostNext (boot 4) (.read 0x7FFFFC 32)
    (∀ m a rest, (s.master m).pending = .access a :: rest → inWindow s.params a.addr = true) ∧
    inWindow s.params 0x800000 = false := by
  refine ⟨fun m a rest h => ?_, by decide +kernel⟩
  have hc : (boot 4).ctrl.pending = [] := by decide +kernel
  cases m with
  | host =>
    obtain ⟨rfl, -⟩ : a = .read 0x7FFFFC 32 ∧ rest = [] := by
      simpa [State.master, hostNext, eq_comm] using h
    decide +kernel
  | ctrl => exact absurd (hc.symm.trans h) (by simp)

/-- Finite operands with a finite result and a tie, and with an overflow. -/
theorem witness_OperationsRoundToNearestEven :
    isFinite fOne = true ∧ isFinite 0x33800000 = true ∧ isFinite 0x3F800001 = true ∧
    fadd fOne 0x33800000 = fOne ∧ isZero 0x33800000 = false ∧
    isInf (fadd 0x7F7FFFFF 0x73000000) = true ∧ isInf (fadd 0x7F7FFFFF 0x72FFFFFF) = false ∧
    isInf (fmul 0x7F7FFFFF four) = true ∧ isInf (fdiv 0x7F7FFFFF half) = true := by decide +kernel

theorem witness_OnlyCanonicalNaNResults :
    fdiv 0 0 ∈ [fadd 0 0, fsub 0 0, fmul 0 0, fdiv 0 0] ∧ isNaN (fdiv 0 0) = true := by decide +kernel

/-- Finite operands, both infinities, and a NaN. -/
theorem witness_ComparisonsFollowValues :
    isNaN 0x80000000 = false ∧ isNaN 0x7F7FFFFF = false ∧ isNaN 0x7F800000 = false ∧ isNaN 0xFF800000 = false ∧
    isNaN 0x7F800001 = true := by decide

/-- Values with and without a fraction, and both ends of the integers `fromInt` takes. -/
theorem witness_FloorAndFractionAreExact :
    isFinite 0x7F7FFFFF = true ∧ fSign 0x7F7FFFFF = false ∧ isFinite 0x80000001 = true ∧ isFinite 0 = true ∧
    scaled 0xC0800000 % 2 ^ 149 = 0 ∧ scaled 0x80000001 % 2 ^ 149 ≠ 0 ∧
    |(2 ^ 24 : Int)| ≤ 2 ^ 24 ∧ |(-2 ^ 24 : Int)| ≤ 2 ^ 24 := by
  refine ⟨?_, ?_, ?_, ?_, ?_, ?_, ?_, ?_⟩ <;> decide +kernel

theorem witness_WrapLandsInUnitInterval :
    fInRange 0x3F7FFFFF fOne ∧ fInRange 0 fOne ∧ isFinite 0x7F800000 = false ∧ isFinite qNaN = false := by decide

/-- Each case of the clamp for the smallest and the largest capacity. -/
theorem witness_DelayLengthClamped :
    (∀ cap ∈ [1, 2 ^ 24], 1 ≤ cap ∧ cap ≤ 2 ^ 24 ∧
      fgt 0x00000001 fZero = true ∧ flt 0x00000001 (fromInt cap) = true ∧ fgt qNaN fZero = false ∧
      fgt (fromInt cap) fZero = true ∧ flt (fromInt cap) (fromInt cap) = false) ∧
    (boot 4).dl.capacity.toNat = 4 := by decide +kernel

theorem witness_CapacityIsCeiling :
    isPositiveFinite 0x4B800000 = true ∧ isPositiveFinite fOne = true ∧ dlCapacity 0x4B800000 fOne = some (2 ^ 24) ∧
    isPositiveFinite 0x3F800001 = true ∧ dlCapacity 0x4B800000 0x3F800001 = none ∧
    isPositiveFinite 0x00000001 = true ∧ dlCapacity 0x00000001 fOne = some 1 ∧
    dlCapacity 0x00000001 0x00000001 = none := by decide +kernel

theorem witness_ClampsGiveLegalValues :
    isFinite 0x7F7FFFFF = true ∧ isFinite fOne = true ∧ fInUnit fOne ∧ fInUnit 0 ∧ fSign 0 = false := by decide

theorem witness_InterpolationAtEntry :
    isFinite fOne = true ∧ isFinite (fsub four fOne) = true ∧ isZero fOne = false ∧
    isFinite 0x80000000 = true ∧ isFinite (fsub four 0x80000000) = true ∧ isZero 0x80000000 = true := by decide +kernel

theorem witness_WavetableReadIsFinite :
    busy.params.Legal ∧ busy.WtInv ∧ busy.status.wtValid = true ∧ isFinite four = true ∧ fSign four = false := by
  decide +kernel

theorem witness_BlockRunsEveryFrame :
    busy.status.busy = true ∧ busy.seq.procT.toNat < busy.seq.procN.toNat ∧ 0 < busy.seq.procN.toNat - 0 := by
  decide +kernel

/-- Two channels, and a channel past them whose head stays. -/
theorem witness_FrameComputesEveryChannel :
    busyTwo.EngineInv ∧ DelayRam.wf busyTwo.dl.ram ∧ busyTwo.status.ready = true ∧ busyTwo.status.busy = true ∧
    busyTwo.ch = 2 ∧ busyTwo.frameStep.head 2 = busyTwo.head 2 :=
  ⟨busyTwo_engineInv, by and_intros <;> decide +kernel⟩

/-- The shortest and the longest delay the capacity admits, after enough pushes and after fewer on a line of zeros. -/
theorem witness_PopReadsEarlierPushes :
    let s := boot 4
    DelayRam.wf s.dl.ram ∧ s.dl.alloc = true ∧ 0 < s.ch ∧ 0 < s.dl.heads.length ∧ s.head 0 < s.delayM ∧
    (0 + 1 ≤ s.dl.capacity.toNat ∧ toInt (ffloor half) = 0 ∧ 0 + 2 ≤ [fOne, four].length) ∧
    (3 + 1 ≤ s.dl.capacity.toNat ∧ toInt (ffloor 0x407FFFFF) = 3 ∧ 3 + 2 ≤ [fOne, four, fOne, half, 0].length) ∧
    (∀ k, k < s.delayM → s.delayRead 0 k = fZero) := by
  decide +kernel

theorem witness_ResetTearsDown : torn.EngineInv ∧ torn.status.ready = false := ⟨torn_engineInv, by decide +kernel⟩

theorem witness_ClearSilencesDelayLine : busy.EngineInv ∧ busy.status.ready = true ∧ 0 < busy.ch :=
  ⟨busy_engineInv, by decide +kernel, by decide +kernel⟩

/-- A running block whose input sample is an infinity, and one whose first frame pushed it, so that the pop of the next
reads it. -/
theorem witness_NonFiniteSamplesPersist :
    isNaN qNaN = true ∧ (isInf 0xFF800000 = true ∧ isZero 0x80000000 = true) ∧ isFinite 0x7F800000 = false ∧
    (let s := busy.bufWrite 0 0x7F800000
     s.status.ready = true ∧ s.status.busy = true ∧ 0 < s.ch ∧ isFinite (s.bufRead 0) = false ∧
     isFinite (s.frameStep.delayRead 0 0) = false ∧ toInt (ffloor s.frameStep.frameStep.dl.len) = 0) := by
  decide +kernel

theorem witness_AudioDependsOnlyOnAudioState :
    Event.command .init ∉ [Event.frame, .command (.setMix half), .bufWrite 0 four] ∧
    busy.AudioEq { busy.flag .errBus with hostArg := 7, cfg := { busy.cfg with channels := 2 } } ∧
    busy ≠ { busy.flag .errBus with hostArg := 7, cfg := { busy.cfg with channels := 2 } } := by decide +kernel

/-- With the same BUF, and with loads of every word of a block of four samples. -/
theorem witness_ReinitialisedRunsAgree :
    staged.EngineInv ∧ torn.EngineInv ∧
    (staged.status.ready = false ∧ torn.status.ready = false ∧
     staged.params = torn.params ∧ staged.cfg = torn.cfg ∧ staged.buf = torn.buf ∧
     (staged.wtInitialise staged.params.wtDefaultSize).wt = (torn.wtInitialise torn.params.wtDefaultSize).wt ∧
     initCheck staged.params staged.cfg = .ok 4 ∧ Event.command .init ∉ [Event.command (.process 4), .frame]) ∧
    (∀ k, k < staged.cfg.channels.toNat * staged.cfg.blockSize.toNat →
      Event.bufWrite k half ∈ (List.range 4).map fun k => Event.bufWrite k half) :=
  ⟨staged_engineInv, torn_engineInv, by decide +kernel, by decide +kernel⟩

theorem witness_RegisterReadsReturnTheirState :
    busyTwo.params.base % 4 = 0 ∧ busyTwo.par.mix ≠ busyTwo.par.delayTime ∧ busyTwo.osc.gain ≠ busyTwo.osc.inc ∧
    busyTwo.head 0 ≠ 0 := by decide +kernel

/-- An operand of each clause. -/
theorem witness_SpecialOperandsGiveIeeeResults :
    isNaN 0x7F800001 = true ∧ isInf 0x7F800000 = true ∧ isInf 0xFF800000 = true ∧ isNaN 0xFF800000 = false ∧
    isInf 0x7F7FFFFF = false ∧ isZero 0x80000000 = true ∧ isZero 0x00000001 = false ∧
    (fSign 0xFF800000 != fSign 0x7F800000) = true := by decide

end Sys2Proof.Tests
end

/-! PROOFS. The classes of a word, the negation, and what each operation answers on NaN and infinite operands (R13,
R14). -/

namespace Sys2Proof.Machine

/-! ### The classes of a word -/

theorem isNaN_eq_false_iff (x : F32) : isNaN x = false ↔ fMag x ≤ infMag := by simp [isNaN]

theorem isInf_eq_false_iff (x : F32) : isInf x = false ↔ fMag x ≠ infMag := by simp [isInf]

theorem isFinite_eq_false_iff (x : F32) : isFinite x = false ↔ infMag ≤ fMag x := by simp [isFinite]

/-- A word is a NaN, an infinity or a finite value. -/
theorem isFinite_of_not_isNaN_not_isInf {x : F32} (hn : isNaN x = false) (hi : isInf x = false) :
    isFinite x = true := by
  rw [isNaN_eq_false_iff] at hn
  rw [isInf_eq_false_iff] at hi
  rw [isFinite_iff]
  omega

theorem isNaN_eq_false_of_isInf {x : F32} (h : isInf x = true) : isNaN x = false := by
  rw [isNaN_eq_false_iff, (isInf_iff x).1 h]

theorem isNaN_pack {m : Nat} (sign : Bool) (h : m ≤ infMag) : isNaN (pack sign m) = false := by
  rw [isNaN_eq_false_iff, fMag_pack sign (lt_of_le_of_lt h infMag_lt)]
  exact h

@[simp] theorem isInf_pack_infMag (sign : Bool) : isInf (pack sign infMag) = true := by
  rw [isInf_iff, fMag_pack sign infMag_lt]

@[simp] theorem isZero_pack_zero (sign : Bool) : isZero (pack sign 0) = true := by
  rw [isZero_iff, fMag_pack sign (by norm_num)]

theorem isNaN_pack_roundMag (sign : Bool) (n d : Nat) : isNaN (pack sign (roundMag n d)) = false :=
  isNaN_pack sign (roundMag_le_infMag n d)

/-- An exact sum, rounded, is the word of a sign and a rounded magnitude; for a zero sum the sign is `zeroSign`. -/
theorem roundInt_eq_pack (zeroSign : Bool) (v : Int) :
    roundInt zeroSign v = pack (if v = 0 then zeroSign else decide (v < 0)) (roundMag v.natAbs 1) := by
  by_cases hv : v = 0
  · simp [roundInt, hv, show roundMag 0 1 = 0 by decide]
  · simp [roundInt, hv]

theorem isNaN_roundInt (zeroSign : Bool) (v : Int) : isNaN (roundInt zeroSign v) = false := by
  rw [roundInt_eq_pack]
  exact isNaN_pack_roundMag _ _ _

/-! ### The negation -/

theorem fneg_of_isNaN {x : F32} (h : isNaN x = true) : fneg x = qNaN := by simp [fneg, h]

theorem fneg_of_not_isNaN {x : F32} (h : isNaN x = false) : fneg x = pack (!fSign x) (fMag x) := by simp [fneg, h]

@[simp] theorem isNaN_fneg (x : F32) : isNaN (fneg x) = isNaN x := by
  cases h : isNaN x with
  | true => rw [fneg_of_isNaN h]; decide
  | false => rw [fneg_of_not_isNaN h]; exact isNaN_pack _ ((isNaN_eq_false_iff x).1 h)

theorem fMag_fneg {x : F32} (h : isNaN x = false) : fMag (fneg x) = fMag x := by
  rw [fneg_of_not_isNaN h, fMag_pack _ (fMag_lt x)]

theorem fSign_fneg {x : F32} (h : isNaN x = false) : fSign (fneg x) = !fSign x := by
  rw [fneg_of_not_isNaN h, fSign_pack _ (fMag_lt x)]

theorem isInf_fneg {x : F32} (h : isNaN x = false) : isInf (fneg x) = isInf x := by
  simp [isInf, fMag_fneg h]

/-- The negation inverts bit 31 and no other. -/
theorem fneg_eq_xor {x : F32} (h : isNaN x = false) : fneg x = x ^^^ 0x80000000#32 := by
  have hsign : fSign (x ^^^ 0x80000000#32) = !fSign x := by
    simp [fSign, show (0x80000000#32).msb = true by decide]
  have hmag : fMag (x ^^^ 0x80000000#32) = fMag x := by
    unfold fMag
    rw [BitVec.toNat_xor, Nat.xor_mod_two_pow]
    simp
  exact eq_of_sign_mag ((fSign_fneg h).trans hsign.symm) ((fMag_fneg h).trans hmag.symm)

/-! ### Each operation on NaN and infinite operands (R13, R14; log 13) -/

variable {a b : F32}

theorem fadd_of_isNaN (h : isNaN a = true ∨ isNaN b = true) : fadd a b = qNaN := by
  rcases h with h | h <;> simp [fadd, h]

theorem fsub_of_isNaN (h : isNaN a = true ∨ isNaN b = true) : fsub a b = qNaN :=
  fadd_of_isNaN (by rwa [isNaN_fneg])

theorem fmul_of_isNaN (h : isNaN a = true ∨ isNaN b = true) : fmul a b = qNaN := by
  rcases h with h | h <;> simp [fmul, h]

theorem fdiv_of_isNaN (h : isNaN a = true ∨ isNaN b = true) : fdiv a b = qNaN := by
  rcases h with h | h <;> simp [fdiv, h]

theorem fadd_of_isInf_left (ha : isInf a = true) (hb : isNaN b = false) :
    fadd a b = if isInf b = true ∧ fSign a ≠ fSign b then qNaN else a := by
  simp [fadd, isNaN_eq_false_of_isInf ha, ha, hb]

theorem fadd_of_isInf_right (ha : isNaN a = false) (hai : isInf a = false) (hb : isInf b = true) : fadd a b = b := by
  simp [fadd, isNaN_eq_false_of_isInf hb, ha, hai, hb]

theorem fmul_of_isInf (ha : isNaN a = false) (hb : isNaN b = false) (h : isInf a = true ∨ isInf b = true) :
    fmul a b = if isZero a = true ∨ isZero b = true then qNaN else pack (fSign a != fSign b) infMag := by
  have hor : (isInf a || isInf b) = true := by simpa using h
  simp [fmul, ha, hb, hor]

theorem fdiv_of_isInf_left (ha : isInf a = true) (hb : isNaN b = false) :
    fdiv a b = if isInf b = true then qNaN else pack (fSign a != fSign b) infMag := by
  simp [fdiv, isNaN_eq_false_of_isInf ha, ha, hb]

theorem fdiv_of_isInf_right (ha : isFinite a = true) (hb : isInf b = true) :
    fdiv a b = pack (fSign a != fSign b) 0 := by
  simp [fdiv, isNaN_eq_false_of_finite ha, isInf_eq_false_of_finite ha, isNaN_eq_false_of_isInf hb, hb]

theorem fdiv_of_isZero (ha : isFinite a = true) (hb : isZero b = true) (hbf : isFinite b = true) :
    fdiv a b = if isZero a = true then qNaN else pack (fSign a != fSign b) infMag := by
  simp [fdiv, isNaN_eq_false_of_finite ha, isInf_eq_false_of_finite ha, isNaN_eq_false_of_finite hbf,
    isInf_eq_false_of_finite hbf, hb]

/-! ### Differences with an infinity, and the special operands together -/

/-- A difference is the sum with the negation, which keeps an infinity and inverts its sign. -/
theorem fsub_of_isInf_left (ha : isInf a = true) (hb : isNaN b = false) :
    fsub a b = if isInf b = true ∧ fSign a = fSign b then qNaN else a := by
  rw [fsub, fadd_of_isInf_left ha (by rwa [isNaN_fneg]), isInf_fneg hb, fSign_fneg hb]
  simp [Bool.eq_not]

theorem fsub_of_isInf_right (ha : isNaN a = false) (hai : isInf a = false) (hb : isInf b = true) :
    fsub a b = b ^^^ 0x80000000#32 := by
  have hbn := isNaN_eq_false_of_isInf hb
  rw [fsub, fadd_of_isInf_right ha hai (by rwa [isInf_fneg hbn]), fneg_eq_xor hbn]

/-- An infinity packed with a sign is one and has that sign. -/
theorem isInf_and_fSign_pack_infMag (sign : Bool) :
    isInf (pack sign infMag) = true ∧ fSign (pack sign infMag) = sign :=
  ⟨isInf_pack_infMag sign, fSign_pack sign infMag_lt⟩

/-- Settles O60, operation by operation: the laws above on each class of operands. -/
theorem specialOperandsGiveIeeeResults : Obligations.SpecialOperandsGiveIeeeResults := by
  intro a b sign
  refine ⟨fun h => ⟨fadd_of_isNaN h, fsub_of_isNaN h, fmul_of_isNaN h, fdiv_of_isNaN h⟩, fun ha hb =>
    ⟨fun hai hbi => ?_, fun hai hbi => ⟨fadd_of_isInf_right ha hai hbi, fsub_of_isInf_right ha hai hbi⟩,
      fun hai hbi => ?_, fun h => ?_, fun hai => ?_, fun hai => ?_⟩⟩
  · simp [fadd_of_isInf_left hai hb, fsub_of_isInf_left hai hb, hbi]
  · simp only [fadd_of_isInf_left hai hb, fsub_of_isInf_left hai hb, hbi, sign]
    cases fSign a <;> cases fSign b <;> simp
  · rw [fmul_of_isInf ha hb h]
    split
    · rfl
    · exact isInf_and_fSign_pack_infMag sign
  · rw [fdiv_of_isInf_left hai hb]
    split
    · rfl
    · exact isInf_and_fSign_pack_infMag sign
  · have haf := isFinite_of_not_isNaN_not_isInf ha hai
    split
    · next hbi =>
      rw [fdiv_of_isInf_right haf hbi]
      exact ⟨isZero_pack_zero sign, fSign_pack sign (by norm_num)⟩
    · next hbi =>
      have hbf := isFinite_of_not_isNaN_not_isInf hb (Bool.eq_false_iff.2 hbi)
      split
      · next hbz =>
        rw [fdiv_of_isZero haf hbz hbf]
        split
        · rfl
        · exact isInf_and_fSign_pack_infMag sign
      · trivial

/-! ### NaN results (R14) -/

/-- Whatever a sum answers, a kept infinity or a rounded value is no NaN. -/
theorem fadd_eq_qNaN_or_not_isNaN (a b : F32) : fadd a b = qNaN ∨ isNaN (fadd a b) = false := by
  unfold fadd
  split
  · exact .inl rfl
  · next hn =>
    obtain ⟨ha, hb⟩ : isNaN a = false ∧ isNaN b = false := by simpa using hn
    split
    · split
      · exact .inl rfl
      · exact .inr ha
    · split
      · exact .inr hb
      · exact .inr (isNaN_roundInt _ _)

theorem fmul_eq_qNaN_or_not_isNaN (a b : F32) : fmul a b = qNaN ∨ isNaN (fmul a b) = false := by
  unfold fmul
  split
  · exact .inl rfl
  · split
    · split
      · exact .inl rfl
      · exact .inr (isNaN_pack _ le_rfl)
    · exact .inr (isNaN_pack_roundMag _ _ _)

theorem fdiv_eq_qNaN_or_not_isNaN (a b : F32) : fdiv a b = qNaN ∨ isNaN (fdiv a b) = false := by
  unfold fdiv
  split
  · exact .inl rfl
  · split
    · split
      · exact .inl rfl
      · exact .inr (isNaN_pack _ le_rfl)
    · split
      · exact .inr (isNaN_pack _ (Nat.zero_le _))
      · split
        · split
          · exact .inl rfl
          · exact .inr (isNaN_pack _ le_rfl)
        · exact .inr (isNaN_pack_roundMag _ _ _)

/-- Settles O42: each operation answers the canonical NaN or no NaN (a difference is a sum). -/
theorem onlyCanonicalNaNResults : Obligations.OnlyCanonicalNaNResults := by
  intro a b r hr hn
  have key : r = qNaN ∨ isNaN r = false := by
    simp only [List.mem_cons, List.not_mem_nil, or_false] at hr
    rcases hr with rfl | rfl | rfl | rfl
    · exact fadd_eq_qNaN_or_not_isNaN a b
    · exact fadd_eq_qNaN_or_not_isNaN a (fneg b)
    · exact fmul_eq_qNaN_or_not_isNaN a b
    · exact fdiv_eq_qNaN_or_not_isNaN a b
  exact key.resolve_right (by simp [hn])

end Sys2Proof.Machine

/-! PROOFS. The comparisons follow the order of the values (R15), and the clamps give legal values (R17, R43). -/

namespace Sys2Proof.Machine

/-! ### The order (R15) -/

/-- A finite word's key lies strictly between the infinities' keys. -/
theorem fKey_bounds_of_isFinite {x : F32} (h : isFinite x = true) :
    -(infMag : Int) < fKey x ∧ fKey x < (infMag : Int) := by
  rw [isFinite_iff] at h
  unfold fKey
  split <;> omega

theorem fKey_of_isInf {x : F32} (h : isInf x = true) :
    fKey x = if fSign x = true then -(infMag : Int) else (infMag : Int) := by
  rw [fKey, (isInf_iff x).1 h]

theorem isFinite_eq_false_of_isInf {x : F32} (h : isInf x = true) : isFinite x = false := by
  rw [isFinite_eq_false_iff, (isInf_iff x).1 h]

theorem infMag_pos : 0 < infMag := by decide

/-- `a` lies below `b` in the order of R15 (log 13): an infinity lies beyond every finite value. -/
def ValueBelow (a b : F32) : Prop :=
  (isFinite a = true ∧ isFinite b = true ∧ scaled a < scaled b) ∨
  (isInf a = true ∧ fSign a = true ∧ (isFinite b = true ∨ (isInf b = true ∧ fSign b = false))) ∨
  (isFinite a = true ∧ isInf b = true ∧ fSign b = false)

/-- `a` and `b` have the same value; the two zeros have. -/
def ValueSame (a b : F32) : Prop :=
  (isFinite a = true ∧ isFinite b = true ∧ scaled a = scaled b) ∨
  (isInf a = true ∧ isInf b = true ∧ fSign a = fSign b)

section Keys
variable {a b : F32}

theorem fKey_lt_iff_of_isInf_isInf (ha : isInf a = true) (hb : isInf b = true) :
    fKey a < fKey b ↔ fSign a = true ∧ fSign b = false := by
  have hpos := infMag_pos
  rw [fKey_of_isInf ha, fKey_of_isInf hb]
  split <;> split <;> simp [*]

theorem fKey_lt_iff_of_isInf_isFinite (ha : isInf a = true) (hb : isFinite b = true) :
    fKey a < fKey b ↔ fSign a = true := by
  have hkey := fKey_bounds_of_isFinite hb
  rw [fKey_of_isInf ha]
  split <;> simp [*]
  omega

theorem fKey_lt_iff_of_isFinite_isInf (ha : isFinite a = true) (hb : isInf b = true) :
    fKey a < fKey b ↔ fSign b = false := by
  have hkey := fKey_bounds_of_isFinite ha
  rw [fKey_of_isInf hb]
  split <;> simp [*]
  omega

theorem fKey_ne_of_isFinite_isInf (ha : isFinite a = true) (hb : isInf b = true) : fKey a ≠ fKey b := by
  have hkey := fKey_bounds_of_isFinite ha
  rw [fKey_of_isInf hb]
  split <;> omega

theorem fKey_eq_iff_of_isInf_isInf (ha : isInf a = true) (hb : isInf b = true) :
    fKey a = fKey b ↔ fSign a = fSign b := by
  refine ⟨fun h => ?_, fun h => by rw [fKey_of_isInf ha, fKey_of_isInf hb, h]⟩
  have hab := fKey_lt_iff_of_isInf_isInf ha hb
  have hba := fKey_lt_iff_of_isInf_isInf hb ha
  cases hsa : fSign a <;> cases hsb : fSign b <;> simp_all

/-- The keys order the words as their values: finite words by `fKey_lt_iff`, an infinity beyond every finite key. -/
theorem fKey_lt_iff_valueBelow (ha : isNaN a = false) (hb : isNaN b = false) : fKey a < fKey b ↔ ValueBelow a b := by
  unfold ValueBelow
  cases hai : isInf a with
  | false =>
    have haf := isFinite_of_not_isNaN_not_isInf ha hai
    cases hbi : isInf b with
    | false => simp [haf, isFinite_of_not_isNaN_not_isInf hb hbi, fKey_lt_iff]
    | true => simp [haf, isFinite_eq_false_of_isInf hbi, fKey_lt_iff_of_isFinite_isInf haf hbi]
  | true =>
    have haf := isFinite_eq_false_of_isInf hai
    cases hbi : isInf b with
    | false =>
      have hbf := isFinite_of_not_isNaN_not_isInf hb hbi
      simp [haf, hbf, fKey_lt_iff_of_isInf_isFinite hai hbf]
    | true => simp [haf, isFinite_eq_false_of_isInf hbi, fKey_lt_iff_of_isInf_isInf hai hbi]

/-- Equal keys are equal values: an infinity's key is that of no finite word. -/
theorem fKey_eq_iff_valueSame (ha : isNaN a = false) (hb : isNaN b = false) : fKey a = fKey b ↔ ValueSame a b := by
  unfold ValueSame
  cases hai : isInf a with
  | false =>
    have haf := isFinite_of_not_isNaN_not_isInf ha hai
    cases hbi : isInf b with
    | false => simp [haf, isFinite_of_not_isNaN_not_isInf hb hbi, fKey_eq_iff]
    | true => simp [isFinite_eq_false_of_isInf hbi, fKey_ne_of_isFinite_isInf haf hbi]
  | true =>
    have haf := isFinite_eq_false_of_isInf hai
    cases hbi : isInf b with
    | false => simp [haf, (fKey_ne_of_isFinite_isInf (isFinite_of_not_isNaN_not_isInf hb hbi) hai).symm]
    | true => simp [haf, fKey_eq_iff_of_isInf_isInf hai hbi]

theorem fKey_le_iff_valueBelow_or_valueSame (ha : isNaN a = false) (hb : isNaN b = false) :
    fKey a ≤ fKey b ↔ ValueBelow a b ∨ ValueSame a b := by
  rw [← fKey_lt_iff_valueBelow ha hb, ← fKey_eq_iff_valueSame ha hb]
  exact le_iff_lt_or_eq

theorem flt_iff_fKey_lt (ha : isNaN a = false) (hb : isNaN b = false) : flt a b = true ↔ fKey a < fKey b := by
  simp [flt, ha, hb]

theorem fle_iff_fKey_le (ha : isNaN a = false) (hb : isNaN b = false) : fle a b = true ↔ fKey a ≤ fKey b := by
  simp [fle, ha, hb]

theorem feq_iff_fKey_eq (ha : isNaN a = false) (hb : isNaN b = false) : feq a b = true ↔ fKey a = fKey b := by
  simp [feq, ha, hb]

theorem comparisons_of_isNaN (h : isNaN a = true ∨ isNaN b = true) :
    flt a b = false ∧ fle a b = false ∧ feq a b = false ∧ fgt a b = false := by
  rcases h with h | h <;> simp [flt, fle, feq, fgt, h]

/-- Finite words compare as their values. -/
theorem flt_iff_scaled_lt (ha : isFinite a = true) (hb : isFinite b = true) :
    flt a b = true ↔ scaled a < scaled b :=
  (flt_iff_fKey_lt (isNaN_eq_false_of_finite ha) (isNaN_eq_false_of_finite hb)).trans (fKey_lt_iff a b)

end Keys

/-- Settles O43: the keys decide every comparison, and order the words as their values. -/
theorem comparisonsFollowValues : Obligations.ComparisonsFollowValues := by
  refine ⟨fun a b ha hb => ⟨?_, ?_, ?_, ?_⟩, fun a b h => comparisons_of_isNaN h⟩
  · exact (flt_iff_fKey_lt ha hb).trans (fKey_lt_iff_valueBelow ha hb)
  · exact (fle_iff_fKey_le ha hb).trans (fKey_le_iff_valueBelow_or_valueSame ha hb)
  · exact (feq_iff_fKey_eq ha hb).trans (fKey_eq_iff_valueSame ha hb)
  · exact (flt_iff_fKey_lt hb ha).trans (fKey_lt_iff_valueBelow hb ha)

/-! ### The clamps (R17, R43) -/

section Clamps
variable {v : F32}

theorem isFinite_fOne : isFinite fOne = true := by decide

theorem fInUnit_fOne : fInUnit fOne := by decide

theorem fInUnit_fZero : fInUnit fZero := by decide

/-- A finite word lies above +0.0 exactly where it is positive and no zero. -/
theorem fgt_fZero_iff (hv : isNaN v = false) : fgt v fZero = true ↔ fSign v = false ∧ 0 < fMag v := by
  rw [fgt, flt_iff_fKey_lt (by decide) hv, show fKey fZero = 0 by decide, fKey]
  cases fSign v <;> simp

theorem eq_fZero_of_not_fgt (hv : isNaN v = false) (hs : fSign v = false) (h : ¬ fgt v fZero = true) : v = fZero := by
  have hm : ¬ 0 < fMag v := fun hm => h ((fgt_fZero_iff hv).2 ⟨hs, hm⟩)
  exact eq_of_sign_mag hs (Nat.eq_zero_of_not_pos hm)

theorem clampLow0_legal (hv : isFinite v = true) : fSign (clampLow0 v) = false ∧ isFinite (clampLow0 v) = true := by
  unfold clampLow0
  split
  · next h => exact ⟨((fgt_fZero_iff (isNaN_eq_false_of_finite hv)).1 h).1, hv⟩
  · decide

theorem clampLow0_of_legal (hv : isFinite v = true) (hs : fSign v = false) : clampLow0 v = v := by
  unfold clampLow0
  split
  · rfl
  · next h => exact (eq_fZero_of_not_fgt (isNaN_eq_false_of_finite hv) hs h).symm

theorem clamp01_legal (hv : isFinite v = true) : fInUnit (clamp01 v) := by
  have hn := isNaN_eq_false_of_finite hv
  unfold clamp01
  split
  · next hpos =>
    split
    · next hlt =>
      rw [flt_iff_fKey_lt hn (by decide)] at hlt
      exact ⟨((fgt_fZero_iff hn).1 hpos).1, (fle_iff_fKey_le hn (by decide)).2 hlt.le⟩
    · exact fInUnit_fOne
  · exact fInUnit_fZero

/-- A positive value not above 1.0 that is not below it is 1.0. -/
theorem eq_fOne_of_fInUnit_of_not_flt (hv : isNaN v = false) (hu : fInUnit v) (h : ¬ flt v fOne = true) :
    v = fOne := by
  obtain ⟨hs, hle⟩ := hu
  have hone : isNaN fOne = false := by decide
  rw [fle_iff_fKey_le hv hone] at hle
  rw [flt_iff_fKey_lt hv hone] at h
  have hkey : fKey v = fKey fOne := by omega
  have hkv : fKey v = fMag v := by simp [fKey, hs]
  have hk1 : fKey fOne = fMag fOne := by decide
  exact eq_of_sign_mag hs (by omega)

theorem clamp01_of_fInUnit (hv : isFinite v = true) (hu : fInUnit v) : clamp01 v = v := by
  have hn := isNaN_eq_false_of_finite hv
  unfold clamp01
  split
  · split
    · rfl
    · next h => exact (eq_fOne_of_fInUnit_of_not_flt hn hu h).symm
  · next h => exact (eq_fZero_of_not_fgt hn hu.1 h).symm

end Clamps

/-- Settles O48: each clamp by the branches of its definition. -/
theorem clampsGiveLegalValues : Obligations.ClampsGiveLegalValues := fun _ hv =>
  ⟨clamp01_legal hv, clampLow0_legal hv, clamp01_of_fInUnit hv, clampLow0_of_legal hv⟩

end Sys2Proof.Machine

/-! PROOFS. The four operations round the exact result to nearest even (R13). -/

namespace Sys2Proof.Machine

/-! ### Rounding to nearest even (R13) -/

/-- Halfway between the largest finite value and the value the infinities' code stands for: 2^128 - 2^103, in units of
2^-149. -/
def overflowBound : Nat := (2 ^ 25 - 1) * 2 ^ 252

/-- The largest finite code is odd, so a tie with the infinities' code goes to the latter. -/
theorem exists_pred_infMag : ∃ k, infMag = k + 1 ∧ k % 2 = 1 ∧ scaledMag k ≤ overflowBound ∧
    overflowBound ≤ scaledMag infMag ∧ scaledMag k + scaledMag infMag = 2 * overflowBound :=
  ⟨0x7F7FFFFF, by decide, by decide, by norm_num [scaledMag, overflowBound],
    by norm_num [scaledMag_infMag, overflowBound],
    by rw [scaledMag_infMag]; norm_num [scaledMag, overflowBound]⟩

/-- Rounding without the bound: the code below the exact value or the next one, on the nearer side, the even one of two
equally near. -/
theorem roundMag_cases (n : Nat) {d : Nat} (hd : 0 < d) :
    ∃ k, scaledMag k * d ≤ n ∧ n < scaledMag (k + 1) * d ∧
      (roundMag n d = min k infMag ∧ 2 * n ≤ (scaledMag k + scaledMag (k + 1)) * d ∧
        (2 * n = (scaledMag k + scaledMag (k + 1)) * d → k % 2 = 0) ∨
      roundMag n d = min (k + 1) infMag ∧ (scaledMag k + scaledMag (k + 1)) * d ≤ 2 * n ∧
        (2 * n = (scaledMag k + scaledMag (k + 1)) * d → k % 2 = 1)) := by
  obtain ⟨k, hlo, hhi, hr⟩ := roundMag_spec n hd
  refine ⟨k, hlo, hhi, ?_⟩
  split at hr
  · next h => exact .inr ⟨hr, by omega, by omega⟩
  · next h => exact .inl ⟨hr, by omega, by omega⟩

/-- The distance of code `j`'s value from n/d, times d. -/
def codeDist (n d j : Nat) : Int := |(scaledMag j : Int) * d - n|

theorem scaledMag_mul_le {i j : Nat} (d : Nat) (h : i ≤ j) : scaledMag i * d ≤ scaledMag j * d :=
  Nat.mul_le_mul_right d (scaledMag_le_iff.2 h)

theorem scaledMag_mul_lt {i j d : Nat} (hd : 0 < d) (h : i < j) : scaledMag i * d < scaledMag j * d :=
  Nat.mul_lt_mul_of_pos_right (scaledMag_lt_iff.2 h) hd

theorem codeDist_of_le {n d j : Nat} (h : scaledMag j * d ≤ n) : codeDist n d j = n - (scaledMag j * d : Nat) := by
  unfold codeDist
  rw [abs_of_nonpos] <;> push_cast at * <;> omega

theorem codeDist_of_ge {n d j : Nat} (h : n ≤ scaledMag j * d) : codeDist n d j = (scaledMag j * d : Nat) - n := by
  unfold codeDist
  rw [abs_of_nonneg] <;> push_cast at * <;> omega

/-- A rounded magnitude that is finite is as near as any code, and even where another is as near. -/
theorem roundMag_nearest {n d : Nat} (hd : 0 < d) (hfin : roundMag n d < infMag) (j : Nat) :
    codeDist n d (roundMag n d) ≤ codeDist n d j ∧
    (codeDist n d (roundMag n d) = codeDist n d j → j ≠ roundMag n d → roundMag n d % 2 = 0) := by
  obtain ⟨k, hlo, hhi, hr⟩ := roundMag_cases n hd
  have hdk := codeDist_of_le hlo
  have hdk1 := codeDist_of_ge hhi.le
  rcases hr with ⟨hr, hnear, htie⟩ | ⟨hr, hnear, htie⟩
  · rw [show roundMag n d = k by omega, hdk]
    rw [Nat.add_mul] at hnear htie
    rcases lt_trichotomy j k with hj | rfl | hj
    · have := scaledMag_mul_lt hd hj
      rw [codeDist_of_le (by omega)]
      omega
    · rw [hdk]
      omega
    · have := scaledMag_mul_le d (show k + 1 ≤ j from hj)
      rw [codeDist_of_ge (by omega)]
      omega
  · rw [show roundMag n d = k + 1 by omega, hdk1]
    rw [Nat.add_mul] at hnear htie
    rcases lt_trichotomy j (k + 1) with hj | rfl | hj
    · have := scaledMag_mul_le d (Nat.le_of_lt_succ hj)
      rw [codeDist_of_le (by omega)]
      omega
    · rw [hdk1]
      omega
    · have := scaledMag_mul_lt hd hj
      rw [codeDist_of_ge (by omega)]
      omega

/-- Rounding overflows from halfway beyond the largest finite value on. -/
theorem roundMag_eq_infMag_iff (n : Nat) {d : Nat} (hd : 0 < d) :
    roundMag n d = infMag ↔ overflowBound * d ≤ n := by
  obtain ⟨m, hm, hodd, hlow, hhigh, hsum⟩ := exists_pred_infMag
  obtain ⟨k, hlo, hhi, hr⟩ := roundMag_cases n hd
  have hlow' := Nat.mul_le_mul_right d hlow
  have hhigh' := Nat.mul_le_mul_right d hhigh
  generalize infMag = top at *
  rcases lt_trichotomy k m with hk | rfl | hk
  · have hle := scaledMag_mul_le d (show k + 1 ≤ m from hk)
    constructor <;> intro h
    · have hk1 : k + 1 < top := by omega
      rcases hr with ⟨hr, -⟩ | ⟨hr, -⟩ <;> omega
    · omega
  · rw [← hm, hsum, Nat.mul_assoc] at hr
    omega
  · have hle := scaledMag_mul_le d (show top ≤ k by omega)
    constructor <;> intro h <;> omega

/-- An integer from its sign and magnitude. -/
def signed (sign : Bool) (m : Nat) : Int := if sign = true then -(m : Int) else (m : Int)

theorem scaled_eq_signed (x : F32) : scaled x = signed (fSign x) (scaledMag (fMag x)) := rfl

theorem abs_signed (sign : Bool) (m : Nat) : |signed sign m| = m := by cases sign <;> simp [signed]

theorem signed_eq_zero {sign : Bool} {m : Nat} : signed sign m = 0 ↔ m = 0 := by cases sign <;> simp [signed]

theorem decide_signed_neg (sign : Bool) {m : Nat} (h : m ≠ 0) : decide (signed sign m < 0) = sign := by
  cases sign <;> simp [signed]
  omega

theorem signed_mul_signed (s t : Bool) (m n : Nat) : signed s m * signed t n = signed (s != t) (m * n) := by
  cases s <;> cases t <;> simp [signed]

theorem signed_natAbs (zeroSign : Bool) (v : Int) :
    signed (if v = 0 then zeroSign else decide (v < 0)) v.natAbs = v := by
  rcases lt_trichotomy v 0 with h | rfl | h
  · simp [signed, h, h.ne, abs_of_neg h]
  · cases zeroSign <;> rfl
  · simp [signed, h.ne', not_lt_of_gt h, abs_of_pos h]

/-- Of one sign, the distance is that of the magnitudes. -/
theorem dist_same_sign (sign : Bool) (n d j : Nat) :
    |signed sign (scaledMag j) * d - signed sign n| = codeDist n d j := by
  cases sign with
  | false => rfl
  | true =>
    rw [codeDist, ← abs_neg]
    congr 1
    simp only [signed, if_pos]
    ring

/-- Of opposite signs, it is the magnitudes' sum. -/
theorem dist_opposite_sign (sign : Bool) (n d j : Nat) :
    |signed (!sign) (scaledMag j) * d - signed sign n| = (scaledMag j * d : Nat) + n := by
  have hnonneg : (0 : Int) ≤ (scaledMag j * d : Nat) + n := by omega
  cases sign with
  | false =>
    rw [← abs_neg, ← abs_of_nonneg hnonneg]
    congr 1
    simp [signed]
    ring
  | true =>
    rw [← abs_of_nonneg hnonneg]
    simp [signed]

theorem codeDist_zero (n d : Nat) : codeDist n d 0 = n := by simp [codeDist]

/-- No finite word is nearer to ±n/d than the word of its sign and its rounded magnitude, which is even where another
value is as near: one of the other sign is as near only if it is a zero. -/
theorem pack_roundMag_nearest (sign : Bool) {n d : Nat} (hd : 0 < d) (hfin : roundMag n d < infMag) (y : F32) :
    codeDist n d (roundMag n d) ≤ |scaled y * d - signed sign n| ∧
    (codeDist n d (roundMag n d) = |scaled y * d - signed sign n| →
      scaled y ≠ signed sign (scaledMag (roundMag n d)) → roundMag n d % 2 = 0) := by
  rw [scaled_eq_signed]
  by_cases hs : fSign y = sign
  · obtain ⟨hle, heven⟩ := roundMag_nearest hd hfin (fMag y)
    rw [hs, dist_same_sign]
    exact ⟨hle, fun heq hne => heven heq fun h => hne (by rw [h])⟩
  · obtain ⟨hle, heven⟩ := roundMag_nearest hd hfin 0
    rw [codeDist_zero] at hle heven
    rw [Bool.eq_not.2 hs, dist_opposite_sign]
    refine ⟨by omega, fun heq _ => ?_⟩
    by_cases h0 : roundMag n d = 0
    · rw [h0]
    · exact heven (by omega) (Ne.symm h0)

/-- The rounded word of a sign and a magnitude n/d rounds ±n/d. -/
theorem roundsTo_pack_roundMag (sign zeroSign : Bool) {n d : Nat} (hd : 0 < d) (hzero : n = 0 → zeroSign = sign) :
    RoundsTo (pack sign (roundMag n d)) (signed sign n) d zeroSign := by
  have hlt := roundMag_lt n d
  have hval : scaled (pack sign (roundMag n d)) = signed sign (scaledMag (roundMag n d)) := scaled_pack sign hlt
  refine ⟨isNaN_pack_roundMag sign n d, fun hfin y _ => ?_, ?_, ?_⟩
  · rw [isFinite_iff, fMag_pack sign hlt] at hfin
    rw [fMag_pack sign hlt, hval, dist_same_sign]
    exact pack_roundMag_nearest sign hd hfin y
  · rw [isInf_iff, fMag_pack sign hlt, abs_signed, roundMag_eq_infMag_iff n hd, ← Int.ofNat_le, overflowBound]
    push_cast
    rfl
  · rw [fSign_pack sign hlt]
    split
    · next h => exact (hzero (signed_eq_zero.1 h)).symm
    · next h => exact (decide_signed_neg sign (mt signed_eq_zero.2 h)).symm

/-! ### The operations on finite values -/

theorem roundsTo_roundInt (zeroSign : Bool) (v : Int) : RoundsTo (roundInt zeroSign v) v 1 zeroSign := by
  have h := roundsTo_pack_roundMag (if v = 0 then zeroSign else decide (v < 0)) zeroSign (n := v.natAbs) one_pos
    (fun h0 => by rw [if_pos (Int.natAbs_eq_zero.1 h0)])
  rwa [signed_natAbs, ← roundInt_eq_pack, Nat.cast_one] at h

section Operations
variable {a b : F32}

theorem roundsTo_fadd (ha : isFinite a = true) (hb : isFinite b = true) :
    RoundsTo (fadd a b) (scaled a + scaled b) 1 (fSign a && fSign b) := by
  rw [fadd_finite ha hb]
  exact roundsTo_roundInt _ _

theorem roundsTo_fsub (ha : isFinite a = true) (hb : isFinite b = true) :
    RoundsTo (fsub a b) (scaled a - scaled b) 1 (fSign a && !fSign b) := by
  rw [fsub_finite ha hb]
  exact roundsTo_roundInt _ _

theorem roundsTo_fmul (ha : isFinite a = true) (hb : isFinite b = true) :
    RoundsTo (fmul a b) (scaled a * scaled b) (2 ^ 149) (fSign a != fSign b) := by
  rw [fmul_finite ha hb, scaled_eq_signed, scaled_eq_signed, signed_mul_signed]
  exact_mod_cast roundsTo_pack_roundMag _ _ (Nat.two_pow_pos 149) fun _ => rfl

/-- The exact quotient, written over the divisor's magnitude: `scaled b`'s sign goes to the numerator. -/
theorem roundsTo_fdiv (ha : isFinite a = true) (hb : isFinite b = true) (h0 : isZero b = false) :
    RoundsTo (fdiv a b) (scaled a * 2 ^ 149 * (scaled b).sign) |scaled b| (fSign a != fSign b) := by
  have hpos : 0 < scaledMag (fMag b) := by
    rw [Nat.pos_iff_ne_zero, Ne, scaledMag_eq_zero, ← isZero_iff, h0]
    simp
  have hsign : (scaled b).sign = signed (fSign b) 1 := by
    rw [scaled_eq_signed]
    cases fSign b <;> simp [signed, Int.sign_eq_one_of_pos, hpos]
  have hnum : scaled a * 2 ^ 149 * (scaled b).sign =
      signed (fSign a != fSign b) (scaledMag (fMag a) * 2 ^ 149) := by
    rw [hsign, mul_right_comm, scaled_eq_signed a, signed_mul_signed, Nat.mul_one]
    cases fSign a != fSign b <;> simp [signed]
  rw [fdiv_finite ha hb h0, hnum, scaled_eq_signed b, abs_signed]
  exact roundsTo_pack_roundMag _ _ hpos fun _ => rfl

end Operations

/-- Settles O41, operation by operation: each rounds its exact result once. -/
theorem operationsRoundToNearestEven : Obligations.OperationsRoundToNearestEven := fun _ _ ha hb =>
  ⟨roundsTo_fadd ha hb, roundsTo_fsub ha hb, roundsTo_fmul ha hb, roundsTo_fdiv ha hb⟩

end Sys2Proof.Machine

/-! PROOFS. The values rounding keeps: the floor, the fraction and the integers up to 2^24 (R16). -/

namespace Sys2Proof.Machine

/-! ### Values that rounding keeps (R16) -/

/-- An integer, in units of 2^-149, that is the value of a finite word. -/
def Representable (v : Int) : Prop := ∃ m, m < infMag ∧ scaledMag m = v.natAbs

/-- A quotient of at most 24 bits in the unit 2^e is a finite word's value: double it until it fills its 24 bits or the
unit is 1. -/
theorem exists_code_mul_two_pow {q e : Nat} (hq : q ≤ 2 ^ 24) (he : e ≤ 252) :
    ∃ m, m < infMag ∧ scaledMag m = q * 2 ^ e := by
  have hinf : infMag = 255 * 2 ^ 23 := by decide
  induction e generalizing q with
  | zero =>
    have hcode := scaledMag_code (e := 0) hq (.inl rfl)
    exact ⟨0 * 2 ^ 23 + q, by omega, hcode⟩
  | succ e ih =>
    by_cases hfull : 2 ^ 23 ≤ q
    · exact ⟨(e + 1) * 2 ^ 23 + q, by omega, scaledMag_code hq (.inr hfull)⟩
    · obtain ⟨m, hm, hval⟩ := ih (q := 2 * q) (by omega) (by omega)
      exact ⟨m, hm, by rw [hval]; ring⟩

theorem representable_of_natAbs {v : Int} {q e : Nat} (hq : q ≤ 2 ^ 24) (he : e ≤ 252) (hv : v.natAbs = q * 2 ^ e) :
    Representable v := by
  rw [Representable, hv]
  exact exists_code_mul_two_pow hq he

theorem representable_mul_unit {n : Int} (hn : |n| ≤ 2 ^ 24) : Representable (n * 2 ^ 149) :=
  representable_of_natAbs (q := n.natAbs) (e := 149) (by rw [Int.abs_eq_natAbs] at hn; omega) (by norm_num)
    (by rw [Int.natAbs_mul]; rfl)

theorem representable_scaled {x : F32} (hx : isFinite x = true) : Representable (scaled x) :=
  ⟨fMag x, (isFinite_iff x).1 hx, (natAbs_scaled x).symm⟩

/-- A representable value is kept by rounding. -/
theorem roundInt_of_representable {v : Int} (h : Representable v) (zeroSign : Bool) :
    isFinite (roundInt zeroSign v) = true ∧ scaled (roundInt zeroSign v) = v ∧
      fSign (roundInt zeroSign v) = if v = 0 then zeroSign else decide (v < 0) := by
  obtain ⟨m, hm, hval⟩ := h
  have hm31 := lt_trans hm infMag_lt
  have hround := roundMag_exact (d := 1) one_pos hm.le
  rw [hval, Nat.mul_one] at hround
  rw [roundInt_eq_pack, hround, isFinite_iff, fMag_pack _ hm31, fSign_pack _ hm31, scaled_eq_signed, fMag_pack _ hm31,
    fSign_pack _ hm31, hval, signed_natAbs]
  exact ⟨hm, rfl, rfl⟩

/-- The value of a magnitude code is a 24-bit quotient in a power of two. -/
theorem exists_scaledMag_eq (m : Nat) : ∃ q e, q < 2 ^ 24 ∧ scaledMag m = q * 2 ^ e := by
  unfold scaledMag
  split
  · exact ⟨m, 0, by omega, by simp⟩
  · exact ⟨_, _, by omega, rfl⟩

/-! ### The floor and the fraction -/

/-- Every finite word is an integer, or its unit is finer than 1 and 24 bits of it make the value. -/
theorem scaled_dvd_or_fine (x : F32) :
    (2 ^ 149 : Int) ∣ scaled x ∨ ∃ e q, e ≤ 148 ∧ q < 2 ^ 24 ∧ (scaled x).natAbs = q * 2 ^ e := by
  obtain ⟨q, e, hq, hval⟩ := exists_scaledMag_eq (fMag x)
  rw [← natAbs_scaled] at hval
  by_cases he : e ≤ 148
  · exact .inr ⟨e, q, he, hq, hval⟩
  · left
    rw [← Int.natAbs_dvd_natAbs, hval]
    exact Dvd.dvd.mul_left (pow_dvd_pow 2 (by omega)) q

theorem representable_floor {x : F32} (hx : isFinite x = true) : Representable (scaled x / 2 ^ 149 * 2 ^ 149) := by
  rcases scaled_dvd_or_fine x with hdvd | ⟨e, q, he, hq, hval⟩
  · rw [Int.ediv_mul_cancel hdvd]
    exact representable_scaled hx
  · have hbound : (scaled x).natAbs ≤ 2 ^ 24 * 2 ^ 149 := by
      rw [hval]
      exact Nat.mul_le_mul hq.le (Nat.pow_le_pow_right (by norm_num) (by omega))
    exact representable_mul_unit (abs_le.2 (by omega))

theorem representable_fraction {x : F32} (hs : fSign x = false) :
    Representable (scaled x % 2 ^ 149) := by
  rcases scaled_dvd_or_fine x with hdvd | ⟨e, q, he, hq, hval⟩
  · rw [Int.emod_eq_zero_of_dvd hdvd]
    exact ⟨0, infMag_pos, scaledMag_zero⟩
  · have hnonneg : scaled x = (q * 2 ^ e : Nat) := by
      rw [← hval, natAbs_scaled, scaled_eq, hs]
      rfl
    have hmod : q * 2 ^ e % 2 ^ 149 = q % 2 ^ (149 - e) * 2 ^ e := by
      rw [← Nat.mul_mod_mul_right, ← pow_add, Nat.sub_add_cancel (by omega)]
    refine representable_of_natAbs (q := q % 2 ^ (149 - e)) (e := e) (le_trans (Nat.mod_le _ _) hq.le) (by omega) ?_
    rw [hnonneg, ← hmod]
    exact_mod_cast Int.natAbs_natCast _

theorem ffloor_spec {x : F32} (hx : isFinite x = true) :
    isFinite (ffloor x) = true ∧ scaled (ffloor x) = scaled x / 2 ^ 149 * 2 ^ 149 := by
  cases hz : isZero x with
  | true =>
    have hkept : ffloor x = x := by
      simp [ffloor, isNaN_eq_false_of_finite hx, hz]
    rw [hkept, scaled_eq_zero.2 hz]
    exact ⟨hx, rfl⟩
  | false =>
    have hround : ffloor x = roundInt false (scaled x / 2 ^ 149 * 2 ^ 149) := by
      simp only [ffloor, isNaN_eq_false_of_finite hx, isInf_eq_false_of_finite hx, hz, Bool.or_self, Bool.false_eq_true,
        if_false]
    obtain ⟨hfin, hval, -⟩ := roundInt_of_representable (representable_floor hx) false
    rw [hround]
    exact ⟨hfin, hval⟩

theorem scaledMag_fMag_fOne : scaledMag (fMag fOne) = 2 ^ 149 := by decide +kernel

theorem scaled_fOne : scaled fOne = 2 ^ 149 := by
  rw [scaled_eq, show fSign fOne = false by decide, scaledMag_fMag_fOne]
  rfl

theorem fsub_ffloor_spec {x : F32} (hx : isFinite x = true) (hs : fSign x = false) :
    scaled (fsub x (ffloor x)) = scaled x % 2 ^ 149 ∧ fInRange (fsub x (ffloor x)) fOne := by
  obtain ⟨hfloor, hfloorval⟩ := ffloor_spec hx
  have hfrac : scaled x - scaled (ffloor x) = scaled x % 2 ^ 149 := by omega
  obtain ⟨hfin, hval, hsign⟩ := roundInt_of_representable (representable_fraction hs) (fSign x && !fSign (ffloor x))
  rw [← hfrac, ← fsub_finite hx hfloor] at hfin hval hsign
  rw [hfrac] at hval hsign
  have hnonneg : ¬ scaled x % 2 ^ 149 < 0 := by omega
  refine ⟨hval, ?_, ?_⟩
  · rw [hsign, hs, decide_eq_false hnonneg, Bool.false_and, ite_self]
  · rw [flt_iff_scaled_lt hfin isFinite_fOne, hval, scaled_fOne]
    omega

theorem toInt_of_dvd {x : F32} (hx : isFinite x = true) (hint : scaled x % 2 ^ 149 = 0) :
    toInt x * 2 ^ 149 = scaled x := by
  rw [toInt, if_pos hx, Int.ediv_mul_cancel (Int.dvd_of_emod_eq_zero hint)]

theorem fromInt_spec {n : Int} (hn : |n| ≤ 2 ^ 24) :
    isFinite (fromInt n) = true ∧ scaled (fromInt n) = n * 2 ^ 149 ∧ fSign (fromInt n) = decide (n < 0) := by
  obtain ⟨hfin, hval, hsign⟩ := roundInt_of_representable (representable_mul_unit hn) false
  refine ⟨hfin, hval, hsign.trans ?_⟩
  split
  · exact (decide_eq_false (by omega)).symm
  · exact decide_eq_decide.2 (by omega)

/-- Settles O44: floor, fraction and `fromInt` are values that rounding keeps. -/
theorem floorAndFractionAreExact : Obligations.FloorAndFractionAreExact := by
  refine ⟨fun x hx => ?_, fun n hn => fromInt_spec hn⟩
  obtain ⟨hfin, hval⟩ := ffloor_spec hx
  exact ⟨hfin, hval, fsub_ffloor_spec hx, toInt_of_dvd hx⟩

end Sys2Proof.Machine

/-! PROOFS. WT_INIT fills the table once, and every entry of WAVE lies in [-1, 1] (R8, R9, R130, R131). -/

namespace Sys2Proof.Machine

/-! ### WAVE (R8, R9) -/

theorem fMag_fOne_lt : fMag fOne < infMag := by decide

/-- A magnitude code not above 1.0's gives a finite value in [-1, 1]. -/
theorem pack_in_unit (sign : Bool) {m : Nat} (h : m ≤ fMag fOne) :
    isFinite (pack sign m) = true ∧ |scaled (pack sign m)| ≤ 2 ^ 149 := by
  have hlt : m < infMag := lt_of_le_of_lt h fMag_fOne_lt
  have hm31 := lt_trans hlt infMag_lt
  refine ⟨(isFinite_iff _).2 (by rwa [fMag_pack _ hm31]), ?_⟩
  rw [scaled_eq_signed, abs_signed, fMag_pack _ hm31]
  exact_mod_cast scaledMag_fMag_fOne ▸ scaledMag_le_iff.2 h

theorem quarterSine_le (N j : Nat) : quarterSine N j ≤ fMag fOne := by
  unfold quarterSine
  split
  · exact Nat.zero_le _
  · exact Nat.min_le_right ..

/-- Every entry of a table is a sign and a magnitude not above 1.0. -/
theorem waveEntry_eq_pack (w : Wave) (N k : Nat) : ∃ sign m, m ≤ fMag fOne ∧ waveEntry w N k = pack sign m := by
  cases w with
  | sine =>
    simp only [waveEntry, sine]
    split <;> exact ⟨_, _, quarterSine_le _ _, rfl⟩
  | custom => exact ⟨_, _, Nat.min_le_right .., rfl⟩

theorem waveEntry_in_unit (w : Wave) (N k : Nat) :
    isFinite (waveEntry w N k) = true ∧ |scaled (waveEntry w N k)| ≤ 2 ^ 149 := by
  obtain ⟨sign, m, hm, heq⟩ := waveEntry_eq_pack w N k
  rw [heq]
  exact pack_in_unit sign hm

/-! ### WT_INIT (R130, R131) -/

theorem decode_wtInit (arg : Word) :
    decode .host 0x0000000C arg = .ok (.wtInit arg.toInt) ∧ decode .ctrl 0x0000000C arg = .error .notOnThisPort :=
  ⟨rfl, rfl⟩

/-- A list of one cell for each index of a sorted list of indices, read back. -/
theorem Cells.read_map_range' (f : Nat → Word) {n i k : Nat} (hi : i ≤ k) (hk : k < i + n) :
    Cells.read ((List.range' i n).map fun j => (j, f j)) k = some (f k) := by
  induction n generalizing i with
  | zero => omega
  | succ n ih =>
    rw [List.range'_succ, List.map_cons, Cells.read]
    by_cases h : i = k
    · rw [if_pos h, h]
    · rw [if_neg h, ih (by omega) (by omega)]

/-- Entry k of the table an initialisation writes (R130, R132). -/
theorem Cells.read_wtTable (p : Params) {N k : Nat} (hk : k < N) :
    Cells.read (wtTable p N) k = some (waveEntry p.wave N k) := by
  rw [wtTable, List.range_eq_range']
  exact Cells.read_map_range' (waveEntry p.wave N) (Nat.zero_le k) (by omega)

theorem wtClampSize_eq {p : Params} (hp : p.Legal) (size : Int) :
    (wtClampSize p size : Int) = min (max size 2) (p.wtMaxSize : Int) := by
  unfold wtClampSize
  omega

theorem wtClampSize_lt {p : Params} (hp : p.Legal) (size : Int) : wtClampSize p size < 2 ^ 32 := by
  obtain ⟨-, -, -, ⟨-, hmax⟩, -⟩ := hp
  unfold wtClampSize
  omega

theorem wtInitialise_of_valid {s : State} (h : s.status.wtValid = true) (size : Int) : s.wtInitialise size = s := by
  simp [State.wtInitialise, h]

/-- The first initialisation (R130). -/
theorem wtInitialise_of_not_valid {s : State} (h : s.status.wtValid = false) (size : Int) :
    s.wtInitialise size =
      { s with
        wt := { size := BitVec.ofNat 32 (wtClampSize s.params size)
                table := wtTable s.params (wtClampSize s.params size) }
        status := { s.status with wtValid := true } } := by
  simp [State.wtInitialise, h]

theorem exec_wtInit (size : Int) (s : State) : exec (.wtInit size) s = .next (s.wtInitialise size) := rfl

/-- R131: the first WT_INIT. -/
theorem exec_wtInit_first {s : State} (hp : s.params.Legal) (h : s.status.wtValid = false) (size : Int) :
    ∃ t, exec (.wtInit size) s = .next t ∧
      (t.wt.size.toNat : Int) = min (max size 2) (s.params.wtMaxSize : Int) ∧
      (∀ k, k < t.wt.size.toNat → t.wtEntry k = waveEntry s.params.wave t.wt.size.toNat k) ∧
      t.status = { s.status with wtValid := true } ∧ t = { s with wt := t.wt, status := t.status } := by
  have hsize : (BitVec.ofNat 32 (wtClampSize s.params size)).toNat = wtClampSize s.params size := by
    rw [BitVec.toNat_ofNat, Nat.mod_eq_of_lt (wtClampSize_lt hp size)]
  rw [exec_wtInit, wtInitialise_of_not_valid h]
  refine ⟨_, rfl, ?_, fun k hk => ?_, rfl, rfl⟩
  · rw [hsize, wtClampSize_eq hp]
  · rw [hsize] at hk ⊢
    rw [State.wtEntry, Cells.read_wtTable _ hk, Option.getD_some]

/-- R9's table of `SINE` for N = 4. -/
theorem sine_four : (List.range 4).map (waveEntry .sine 4) = [0x00000000, 0x3F800000, 0x00000000, 0xBF800000] := by
  decide +kernel

theorem sine_eight : (List.range 8).map (waveEntry .sine 8) =
    [0x00000000, 0x3F3504F3, 0x3F800000, 0x3F3504F3, 0x00000000, 0xBF3504F3, 0xBF800000, 0xBF3504F3] := by
  decide +kernel

/-- Settles O15: the first and the later calls, the bounds of WAVE, and the two listed tables. -/
theorem wtInitFillsTableOnce : Obligations.WtInitFillsTableOnce := by
  refine ⟨fun s arg hp => ?_, waveEntry_in_unit, sine_four, sine_eight⟩
  obtain ⟨hhost, hctrl⟩ := decode_wtInit arg
  exact ⟨hhost, hctrl, fun h => by rw [exec_wtInit, wtInitialise_of_valid h], fun h => exec_wtInit_first hp h _⟩

end Sys2Proof.Machine

/-! PROOFS. What a command can do, said once, and what every command leaves unchanged (R38, R49, R50). -/

namespace Sys2Proof.Machine

/-! ### The effect of a command -/

/-- What a command changes: the staging registers and STATUS's record fields, or one of the engine's own updates, each
with what its checks established. -/
inductive CommandEffect (s : State) : Instr → State → Prop
  | record (i : Instr) (cfg : Staging) (initOk : Bool) (initCode : InitCode) (sticky : BitVec 5) :
      CommandEffect s i { s with
        cfg := cfg, status := { s.status with initOk := initOk, initCode := initCode, sticky := sticky } }
  | init (cap : Nat) (hready : s.status.ready = false) (hcheck : initCheck s.params s.cfg = .ok cap) :
      CommandEffect s .init (s.initApply cap)
  | reset : CommandEffect s .reset { s.zeroSpec.dlRelease.oscReset with status := { s.status with ready := false } }
  | clear (hready : s.status.ready = true) : CommandEffect s .clear s.dlClear
  | process (hready : s.status.ready = true) :
      CommandEffect s (.process s.spec.blockSize) (s.startBlock s.spec.blockSize)
  | wtInit (size : Int) : CommandEffect s (.wtInit size) (s.wtInitialise size)
  | setMix (v : F32) (hready : s.status.ready = true) (hv : isFinite v = true) :
      CommandEffect s (.setMix v) { s with par := { s.par with mix := clamp01 v } }
  | setFeedback (v : F32) (hready : s.status.ready = true) (hv : isFinite v = true) :
      CommandEffect s (.setFeedback v) { s with par := { s.par with feedback := clamp01 v } }
  | setDelayTime (v : F32) (hready : s.status.ready = true) (hv : isFinite v = true) :
      CommandEffect s (.setDelayTime v) { s with par := { s.par with delayTime := clampLow0 v } }
  | setLfoAmp (v : F32) (hready : s.status.ready = true) (hv : isFinite v = true) :
      CommandEffect s (.setLfoAmp v) (State.oscSetGain { s with par := { s.par with lfoAmp := v } } v)
  | setLfoFreq (v : F32) (hready : s.status.ready = true) (hv : isFinite v = true) :
      CommandEffect s (.setLfoFreq v) (State.oscSetFrequency { s with par := { s.par with lfoFreq := v } } v)

theorem CommandEffect.unchanged (s : State) (i : Instr) : CommandEffect s i s := .record i _ _ _ _

theorem CommandEffect.flagged (s : State) (i : Instr) (x : Sticky) : CommandEffect s i (s.flag x) := .record i _ _ _ _

theorem CommandEffect.staged (s : State) (i : Instr) (cfg : Staging) : CommandEffect s i { s with cfg := cfg } :=
  .record i _ _ _ _

/-- A setter behind its guard does nothing, flags ERR_NONFINITE or has its effect (R250, R251). -/
theorem CommandEffect.guarded {s e : State} {i : Instr} {v : F32}
    (he : s.status.ready = true → isFinite v = true → CommandEffect s i e) :
    CommandEffect s i (s.setterGuard v e) := by
  unfold State.setterGuard
  split
  · next hready =>
    split
    · next hv => exact he hready hv
    · exact .flagged s i _
  · exact .unchanged s i

theorem execInit_effect (s : State) : ∃ t, execInit s = .next t ∧ CommandEffect s .init t := by
  unfold execInit
  split
  · exact ⟨_, rfl, .record _ _ _ _ _⟩
  · next hready =>
    split
    · exact ⟨_, rfl, .record _ _ _ _ _⟩
    · next cap hcheck => exact ⟨_, rfl, .init cap (Bool.eq_false_iff.2 hready) hcheck⟩

theorem execClear_effect (s : State) : ∃ t, execClear s = .next t ∧ CommandEffect s .clear t := by
  unfold execClear
  split
  · next hready => exact ⟨_, rfl, .clear hready⟩
  · exact ⟨_, rfl, .unchanged s _⟩

theorem execProcess_effect (n : Word) (s : State) :
    ∃ t, execProcess n s = .next t ∧ CommandEffect s (.process n) t := by
  unfold execProcess
  split
  · next hready =>
    split
    · next hn => subst hn; exact ⟨_, rfl, .process hready⟩
    · exact ⟨_, rfl, .flagged s _ _⟩
  · exact ⟨_, rfl, .unchanged s _⟩

/-- Every command has a next state, and it is one of its effects. -/
theorem exec_effect (i : Instr) (s : State) : ∃ t, exec i s = .next t ∧ CommandEffect s i t := by
  cases i with
  | cfgSampleRate v => exact ⟨_, rfl, .staged s _ _⟩
  | cfgBlockSize v => exact ⟨_, rfl, .staged s _ _⟩
  | cfgChannels v => exact ⟨_, rfl, .staged s _ _⟩
  | cfgMaxDelay v => exact ⟨_, rfl, .staged s _ _⟩
  | init => exact execInit_effect s
  | reset => exact ⟨_, rfl, .reset⟩
  | clear => exact execClear_effect s
  | process n => exact execProcess_effect n s
  | wtInit size => exact ⟨_, rfl, .wtInit size⟩
  | statusClear mask => exact ⟨_, rfl, .record _ _ _ _ _⟩
  | setMix v => exact ⟨_, rfl, .guarded (.setMix v)⟩
  | setFeedback v => exact ⟨_, rfl, .guarded (.setFeedback v)⟩
  | setDelayTime v => exact ⟨_, rfl, .guarded (.setDelayTime v)⟩
  | setLfoAmp v => exact ⟨_, rfl, .guarded (.setLfoAmp v)⟩
  | setLfoFreq v => exact ⟨_, rfl, .guarded (.setLfoFreq v)⟩

theorem CommandEffect.of_exec {i : Instr} {s t : State} (h : exec i s = .next t) : CommandEffect s i t := by
  obtain ⟨u, hu, heffect⟩ := exec_effect i s
  cases hu.symm.trans h
  exact heffect

/-! ### What every command leaves unchanged -/

/-- INIT_APPLY's last state by its fields (R211). -/
theorem State.initApply_eq (s : State) (cap : Nat) :
    s.initApply cap = { s with
      spec := { sampleRate := s.cfg.sampleRate, blockSize := s.cfg.blockSize, channels := s.cfg.channels }
      dl := { capacity := BitVec.ofNat 32 cap, len := fZero, heads := List.replicate s.params.maxChannels 0
              alloc := true, ram := [] }
      wt := (s.wtInitialise s.params.wtDefaultSize).wt
      osc := { phase := fZero, inc := fdiv s.par.lfoFreq s.cfg.sampleRate, gain := s.par.lfoAmp
               freq := s.par.lfoFreq, bound := true }
      status := { s.status with ready := true, initOk := true, initCode := .ok, wtValid := true } } := by
  unfold State.initApply State.wtInitialise
  cases hwt : s.status.wtValid <;> simp [State.initSucceeded, State.oscBind, State.dlPrepare, State.setSpec, hwt]

/-- A command writes STATUS, the staging registers and the engine's registers and memories only. -/
theorem CommandEffect.frame {s t : State} {i : Instr} (h : CommandEffect s i t) :
    t = { s with
      status := t.status, cfg := t.cfg, spec := t.spec, par := t.par, osc := t.osc, dl := t.dl, wt := t.wt
      seq := t.seq } := by
  cases h with
  | init cap => rw [State.initApply_eq]
  | wtInit size =>
    unfold State.wtInitialise
    split <;> rfl
  | _ => rfl

theorem CommandEffect.params {s t : State} {i : Instr} (h : CommandEffect s i t) : t.params = s.params := by
  rw [h.frame]

theorem CommandEffect.ctrl {s t : State} {i : Instr} (h : CommandEffect s i t) : t.ctrl = s.ctrl := by
  rw [h.frame]

/-- Only PROCESS writes the sequencing registers (R50). -/
theorem CommandEffect.seq {s t : State} {i : Instr} (h : CommandEffect s i t) (hi : ∀ n, i ≠ .process n) :
    t.seq = s.seq := by
  cases h with
  | init cap => rw [State.initApply_eq]
  | wtInit size => exact State.wtInitialise_seq s size
  | process => exact absurd rfl (hi _)
  | _ => rfl

/-- Settles O22: by the fields a command writes. -/
theorem commandsLeaveBufferAndArgs : Obligations.CommandsLeaveBufferAndArgs := by
  intro i s t h
  have heffect := CommandEffect.of_exec h
  have hframe := heffect.frame
  refine ⟨fun a => ?_, ?_, ?_, ?_, ?_, ?_, heffect.seq⟩ <;> rw [hframe]
  rfl

end Sys2Proof.Machine

/-! PROOFS. What a step can do to the block, said once: which word is which command's, what a master's access does, and
which agent's step it is (R39, R104, R105, R320, R321). -/

namespace Sys2Proof.Machine

/-! ### The word of a decoded command (R101 to R105) -/

/-- The opcode that selects a command is the command's own. -/
theorem opcodeOf_commandOf {opc : Nat} {arg : Word} {i : Instr} (h : commandOf opc arg = some i) :
    (opcodeOf i).toNat = opc := by
  unfold commandOf at h
  split at h
  case h_16 => cases h
  all_goals
    cases h
    rfl

/-- A word is its fields RSVD and OPC. -/
theorem eq_setWidth_opcOf {cmdw : Word} (h : rsvdOf cmdw = 0) : cmdw = (opcOf cmdw).setWidth 32 := by
  have hrsvd := congrArg BitVec.toNat h
  simp only [rsvdOf, BitVec.extractLsb'_toNat, Nat.shiftRight_eq_div_pow, BitVec.ofNat_eq_ofNat, BitVec.toNat_ofNat]
    at hrsvd
  apply BitVec.eq_of_toNat_eq
  simp only [opcOf, BitVec.toNat_setWidth, BitVec.extractLsb'_toNat, Nat.shiftRight_eq_div_pow]
  have := cmdw.isLt
  norm_num at hrsvd ⊢
  omega

/-- A word that decodes is the command word of its command, which is legal on the port. -/
theorem decode_ok {p : Port} {cmdw arg : Word} {i : Instr} (h : decode p cmdw arg = .ok i) :
    cmdw = cmdwOf i ∧ i.legalOn p = true := by
  unfold decode at h
  split at h
  · cases h
  · next hrsvd =>
    split at h
    · cases h
    · next j hj =>
      split at h
      · next hlegal =>
        cases h
        have hopc : opcodeOf i = opcOf cmdw := BitVec.eq_of_toNat_eq (opcodeOf_commandOf hj)
        exact ⟨by rw [cmdwOf, hopc, ← eq_setWidth_opcOf (not_not.1 hrsvd)], hlegal⟩
      · cases h

/-! ### The command registers -/

/-- The command register of a port. -/
def cmdReg : Port → Reg
  | .host => .hostCmd
  | .ctrl => .ctrlCmd

theorem regTable_lookup_ctrlCmd {off : Nat} (h : regTable.lookup off = some .ctrlCmd) : off = 0x014 := by
  simp only [regTable, List.cons_append, List.nil_append, List.lookup] at h
  repeat' split at h
  all_goals simp_all

theorem regTable_lookup_cmdReg {off : Nat} {p : Port} (h : regTable.lookup off = some (cmdReg p)) :
    off = cmdOffset p := by
  cases p with
  | host => exact regTable_lookup_hostCmd h
  | ctrl => exact regTable_lookup_ctrlCmd h

/-- The one access that reaches a command register with the word `v`. -/
theorem eq_write_of_target_cmdReg {q : Params} {p : Port} {addr width : Nat} {v : Word}
    (h : (BusAccess.write addr width v).target q = some (cmdReg p)) :
    BusAccess.write addr width v = .write (q.base + cmdOffset p) 32 v := by
  obtain ⟨⟨hbase, -⟩, hwidth, -, hreg⟩ := BusAccess.target_eq_some.1 h
  rcases regAt_eq_some.1 hreg with ⟨-, hlookup⟩ | ⟨-, -, hbuf⟩
  · have hoff := regTable_lookup_cmdReg hlookup
    simp only [BusAccess.addr, BusAccess.width] at hbase hwidth hoff
    rw [hwidth, ← hoff, Nat.add_sub_cancel' hbase]
  · cases p <;> cases hbuf

/-! ### The block's part of a step -/

/-- `u` is `s` but for the order of the agents and the masters' records, and CTRL's program is what is left of it. -/
inductive State.SameBlock (s : State) : State → Prop
  | mk (host ctrl : Master) (schedule : List Agent) (tick waited : Nat) (hctrl : ctrl.pending <:+ s.ctrl.pending) :
      s.SameBlock { s with host := host, ctrl := ctrl, schedule := schedule, tick := tick, waited := waited }

theorem State.SameBlock.refl (s : State) : s.SameBlock s := .mk _ _ _ _ _ List.suffix_rfl

theorem State.SameBlock.trans {s u v : State} (h : s.SameBlock u) (h' : u.SameBlock v) : s.SameBlock v := by
  obtain ⟨_, _, _, _, _, hsuffix⟩ := h
  obtain ⟨host, ctrl, schedule, tick, waited, hsuffix'⟩ := h'
  exact .mk host ctrl schedule tick waited (hsuffix'.trans hsuffix)

theorem State.SameBlock.of_choose {s u : State} {a : Agent} (h : s.choose = some (a, u)) : s.SameBlock u := by
  rw [(State.choose_some h).2]
  exact .mk _ _ _ _ _ List.suffix_rfl

theorem State.SameBlock.of_answer (s : State) (m : Port) (v : Word) : s.SameBlock (s.answer m v) := by
  cases m <;> exact .mk _ _ _ _ _ List.suffix_rfl

theorem State.SameBlock.of_pop {s : State} {m : Port} {op : MasterOp} {rest : List MasterOp}
    (h : (s.master m).pending = op :: rest) : s.SameBlock (s.setMaster m { s.master m with pending := rest }) := by
  cases m with
  | host => exact .mk _ _ _ _ _ List.suffix_rfl
  | ctrl =>
    refine .mk _ _ _ _ _ ?_
    rw [show s.ctrl.pending = op :: rest from h]
    exact List.suffix_cons op rest

/-- What an access does to the block where it submits no legal command: nothing, a flag, or a stored word. -/
inductive StoreEffect (s : State) : State → Prop
  | nothing : StoreEffect s s
  | flag (x : Sticky) : StoreEffect s (s.flag x)
  | hostArg (v : Word) : StoreEffect s { s with hostArg := v }
  | ctrlArg (v : Word) : StoreEffect s { s with ctrlArg := v }
  | bufWrite (k : Nat) (v : Word) : StoreEffect s (s.bufWrite k v)

/-- An access has a store's effect, or it submits a legal command at the command register of a port. -/
theorem State.busAccess_effect {s t : State} {m : Port} {a : BusAccess} (h : s.busAccess m a = .next t) :
    (∃ u, s.SameBlock u ∧ StoreEffect u t) ∨
    (∃ i p, a = .write (s.params.base + cmdOffset p) 32 (cmdwOf i) ∧ i.legalOn p = true ∧ exec i s = .next t) := by
  obtain ⟨-, hcases⟩ := State.busAccess_next h
  rcases hcases with ⟨_, _, r, -, -, rfl⟩ | ⟨addr, width, v, r, rfl, htarget, hwrite⟩ | ⟨_, _, -, -, rfl⟩ |
    ⟨_, _, _, -, -, rfl⟩
  · exact .inl ⟨_, .of_answer s m _, .nothing⟩
  · rcases s.writeReg_cases r v with hr | hr | hr | ⟨k, -, hr⟩ | ⟨p, hreg, hr⟩ <;> rw [hr] at hwrite
    · cases hwrite; exact .inl ⟨s, .refl s, .nothing⟩
    · cases hwrite; exact .inl ⟨s, .refl s, .hostArg v⟩
    · cases hwrite; exact .inl ⟨s, .refl s, .ctrlArg v⟩
    · cases hwrite; exact .inl ⟨s, .refl s, .bufWrite k v⟩
    · rcases s.submit_cases p v with ⟨i, hdecode, hsubmit⟩ | ⟨e, -, hsubmit⟩ <;> rw [hsubmit] at hwrite
      · obtain ⟨hword, hlegal⟩ := decode_ok hdecode
        have htarget' : (BusAccess.write addr width v).target s.params = some (cmdReg p) := by
          rw [htarget, hreg]
          cases p <;> rfl
        exact .inr ⟨i, p, hword ▸ eq_write_of_target_cmdReg htarget', hlegal, hwrite⟩
      · cases hwrite; exact .inl ⟨s, .refl s, .flag _⟩
  · refine .inl ⟨s.answer m 0, .of_answer s m 0, ?_⟩
    have hcomm : (s.flag .errBus).answer m 0 = (s.answer m 0).flag .errBus := by cases m <;> rfl
    rw [hcomm]
    exact .flag _
  · exact .inl ⟨s, .refl s, .flag _⟩

/-- A master that is not held writes the word of `i` to the command register of a port where `i` is legal. -/
def State.Issues (s : State) (i : Instr) : Prop :=
  ∃ m p rest, (s.master m).pending = .access (.write (s.params.base + cmdOffset p) 32 (cmdwOf i)) :: rest ∧
    i.legalOn p = true ∧ s.held m (.write (s.params.base + cmdOffset p) 32 (cmdwOf i)) = false

/-- What a step does to the block: a store's effect, a command a master issues, or a frame of a running block. -/
inductive StepEffect (s t : State) : Prop
  | store (u : State) (hu : s.SameBlock u) (h : StoreEffect u t)
  | command (u : State) (hu : s.SameBlock u) (i : Instr) (hi : s.Issues i) (h : exec i u = .next t)
  | frame (u : State) (hu : s.SameBlock u) (hbusy : s.status.busy = true) (h : t = u.frameStep)

theorem State.masterStep_effect {s u t : State} {m : Port} (hu : s.SameBlock u)
    (hpending : (s.master m).pending = (u.master m).pending) (henabled : s.masterEnabled m = true)
    (h : u.masterStep m = .next t) : StepEffect s t := by
  cases hops : (u.master m).pending with
  | nil =>
    rw [State.masterStep, hops] at h
    cases h
    exact .store _ hu .nothing
  | cons op rest =>
    have hpop := hu.trans (.of_pop hops)
    cases op with
    | access a =>
      rw [State.masterStep_access hops] at h
      rcases State.busAccess_effect h with ⟨v, hv, hstore⟩ | ⟨i, p, rfl, hlegal, hexec⟩
      · exact .store v (hpop.trans hv) hstore
      · have hbase : u.params = s.params := by obtain ⟨_⟩ := hu; rfl
        rw [State.setMaster_params, hbase] at hops
        refine .command _ hpop i ⟨m, p, rest, hpending.trans hops, hlegal, ?_⟩ hexec
        simpa [State.masterEnabled, hpending.trans hops] using henabled
    | waitIdle =>
      have hanswer := State.SameBlock.of_answer u m u.status.word
      have hrest : ((u.answer m u.status.word).master m).pending = .waitIdle :: rest := by
        rw [← hops]
        cases m <;> rfl
      simp only [State.masterStep, hops] at h
      split at h <;> cases h
      · exact .store _ (hu.trans hanswer) .nothing
      · exact .store _ (hu.trans (hanswer.trans (.of_pop hrest))) .nothing

/-- What a step that answers a next state does. -/
theorem step_effect {s t : State} (h : step s = .next t) : StepEffect s t := by
  rcases step_cases s with ⟨-, hidle⟩ | ⟨a, u, hchoose, hagent⟩
  · cases hidle.symm.trans h
    exact .store s (.refl s) .nothing
  · have hu := State.SameBlock.of_choose hchoose
    obtain ⟨henabled, hfields⟩ := State.choose_some hchoose
    have hmaster : ∀ m, (s.master m).pending = (u.master m).pending := by
      intro m
      rw [hfields]
      cases m <;> rfl
    rw [hagent] at h
    cases a with
    | host => exact State.masterStep_effect hu (hmaster .host) henabled h
    | ctrl => exact State.masterStep_effect hu (hmaster .ctrl) henabled h
    | engine =>
      cases h
      exact .frame u hu henabled rfl

/-! ### What every step leaves unchanged -/

theorem StoreEffect.params {s t : State} (h : StoreEffect s t) : t.params = s.params := by
  cases h with
  | bufWrite k v => exact State.bufWrite_params s k v
  | _ => rfl

theorem StoreEffect.status_ready {s t : State} (h : StoreEffect s t) : t.status.ready = s.status.ready := by
  cases h with
  | bufWrite k v => rw [State.bufWrite_status]
  | _ => rfl

theorem StoreEffect.ctrl {s t : State} (h : StoreEffect s t) : t.ctrl = s.ctrl := by
  cases h with
  | bufWrite k v => exact State.bufWrite_ctrl s k v
  | _ => rfl

theorem State.frameStep_params (s : State) : s.frameStep.params = s.params := by rw [State.frameStep_eq]

theorem State.frameStep_ctrl (s : State) : s.frameStep.ctrl = s.ctrl := by rw [State.frameStep_eq]

theorem State.frameStep_wt (s : State) : s.frameStep.wt = s.wt := by rw [State.frameStep_eq]

theorem State.frameStep_ready (s : State) : s.frameStep.status.ready = s.status.ready := by rw [State.frameStep_eq]

theorem State.frameStep_wtValid (s : State) : s.frameStep.status.wtValid = s.status.wtValid := by
  rw [State.frameStep_eq]

/-- R51: no step changes the parameters of the implementation, and of CTRL's program a step only takes from its head. -/
theorem step_params_and_ctrl {s t : State} (h : step s = .next t) :
    t.params = s.params ∧ t.ctrl.pending <:+ s.ctrl.pending := by
  cases step_effect h with
  | store u hu h =>
    obtain ⟨_, _, _, _, _, hsuffix⟩ := hu
    exact ⟨h.params, h.ctrl ▸ hsuffix⟩
  | command u hu i _ h =>
    have heffect := CommandEffect.of_exec h
    obtain ⟨_, _, _, _, _, hsuffix⟩ := hu
    exact ⟨heffect.params, heffect.ctrl ▸ hsuffix⟩
  | frame u hu _ h =>
    obtain ⟨_, _, _, _, _, hsuffix⟩ := hu
    subst h
    exact ⟨State.frameStep_params _, by rwa [State.frameStep_ctrl]⟩

end Sys2Proof.Machine

/-! PROOFS. The memories' canonical form, the wavetable and READY through every step (R33, R47 to R49, R132, R357). -/

namespace Sys2Proof.Machine

/-! ### The canonical form of the memories (R47 to R49) -/

theorem DelayRam.wf_nil : DelayRam.wf [] := ⟨rfl, rfl⟩

theorem State.wtInitialise_memInv {s : State} (h : s.MemInv) (size : Int) : (s.wtInitialise size).MemInv := by
  cases hwt : s.status.wtValid with
  | true => rwa [wtInitialise_of_valid hwt]
  | false =>
    obtain ⟨hbuf, hram, -⟩ := h
    rw [wtInitialise_of_not_valid hwt]
    exact ⟨hbuf, hram, rising_wtTable _ _⟩

theorem StoreEffect.memInv {s t : State} (h : StoreEffect s t) (hs : s.MemInv) : t.MemInv := by
  cases h with
  | bufWrite k v =>
    obtain ⟨hbuf, hram, htable⟩ := hs
    exact ⟨State.wf_bufWrite hbuf k v, by rwa [State.bufWrite_dl], by rwa [State.bufWrite_wt]⟩
  | _ => exact hs

theorem CommandEffect.memInv {s t : State} {i : Instr} (h : CommandEffect s i t) (hs : s.MemInv) : t.MemInv := by
  obtain ⟨hbuf, hram, htable⟩ := id hs
  cases h with
  | init cap =>
    rw [State.initApply_eq]
    exact ⟨hbuf, DelayRam.wf_nil, (State.wtInitialise_memInv hs _).2.2⟩
  | wtInit size => exact State.wtInitialise_memInv hs size
  | reset => exact ⟨hbuf, DelayRam.wf_nil, htable⟩
  | clear => exact ⟨hbuf, DelayRam.wf_nil, htable⟩
  | _ => exact hs

theorem State.channelStep_memInv {s : State} (h : s.MemInv) (t c : Nat) : (s.channelStep t c).MemInv := by
  obtain ⟨hbuf, hram, htable⟩ := h
  refine StoreEffect.memInv (.bufWrite _ _) ⟨hbuf, ?_, htable⟩
  exact DelayRam.wf_write hram _ _

theorem State.channels_memInv {s : State} (h : s.MemInv) (t : Nat) (l : List Nat) :
    (l.foldl (State.channelStep t) s).MemInv := by
  induction l generalizing s with
  | nil => exact h
  | cons c l ih => exact ih (State.channelStep_memInv h t c)

theorem State.frameStep_memInv {s : State} (h : s.MemInv) : s.frameStep.MemInv :=
  State.channels_memInv (s := s.frameHead) h _ _

/-- Settles O35: by the effects of a step. -/
theorem memoryFormKept : Obligations.MemoryFormKept := by
  intro s t hs hstep
  cases step_effect hstep with
  | store u hu h => obtain ⟨_⟩ := hu; exact h.memInv hs
  | command u hu i _ h => obtain ⟨_⟩ := hu; exact (CommandEffect.of_exec h).memInv hs
  | frame u hu _ h => obtain ⟨_⟩ := hu; subst h; exact State.frameStep_memInv hs

/-! ### The wavetable (R48, R132, R357) -/

theorem StoreEffect.wt {s t : State} (h : StoreEffect s t) : t.wt = s.wt ∧ t.status.wtValid = s.status.wtValid := by
  cases h with
  | bufWrite k v => rw [State.bufWrite_wt, State.bufWrite_status]; exact ⟨rfl, rfl⟩
  | _ => exact ⟨rfl, rfl⟩

/-- No command changes an initialised wavetable. -/
theorem CommandEffect.wt {s t : State} {i : Instr} (h : CommandEffect s i t) (hs : s.status.wtValid = true) :
    t.wt = s.wt ∧ t.status.wtValid = true := by
  cases h with
  | init cap => rw [State.initApply_eq, wtInitialise_of_valid hs]; exact ⟨rfl, rfl⟩
  | wtInit size => rw [wtInitialise_of_valid hs]; exact ⟨rfl, hs⟩
  | _ => exact ⟨rfl, hs⟩

/-- Settles O36: by the effects of a step. -/
theorem wavetableNeverRewritten : Obligations.WavetableNeverRewritten := by
  intro s t hs hstep
  cases step_effect hstep with
  | store u hu h =>
    obtain ⟨_⟩ := hu
    obtain ⟨hwt, hvalid⟩ := h.wt
    exact ⟨hwt, hvalid.trans hs⟩
  | command u hu i _ h => obtain ⟨_⟩ := hu; exact (CommandEffect.of_exec h).wt hs
  | frame u hu _ h =>
    obtain ⟨_⟩ := hu
    subst h
    exact ⟨State.frameStep_wt _, (State.frameStep_wtValid _).trans hs⟩

/-! ### READY (R33) -/

/-- A command leaves READY as it is, but for an INIT whose checks hold and for RESET. -/
theorem CommandEffect.ready {s t : State} {i : Instr} (h : CommandEffect s i t) :
    t.status.ready = s.status.ready ∨
    (i = .init ∧ t.status.ready = true ∧ ∃ cap, initCheck s.params s.cfg = .ok cap) ∨
    (i = .reset ∧ t.status.ready = false) := by
  cases h with
  | init cap _ hcheck => exact .inr (.inl ⟨rfl, by rw [State.initApply_eq], cap, hcheck⟩)
  | reset => exact .inr (.inr ⟨rfl, rfl⟩)
  | wtInit size => left; unfold State.wtInitialise; split <;> rfl
  | _ => exact .inl rfl

theorem CommandEffect.ready_set {s t : State} {i : Instr} (h : CommandEffect s i t) (hs : s.status.ready = false)
    (ht : t.status.ready = true) : i = .init ∧ ∃ cap, initCheck s.params s.cfg = .ok cap := by
  rcases h.ready with heq | ⟨hi, -, hcheck⟩ | ⟨-, hready⟩
  · simp_all
  · exact ⟨hi, hcheck⟩
  · simp_all

theorem CommandEffect.ready_cleared {s t : State} {i : Instr} (h : CommandEffect s i t) (hs : s.status.ready = true)
    (ht : t.status.ready = false) : i = .reset := by
  rcases h.ready with heq | ⟨-, hready, -⟩ | ⟨hi, -⟩
  · simp_all
  · simp_all
  · exact hi

/-- Where READY changes in a step, the step is a command that changes it. -/
theorem step_ready_changed {s t : State} (hstep : step s = .next t) (hne : t.status.ready ≠ s.status.ready) :
    ∃ u i, s.SameBlock u ∧ s.Issues i ∧ CommandEffect u i t := by
  cases step_effect hstep with
  | store u hu h => obtain ⟨_⟩ := hu; exact absurd h.status_ready hne
  | command u hu i hi h => exact ⟨u, i, hu, hi, CommandEffect.of_exec h⟩
  | frame u hu _ h => obtain ⟨_⟩ := hu; subst h; exact absurd (State.frameStep_ready _) hne

/-- A command that is legal on HOST only is issued by a write to HOST_CMD (R103). -/
theorem State.Issues.hostCmd {s : State} {i : Instr} (h : s.Issues i) (hi : i.legalOn .ctrl = false) :
    ∃ m rest, (s.master m).pending = .access (.write (s.params.base + 0x00C) 32 (cmdwOf i)) :: rest ∧
      s.held m (.write (s.params.base + 0x00C) 32 (cmdwOf i)) = false := by
  obtain ⟨m, p, rest, hpending, hlegal, hheld⟩ := h
  cases p with
  | host => exact ⟨m, rest, hpending, hheld⟩
  | ctrl => exact absurd (hi.symm.trans hlegal) Bool.false_ne_true

/-- Settles O37: commands by their effects; in a step only a command changes READY. -/
theorem readyChangesOnlyByInitAndReset : Obligations.ReadyChangesOnlyByInitAndReset := by
  refine ⟨fun i s t h => ?_, State.frameStep_ready, fun s t hstep => ⟨fun hs ht => ?_, fun hs ht => ?_⟩⟩
  · have heffect := CommandEffect.of_exec h
    exact ⟨heffect.ready_set, heffect.ready_cleared⟩
  · obtain ⟨u, i, ⟨_⟩, hissues, heffect⟩ := step_ready_changed hstep (by simp [hs, ht])
    obtain ⟨rfl, hcheck⟩ := heffect.ready_set hs ht
    obtain ⟨m, rest, hpending, -⟩ := hissues.hostCmd rfl
    exact ⟨hcheck, m, rest, hpending⟩
  · obtain ⟨u, i, ⟨_⟩, hissues, heffect⟩ := step_ready_changed hstep (by simp [hs, ht])
    obtain rfl := heffect.ready_cleared hs ht
    obtain ⟨m, rest, hpending, -⟩ := hissues.hostCmd rfl
    exact ⟨m, rest, hpending⟩

end Sys2Proof.Machine

/-! PROOFS. The bus access a scheduled master performs, the ARG and constant registers, STATUS's layout, and the
invariants at power-on (R31, R32, R38, R39, R51, R81, R340). -/

namespace Sys2Proof.Machine

/-! ### An access to a mapped offset -/

section Offsets
variable {s : State} {off : Nat} {r : Reg}

/-- An aligned 32-bit access at an offset of the window reaches what is mapped there. -/
theorem BusAccess.target_of_offset {p : Params} {a : BusAccess} (ha : a.addr = p.base + off) (hw : a.width = 32)
    (hbase : p.base % 4 = 0) (halign : off % 4 = 0) (hlt : off < 0x800000) :
    inWindow p a.addr = true ∧ a.target p = regAt p off := by
  have hin : inWindow p a.addr = true := by
    rw [inWindow, ha]
    exact decide_eq_true ⟨by omega, by omega⟩
  refine ⟨hin, ?_⟩
  rw [BusAccess.target, if_pos ⟨hin, hw, by omega⟩, ha, Nat.add_sub_cancel_left]

/-- A write to a register of the register window is that register's write. -/
theorem State.busAccess_write_register (m : Port) (v : Word) (hbase : s.params.base % 4 = 0)
    (hreg : regAt s.params off = some r) (halign : off % 4 = 0) (hlt : off < 0x1000) :
    s.busAccess m (.write (s.params.base + off) 32 v) = s.writeReg r v := by
  obtain ⟨hin, htarget⟩ := BusAccess.target_of_offset (a := .write (s.params.base + off) 32 v) rfl rfl hbase halign
    (by omega)
  simp only [State.busAccess, hin, htarget, hreg, if_true]

/-- A read of a register of the register window answers that register's value. -/
theorem State.busAccess_read_register (m : Port) (hbase : s.params.base % 4 = 0)
    (hreg : regAt s.params off = some r) (halign : off % 4 = 0) (hlt : off < 0x1000) :
    s.busAccess m (.read (s.params.base + off) 32) = .next (s.answer m (s.readReg r)) := by
  obtain ⟨hin, htarget⟩ := BusAccess.target_of_offset (a := .read (s.params.base + off) 32) rfl rfl hbase halign
    (by omega)
  simp only [State.busAccess, hin, htarget, hreg, if_true]

end Offsets

/-- Settles O28: HOST_ARG and CTRL_ARG as registers of the window. -/
theorem argRegistersHoldWord : Obligations.ArgRegistersHoldWord := fun _ m v hbase =>
  ⟨State.busAccess_write_register (off := 0x008) m v hbase rfl rfl (by norm_num),
   State.busAccess_write_register (off := 0x010) m v hbase rfl rfl (by norm_num),
   State.busAccess_read_register (off := 0x008) m hbase rfl rfl (by norm_num),
   State.busAccess_read_register (off := 0x010) m hbase rfl rfl (by norm_num)⟩

/-- A write to a port's command register submits the word. -/
theorem State.busAccess_write_cmdReg (s : State) (m p : Port) (cmdw : Word) (hbase : s.params.base % 4 = 0) :
    s.busAccess m (.write (s.params.base + cmdOffset p) 32 cmdw) = s.submit p cmdw := by
  cases p with
  | host => exact State.busAccess_write_register (r := .hostCmd) m cmdw hbase rfl rfl (by norm_num [cmdOffset])
  | ctrl => exact State.busAccess_write_register (r := .ctrlCmd) m cmdw hbase rfl rfl (by norm_num [cmdOffset])

/-- A word that decodes with the port's ARG register is its command. -/
theorem State.submit_of_decode {s : State} {p : Port} {cmdw : Word} {i : Instr}
    (h : decode p cmdw (s.argOn p) = .ok i) : s.submit p cmdw = exec i s := by
  rw [State.submit, h]

/-! ### The scheduled master's step (R39, R81, R320, R321) -/

section Steps
variable {s : State} {a : BusAccess} {rest : List MasterOp} {sched : List Agent}

/-- HOST's turn is its next access, where that is not held. -/
theorem step_host_access (hsched : s.schedule = .host :: sched) (hpending : s.host.pending = .access a :: rest)
    (hfree : s.status.busy = true → s.enabled .host = true) :
    step s = State.busAccess { s with schedule := sched, host := { s.host with pending := rest } } .host a := by
  have henabled : s.enabled .host = true := by
    cases hbusy : s.status.busy with
    | true => exact hfree hbusy
    | false => simp [State.enabled, State.masterEnabled, hpending, State.held, hbusy]
  rw [step_of_schedule hsched henabled]
  exact State.masterStep_access hpending

/-- CTRL's turn is its next access, whether or not a block runs. -/
theorem step_ctrl_access (hsched : s.schedule = .ctrl :: sched) (hpending : s.ctrl.pending = .access a :: rest) :
    step s = State.busAccess { s with schedule := sched, ctrl := { s.ctrl with pending := rest } } .ctrl a := by
  have henabled : s.enabled .ctrl = true := by simp [State.enabled, State.masterEnabled, hpending, State.held]
  rw [step_of_schedule hsched henabled]
  exact State.masterStep_access hpending

end Steps

/-- Settles O5: HOST's next access, and the word it submits. -/
theorem stepRunsHostCommand : Obligations.StepRunsHostCommand := by
  refine ⟨fun s a rest sched hsched hpending hfree => step_host_access hsched hpending hfree, ?_⟩
  intro s cmdw rest sched hbase hidle hsched hpending u
  have hsubmit : step s = u.submit .host cmdw :=
    (step_host_access hsched hpending fun hbusy => absurd (hidle.symm.trans hbusy) Bool.false_ne_true).trans
      (u.busAccess_write_cmdReg .host .host cmdw hbase)
  exact ⟨hsubmit, fun i hi => hsubmit.trans (State.submit_of_decode hi)⟩

/-- Settles O6: CTRL's next access, and the word it submits on either port. -/
theorem stepRunsCtrlCommand : Obligations.StepRunsCtrlCommand := by
  refine ⟨fun s a rest sched hsched hpending => step_ctrl_access hsched hpending, ?_⟩
  intro s p cmdw rest sched hbase hsched hpending u
  have hsubmit : step s = u.submit p cmdw := by
    rw [step_ctrl_access hsched hpending, ← u.busAccess_write_cmdReg .ctrl p cmdw hbase]
    cases p <;> rfl
  refine ⟨hsubmit, fun i hi => hsubmit.trans (State.submit_of_decode ?_)⟩
  rw [← hi]
  cases p <;> rfl

/-- Settles O7: the command placed is HOST's next access, at HOST_CMD. -/
theorem fetchWordIsRunNext : Obligations.FetchWordIsRunNext := by
  intro s nbits w i hbase hidle hdecode
  obtain ⟨-, hrun⟩ := stepRunsHostCommand
  obtain ⟨-, hexec⟩ := hrun (s.withFetchWord nbits w) (BitVec.ofNat 32 (w % 2 ^ nbits)) s.host.pending s.schedule
    hbase hidle rfl rfl
  exact hexec i hdecode

/-! ### Registers -/

/-- Settles O23: the address map and `readReg`, and what every step leaves unchanged. -/
theorem constantRegistersRead : Obligations.ConstantRegistersRead := fun _ =>
  ⟨rfl, rfl, rfl, rfl, rfl, rfl, fun _ hstep => (step_params_and_ctrl hstep).1⟩

/-- Each bit of the STATUS word, by the field it lies in (R32). -/
theorem Status.getLsbD_word (t : Status) (n : Nat) :
    t.word.getLsbD n =
      if n = 0 then t.ready else if n = 1 then t.busy else if n = 2 then t.wtValid else if n = 3 then t.initOk
      else if n < 8 then false else if n < 12 then t.initCode.bits.getLsbD (n - 8)
      else if n < 16 then false else t.sticky.getLsbD (n - 16) := by
  have hword : t.word.getLsbD n =
      (0#11 ++ t.sticky ++ 0#4 ++ t.initCode.bits ++ 0#4 ++ BitVec.ofBool t.initOk ++ BitVec.ofBool t.wtValid ++
        BitVec.ofBool t.busy ++ BitVec.ofBool t.ready).getLsbD n := rfl
  rw [hword]
  simp only [BitVec.getLsbD_append, BitVec.getLsbD_zero, BitVec.getLsbD_ofBool]
  by_cases hn : n < 16
  · interval_cases n <;> simp
  · have hsticky : n - 1 - 1 - 1 - 1 - 4 - 4 - 4 = n - 16 := by omega
    rw [hsticky]
    simp (disch := omega) only [if_neg]
    split
    · rfl
    · exact (BitVec.getLsbD_of_ge _ _ (by omega)).symm

/-- Settles O24: each bit of the word by the field it lies in. -/
theorem statusWordLayout : Obligations.StatusWordLayout := by
  intro t
  refine ⟨?_, ?_, ?_, ?_, ?_, ?_, ?_⟩
  · exact t.getLsbD_word 0
  · exact t.getLsbD_word 1
  · exact t.getLsbD_word 2
  · exact t.getLsbD_word 3
  · have hcode : t.word.extractLsb' 8 4 = t.initCode.bits := by
      apply BitVec.eq_of_getLsbD_eq
      intro i hi
      rw [BitVec.getLsbD_extractLsb', t.getLsbD_word]
      interval_cases i <;> rfl
    rw [hcode]
    rfl
  · apply BitVec.eq_of_getLsbD_eq
    intro i hi
    rw [BitVec.getLsbD_extractLsb', t.getLsbD_word]
    interval_cases i <;> rfl
  · intro n hn
    rw [t.getLsbD_word]
    rcases hn with ⟨_, _⟩ | ⟨_, _⟩ | h21
    · interval_cases n <;> rfl
    · interval_cases n <;> rfl
    · simp (disch := omega) only [if_neg]
      exact BitVec.getLsbD_of_ge _ _ (by omega)

/-! ### The invariant's parts -/

/-- The clauses of the engine invariant that a RESET during a block ends: no block runs while Uninitialized, and a block
runs as many frames as a block has (R52, R220; log 8). -/
def State.BlockInv (s : State) : Prop :=
  (s.status.ready = false → s.status.busy = false) ∧ (s.status.busy = true → s.seq.procN = s.spec.blockSize)

theorem State.engineInv_iff {s : State} : s.EngineInv ↔ s.CoreInv ∧ s.BlockInv := by
  constructor
  · rintro ⟨hparams, hready, huninit, hwt, hbusy, hheads⟩
    exact ⟨⟨hparams, hready, fun h => (huninit h).1, hwt, fun h => (hbusy h).2, hheads⟩,
      fun h => (huninit h).2, fun h => (hbusy h).1⟩
  · rintro ⟨⟨hparams, hready, huninit, hwt, hbusy, hheads⟩, hidle, hcount⟩
    exact ⟨hparams, hready, fun h => ⟨huninit h, hidle h⟩, hwt, fun h => ⟨hcount h, hbusy h⟩, hheads⟩

/-! ### Power-on (R52, R340) -/

section PowerOn
variable {p : Params}

theorem State.powerOn_zeroInv (p : Params) : (State.powerOn p).ZeroInv := ⟨rfl, rfl, rfl, rfl, rfl, rfl, rfl⟩

theorem State.powerOn_wtInv (p : Params) : (State.powerOn p).WtInv := ⟨rfl, rfl⟩

theorem State.powerOn_memInv (p : Params) : (State.powerOn p).MemInv := ⟨rfl, DelayRam.wf_nil, rfl⟩

theorem State.powerOn_coreInv (hp : p.Legal) : (State.powerOn p).CoreInv :=
  ⟨hp, fun hready => absurd hready Bool.false_ne_true, fun _ => State.powerOn_zeroInv p,
   State.powerOn_wtInv p, fun hbusy => absurd hbusy Bool.false_ne_true, List.length_replicate⟩

theorem State.powerOn_engineInv (hp : p.Legal) : (State.powerOn p).EngineInv :=
  State.engineInv_iff.2 ⟨State.powerOn_coreInv hp, fun _ => rfl, fun hbusy => absurd hbusy Bool.false_ne_true⟩

end PowerOn

/-- Settles O33: the block starts Uninitialized, with no block running and no table. -/
theorem invariantsHoldAtPowerOn : Obligations.InvariantsHoldAtPowerOn := by
  refine ⟨by decide, State.reset_eq, fun p hp => ?_⟩
  exact ⟨State.powerOn_engineInv hp, State.powerOn_coreInv hp, State.powerOn_memInv p,
    fun hbusy => absurd hbusy Bool.false_ne_true, rfl⟩

end Sys2Proof.Machine

/-! PROOFS. The ranges the engine's registers stay in: the wrapped phase, the clamped delay length, and the capacity
(R154, R171, R175). -/

namespace Sys2Proof.Machine

/-! ### The wrapped phase (R154) -/

section Wrap
variable {p : F32}

/-- The floor of a negative word is negative. -/
theorem fSign_ffloor_of_neg (hp : isFinite p = true) (hs : fSign p = true) : fSign (ffloor p) = true := by
  cases hz : isZero p with
  | true =>
    have hkept : ffloor p = p := by simp [ffloor, isNaN_eq_false_of_finite hp, hz]
    rw [hkept, hs]
  | false =>
    have hround : ffloor p = roundInt false (scaled p / 2 ^ 149 * 2 ^ 149) := by
      simp only [ffloor, isNaN_eq_false_of_finite hp, isInf_eq_false_of_finite hp, hz, Bool.or_self, Bool.false_eq_true,
        if_false]
    obtain ⟨-, -, hsign⟩ := roundInt_of_representable (representable_floor hp) false
    have hne : scaled p ≠ 0 := fun h => Bool.false_ne_true (hz.symm.trans (scaled_eq_zero.1 h))
    have hnonpos : scaled p = -(scaledMag (fMag p) : Int) := by rw [scaled_eq, if_pos hs]
    have hneg : scaled p / 2 ^ 149 * 2 ^ 149 < 0 := by omega
    rw [hround, hsign, if_neg hneg.ne, decide_eq_true hneg]

/-- An exact value that is not negative rounds to a word without the sign bit, where a zero takes no sign. -/
theorem roundInt_of_nonneg {z : Bool} {v : Int} (hv : 0 ≤ v) (hz : v = 0 → z = false) :
    roundInt z v = pack false (roundMag v.toNat 1) := by
  rw [roundInt_eq_pack, show v.natAbs = v.toNat by omega]
  split
  · next h => rw [hz h]
  · rw [decide_eq_false (by omega)]

/-- The fraction of a finite word lies between +0.0 and 1.0; rounding may reach 1.0. -/
theorem fsub_ffloor_in_unit (hp : isFinite p = true) :
    ∃ m, m ≤ fMag fOne ∧ fsub p (ffloor p) = pack false m := by
  obtain ⟨hfloor, hval⟩ := ffloor_spec hp
  have hfrac : scaled p - scaled (ffloor p) = scaled p % 2 ^ 149 := by omega
  refine ⟨roundMag (scaled p % 2 ^ 149).toNat 1, ?_, ?_⟩
  · apply roundMag_le_of_le one_pos
    rw [scaledMag_fMag_fOne]
    omega
  · rw [fsub_finite hp hfloor, hfrac]
    refine roundInt_of_nonneg (by omega) fun _ => ?_
    cases hs : fSign p with
    | false => rfl
    | true => rw [fSign_ffloor_of_neg hp hs]; rfl

/-- A magnitude not above 1.0's that is not 1.0 lies in [+0.0, 1.0). -/
theorem fInRange_pack_fOne {m : Nat} (hm : m ≤ fMag fOne) (hne : feq (pack false m) fOne = false) :
    fInRange (pack false m) fOne := by
  have hfin := (pack_in_unit false hm).1
  have hm31 : m < 2 ^ 31 := lt_trans (lt_of_le_of_lt hm fMag_fOne_lt) infMag_lt
  have hn := isNaN_eq_false_of_finite hfin
  have hkey : fKey (pack false m) = m := by simp [fKey, fSign_pack false hm31, fMag_pack false hm31]
  have hone : fKey fOne = fMag fOne := by decide
  have hkne : fKey (pack false m) ≠ fKey fOne := fun h =>
    Bool.false_ne_true (hne.symm.trans ((feq_iff_fKey_eq hn (by decide)).2 h))
  exact ⟨fSign_pack false hm31, (flt_iff_fKey_lt hn (by decide)).2 (by omega)⟩

theorem fInRange_fZero_fOne : fInRange fZero fOne := by decide

/-- The wrapped phase lies in [+0.0, 1.0) for every word. -/
theorem wrapPhase_in_range (p : F32) : fInRange (wrapPhase p) fOne := by
  unfold wrapPhase
  split
  · next hp =>
    obtain ⟨m, hm, heq⟩ := fsub_ffloor_in_unit hp
    simp only [heq]
    split
    · exact fInRange_fZero_fOne
    · next hne => exact fInRange_pack_fOne hm (Bool.eq_false_iff.2 hne)
  · exact fInRange_fZero_fOne

end Wrap

/-! ### The clamped delay length (R175) -/

section Length
variable {cap : Nat} {L x : F32}

/-- The word before a positive one has the code before its code. -/
theorem fMag_sub_one (hs : fSign x = false) (hpos : 0 < fMag x) :
    fSign (x - 1#32) = false ∧ fMag (x - 1#32) = fMag x - 1 := by
  have hx : x = pack false (fMag x) := hs ▸ (pack_sign_mag x).symm
  have hlt := fMag_lt x
  have hpred : x - 1#32 = pack false (fMag x - 1) := by
    apply BitVec.eq_of_toNat_eq
    have hnat := toNat_eq_sign_mag x
    rw [hs] at hnat
    simp only [pack, BitVec.toNat_sub, BitVec.toNat_ofNat]
    norm_num at hnat ⊢
    omega
  rw [hpred]
  exact ⟨fSign_pack false (by omega), fMag_pack false (by omega)⟩

/-- The largest value below a positive finite word lies below it and is not negative. -/
theorem nextDown_in_range (hx : isFinite x = true) (hs : fSign x = false) (hpos : 0 < fMag x) :
    fInRange (nextDown x) x := by
  obtain ⟨hsign, hmag⟩ := fMag_sub_one hs hpos
  have hz : isZero x = false := Bool.eq_false_iff.2 fun h => by rw [isZero_iff] at h; omega
  have hdown : nextDown x = x - 1#32 := by simp [nextDown, hs, hz, hx]
  have hfin : isFinite (x - 1#32) = true := by
    rw [isFinite_iff] at hx ⊢
    omega
  rw [hdown]
  refine ⟨hsign, (flt_iff_fKey_lt (isNaN_eq_false_of_finite hfin) (isNaN_eq_false_of_finite hx)).2 ?_⟩
  simp only [fKey, hsign, hs, hmag]
  norm_num
  omega

/-- The word of a capacity is finite and positive. -/
theorem fromInt_capacity (h1 : 1 ≤ cap) (h2 : cap ≤ 2 ^ 24) :
    isFinite (fromInt cap) = true ∧ fSign (fromInt cap) = false ∧ 0 < fMag (fromInt cap) := by
  obtain ⟨hfin, hval, hsign⟩ := fromInt_spec (n := (cap : Int)) (by rw [abs_le]; omega)
  refine ⟨hfin, hsign.trans (decide_eq_false (by omega)), ?_⟩
  rcases Nat.eq_zero_or_pos (fMag (fromInt cap)) with h0 | hpos
  · rw [scaled_eq_zero.2 ((isZero_iff _).2 h0)] at hval
    omega
  · exact hpos

theorem isNaN_eq_false_of_fgt {a b : F32} (h : fgt a b = true) : isNaN a = false := by
  simp only [fgt, flt, Bool.and_eq_true, Bool.not_eq_true'] at h
  exact h.1.2

/-- The delay length set lies in [+0.0, CAP) for every word. -/
theorem delayClamp_in_range (L : F32) (h1 : 1 ≤ cap) (h2 : cap ≤ 2 ^ 24) :
    fInRange (delayClamp cap L) (fromInt cap) := by
  obtain ⟨hfin, hsign, hpos⟩ := fromInt_capacity h1 h2
  have hn := isNaN_eq_false_of_finite hfin
  simp only [delayClamp]
  split
  · next hgt =>
    split
    · next hlt => exact ⟨((fgt_fZero_iff (isNaN_eq_false_of_fgt hgt)).1 hgt).1, hlt⟩
    · exact nextDown_in_range hfin hsign hpos
  · exact ⟨by decide, (fgt_fZero_iff hn).2 ⟨hsign, hpos⟩⟩

/-- A length that is not above zero is set to +0.0, whatever the capacity. -/
theorem delayClamp_of_not_fgt (h : fgt L fZero = false) : delayClamp cap L = fZero := by
  simp [delayClamp, h]

/-- A product with +0.0 is a zero or the NaN, and so not above zero. -/
theorem fgt_fmul_fZero (x : F32) : fgt (fmul x fZero) fZero = false := by
  have hround : roundMag 0 (2 ^ 149) = 0 := Nat.le_zero.1 (roundMag_le_of_le (by norm_num) (Nat.zero_le _))
  have hfin : isFinite fZero = true := by decide
  cases hn : isNaN x with
  | true => rw [fmul_of_isNaN (.inl hn)]; decide
  | false =>
    cases hi : isInf x with
    | true =>
      rw [fmul_of_isInf hn (by decide) (.inl hi), if_pos (.inr (by decide))]
      decide
    | false =>
      rw [fmul_finite (isFinite_of_not_isNaN_not_isInf hn hi) hfin, show fMag fZero = 0 by decide, scaledMag_zero,
        Nat.mul_zero, hround]
      cases (fSign x != fSign fZero) <;> decide

end Length

/-! ### The capacity (R171) -/

section Capacity
variable {sr md : F32} {cap : Nat}

theorem isPositiveFinite_iff {x : F32} : isPositiveFinite x = true ↔ fgt x fZero = true ∧ isFinite x = true := by
  simp [isPositiveFinite]

/-- The ceiling of a finite word. -/
theorem fceil_spec {x : F32} (hx : isFinite x = true) :
    isFinite (fceil x) = true ∧ scaled (fceil x) = -(-scaled x / 2 ^ 149 * 2 ^ 149) := by
  obtain ⟨hfin, hval⟩ := ffloor_spec (isFinite_fneg hx)
  rw [scaled_fneg hx] at hval
  exact ⟨isFinite_fneg hfin, by rw [fceil, scaled_fneg hfin, hval]⟩

theorem fSign_of_isPositiveFinite {x : F32} (h : isPositiveFinite x = true) : fSign x = false := by
  obtain ⟨hgt, hfin⟩ := isPositiveFinite_iff.1 h
  exact ((fgt_fZero_iff (isNaN_eq_false_of_finite hfin)).1 hgt).1

/-- The value of a product of positive words is not negative. -/
theorem scaled_fmul_nonneg (hsr : isPositiveFinite sr = true) (hmd : isPositiveFinite md = true) :
    0 ≤ scaled (fmul sr md) := by
  have hsign : (fSign sr != fSign md) = false := by
    rw [fSign_of_isPositiveFinite hsr, fSign_of_isPositiveFinite hmd]
    rfl
  rw [fmul_finite (isPositiveFinite_iff.1 hsr).2 (isPositiveFinite_iff.1 hmd).2, hsign, scaled_pack _ (roundMag_lt _ _)]
  exact Int.natCast_nonneg _

/-- A capacity is an integer from 1 to 2^24. -/
theorem dlCapacity_bounds (hsr : isPositiveFinite sr = true) (hmd : isPositiveFinite md = true)
    (h : dlCapacity sr md = some cap) : 1 ≤ cap ∧ cap ≤ 2 ^ 24 := by
  have hnonneg := scaled_fmul_nonneg hsr hmd
  simp only [dlCapacity] at h
  split at h
  · next hfin =>
    obtain ⟨hceil, hval⟩ := fceil_spec hfin
    obtain ⟨hmax, hmaxval, -⟩ := fromInt_spec (n := 2 ^ 24) (by norm_num)
    have hzero : scaled fZero = 0 := scaled_eq_zero.2 (by decide)
    split at h
    · cases h
    · next hbounds =>
      rw [Bool.or_eq_true, not_or] at hbounds
      obtain ⟨hne, hle⟩ := hbounds
      rw [feq_iff_fKey_eq (isNaN_eq_false_of_finite hceil) (by decide), fKey_eq_iff] at hne
      rw [fgt, flt_iff_scaled_lt hmax hceil, hmaxval] at hle
      cases h
      rw [toInt, if_pos hceil]
      omega
  · cases h

end Capacity

end Sys2Proof.Machine

/-! PROOFS. The engine invariant is kept by every store, command and frame, but for the two clauses that a RESET during
a block ends (R41 to R52, log 8). -/

namespace Sys2Proof.Machine

/-! ### Stores -/

theorem StoreEffect.coreInv {s t : State} (h : StoreEffect s t) (hs : s.CoreInv) : t.CoreInv := by
  cases h with
  | bufWrite k v => unfold State.bufWrite; split <;> exact hs
  | _ => exact hs

theorem StoreEffect.blockInv {s t : State} (h : StoreEffect s t) (hs : s.BlockInv) : t.BlockInv := by
  cases h with
  | bufWrite k v => unfold State.bufWrite; split <;> exact hs
  | _ => exact hs

/-- A head of a line whose heads are all 0. -/
theorem State.head_of_replicate {s : State} {n c : Nat} (h : s.dl.heads = List.replicate n 0) (hc : c < n) :
    s.head c = 0 := by
  rw [State.head, h, List.getElem?_replicate, if_pos hc, Option.getD_some]

/-! ### The commands -/

section Commands
variable {s : State} {q : Parameters} {o : Oscillator}

/-- R210: what INIT's checks establish. -/
theorem initCheck_ok {p : Params} {c : Staging} {cap : Nat} (h : initCheck p c = .ok cap) :
    isPositiveFinite c.maxDelay = true ∧ isPositiveFinite c.sampleRate = true ∧
    (1 ≤ c.blockSize.toNat ∧ c.blockSize.toNat ≤ p.bufRamWords) ∧
    (1 ≤ c.channels.toNat ∧ c.channels.toNat ≤ p.maxChannels) ∧
    c.channels.toNat * c.blockSize.toNat ≤ p.bufRamWords ∧
    dlCapacity c.sampleRate c.maxDelay = some cap ∧ c.channels.toNat * (cap + 1) ≤ p.delayRamWords := by
  simp only [initCheck] at h
  split at h
  · cases h
  next hmd =>
  split at h
  · cases h
  next hsr =>
  split at h
  · cases h
  next hbs =>
  split at h
  · cases h
  next hch =>
  split at h
  · cases h
  next hbuf =>
  split at h
  · cases h
  next cap' hcap =>
  split at h
  · cases h
  next hram =>
  cases h
  simp only [Bool.not_eq_true', Bool.not_eq_false] at hmd hsr
  exact ⟨hmd, hsr, by omega, by omega, by omega, hcap, by omega⟩

theorem State.wtInv_of_valid (h : s.status.wtValid = true) :
    s.WtInv ↔ (2 ≤ s.wt.size.toNat ∧ s.wt.size.toNat ≤ s.params.wtMaxSize) ∧
      s.wt.table = wtTable s.params s.wt.size.toNat := by
  rw [State.WtInv, if_pos h]

theorem State.wtInitialise_valid (s : State) (size : Int) : (s.wtInitialise size).status.wtValid = true := by
  cases h : s.status.wtValid with
  | true => rwa [wtInitialise_of_valid h]
  | false => rw [wtInitialise_of_not_valid h]

/-- An initialisation leaves a legal table (R130). -/
theorem State.wtInitialise_wtInv (hp : s.params.Legal) (h : s.WtInv) (size : Int) : (s.wtInitialise size).WtInv := by
  cases hvalid : s.status.wtValid with
  | true => rwa [wtInitialise_of_valid hvalid]
  | false =>
    have hsize : (BitVec.ofNat 32 (wtClampSize s.params size)).toNat = wtClampSize s.params size := by
      rw [BitVec.toNat_ofNat, Nat.mod_eq_of_lt (wtClampSize_lt hp size)]
    have hbounds : 2 ≤ wtClampSize s.params size ∧ wtClampSize s.params size ≤ s.params.wtMaxSize := by
      have hclamp := wtClampSize_eq hp size
      obtain ⟨-, -, -, ⟨hmax, -⟩, -⟩ := hp
      omega
    rw [wtInitialise_of_not_valid hvalid, State.wtInv_of_valid rfl, hsize]
    exact ⟨hbounds, rfl⟩

/-- A WT_INIT keeps the invariant: while Ready it changes nothing, and an Uninitialized block has no use of the table. -/
theorem State.CoreInv.wtInitialise (h : s.CoreInv) (size : Int) : (s.wtInitialise size).CoreInv := by
  cases hvalid : s.status.wtValid with
  | true => rwa [wtInitialise_of_valid hvalid]
  | false =>
    obtain ⟨hparams, hready, huninit, hwt, hbusy, hheads⟩ := h
    have hwt' := State.wtInitialise_wtInv hparams hwt size
    rw [wtInitialise_of_not_valid hvalid] at hwt' ⊢
    refine ⟨hparams, fun hr => ?_, huninit, hwt', hbusy, hheads⟩
    obtain ⟨-, hvalid', -⟩ := hready hr
    exact absurd (hvalid.symm.trans hvalid') Bool.false_ne_true

theorem Parameters.legal_zero : Parameters.zero.Legal := by decide

/-- An INIT whose checks hold leaves a Ready block that meets its invariant (R211). -/
theorem State.CoreInv.initApply {cap : Nat} (h : s.CoreInv) (hr : s.status.ready = false)
    (hcheck : initCheck s.params s.cfg = .ok cap) : (s.initApply cap).CoreInv := by
  obtain ⟨hparams, -, huninit, hwt, hbusy, -⟩ := h
  obtain ⟨hpar, -⟩ := huninit hr
  obtain ⟨hmd, hsr, hbs, hch, hbuf, hcap, hram⟩ := initCheck_ok hcheck
  obtain ⟨hcap1, hcap24⟩ := dlCapacity_bounds hsr hmd hcap
  have hcapval : (BitVec.ofNat 32 cap).toNat = cap := by
    rw [BitVec.toNat_ofNat, Nat.mod_eq_of_lt (by omega)]
  have htable := (State.wtInv_of_valid (State.wtInitialise_valid s _)).1
    (State.wtInitialise_wtInv hparams hwt s.params.wtDefaultSize)
  rw [State.wtInitialise_params] at htable
  have hlen : fInRange fZero (fromInt cap) := by
    have := delayClamp_in_range fZero hcap1 hcap24
    rwa [delayClamp_of_not_fgt (by decide)] at this
  have hhead : ∀ c, c < s.params.maxChannels → (s.initApply cap).head c = 0 := fun c hc =>
    State.head_of_replicate (by rw [State.initApply_eq]) hc
  rw [State.initApply_eq] at hhead ⊢
  refine ⟨hparams, fun _ => ?_, fun hr' => absurd hr'.symm Bool.false_ne_true, (State.wtInv_of_valid rfl).2 htable,
    hbusy, List.length_replicate⟩
  refine ⟨rfl, rfl, rfl, rfl, rfl, rfl, fun c hc => ?_, ?_, fInRange_fZero_fOne, ?_, ⟨hsr, hbs, hch, hbuf, ?_, ?_⟩, ?_⟩
  · rw [hhead c (lt_of_lt_of_le hc hch.2), hhead 0 (by omega)]
  · rw [hhead 0 (by omega)]
    exact Nat.succ_pos _
  · simpa only [hcapval] using hlen
  · simpa only [hcapval] using And.intro hcap1 hcap24
  · simpa only [State.ch, State.delayM, hcapval] using hram
  · simpa only [hpar] using Parameters.legal_zero

/-- A Ready block stays so with legal parameters and the oscillator set to them. -/
theorem State.CoreInv.set_par (h : s.CoreInv) (hr : s.status.ready = true) (hq : s.par.Legal → q.Legal)
    (hphase : o.phase = s.osc.phase) (hbound : o.bound = s.osc.bound)
    (hgain : s.osc.gain = s.par.lfoAmp → o.gain = q.lfoAmp)
    (hfreq : s.osc.freq = s.par.lfoFreq → o.freq = q.lfoFreq)
    (hinc : s.osc.inc = fdiv s.osc.freq s.spec.sampleRate → o.inc = fdiv o.freq s.spec.sampleRate) :
    State.CoreInv { s with par := q, osc := o } := by
  obtain ⟨hparams, hready, -, hwt, hbusy, hheads⟩ := h
  obtain ⟨hb, hvalid, halloc, hg, hf, hi, hsame, hhead, hp, hlen, hspec, hpar⟩ := hready hr
  refine ⟨hparams, fun _ => ?_, fun hr' => absurd (hr'.symm.trans hr) Bool.false_ne_true, hwt, hbusy, hheads⟩
  exact ⟨hbound.trans hb, hvalid, halloc, hgain hg, hfreq hf, hinc hi, hsame, hhead, by simpa only [hphase] using hp,
    hlen, hspec, hq hpar⟩

/-- RESET leaves an Uninitialized block, whether or not a block runs (R213). -/
theorem State.CoreInv.reset (h : s.CoreInv) :
    State.CoreInv { s.zeroSpec.dlRelease.oscReset with status := { s.status with ready := false } } := by
  obtain ⟨hparams, -, -, hwt, hbusy, -⟩ := h
  exact ⟨hparams, fun hr => absurd hr Bool.false_ne_true, fun _ => ⟨rfl, rfl, rfl, rfl, rfl, rfl, rfl⟩, hwt, hbusy,
    List.length_replicate⟩

/-- CLEAR sets every head of a Ready block to 0 (R178). -/
theorem State.CoreInv.clear (h : s.CoreInv) (hr : s.status.ready = true) : s.dlClear.CoreInv := by
  obtain ⟨hparams, hready, -, hwt, hbusy, -⟩ := h
  obtain ⟨hb, hvalid, halloc, hg, hf, hi, -, -, hp, hlen, hspec, hpar⟩ := hready hr
  obtain ⟨-, -, ⟨hch1, hchmax⟩, -⟩ := id hspec
  have hhead : ∀ c, c < s.params.maxChannels → s.dlClear.head c = 0 := fun c hc => State.head_of_replicate rfl hc
  refine ⟨hparams, fun _ => ?_, fun hr' => absurd (hr'.symm.trans hr) Bool.false_ne_true, hwt, hbusy,
    List.length_replicate⟩
  refine ⟨hb, hvalid, halloc, hg, hf, hi, fun c hc => ?_, ?_, hp, hlen, hspec, hpar⟩
  · rw [hhead c (lt_of_lt_of_le hc hchmax), hhead 0 (by omega)]
  · rw [hhead 0 (by omega)]
    exact Nat.succ_pos _

/-- A block starts at frame 0 of at least one (R220). -/
theorem State.CoreInv.startBlock (h : s.CoreInv) (hr : s.status.ready = true) :
    (s.startBlock s.spec.blockSize).CoreInv := by
  obtain ⟨hparams, hready, huninit, hwt, -, hheads⟩ := h
  obtain ⟨-, -, -, -, -, -, -, -, -, -, ⟨-, ⟨hbs, -⟩, -⟩, -⟩ := id (hready hr)
  exact ⟨hparams, hready, huninit, hwt, fun _ => hbs, hheads⟩

/-- Every command keeps what every step keeps. -/
theorem CommandEffect.coreInv {t : State} {i : Instr} (h : CommandEffect s i t) (hs : s.CoreInv) : t.CoreInv := by
  cases h with
  | record => exact hs
  | init cap hr hcheck => exact hs.initApply hr hcheck
  | reset => exact hs.reset
  | clear hr => exact hs.clear hr
  | process hr => exact hs.startBlock hr
  | wtInit size => exact hs.wtInitialise size
  | setMix v hr hv =>
    exact hs.set_par (o := s.osc) hr (fun ⟨_, hrest⟩ => ⟨clamp01_legal hv, hrest⟩) rfl rfl id id id
  | setFeedback v hr hv =>
    exact hs.set_par (o := s.osc) hr (fun ⟨hmix, _, hrest⟩ => ⟨hmix, clamp01_legal hv, hrest⟩) rfl rfl id id id
  | setDelayTime v hr hv =>
    exact hs.set_par (o := s.osc) hr (fun ⟨hmix, hfb, _, hrest⟩ => ⟨hmix, hfb, clampLow0_legal hv, hrest⟩) rfl rfl
      id id id
  | setLfoAmp v hr hv =>
    exact hs.set_par hr (fun ⟨hmix, hfb, hdt, _, hfreq⟩ => ⟨hmix, hfb, hdt, hv, hfreq⟩) rfl rfl (fun _ => rfl)
      id id
  | setLfoFreq v hr hv =>
    exact hs.set_par hr (fun ⟨hmix, hfb, hdt, hamp, _⟩ => ⟨hmix, hfb, hdt, hamp, hv⟩) rfl rfl id (fun _ => rfl)
      (fun _ => rfl)

/-- Every command but a RESET during a block keeps the clauses about running blocks. -/
theorem CommandEffect.blockInv {t : State} {i : Instr} (h : CommandEffect s i t) (hs : s.BlockInv)
    (hreset : i = .reset → s.status.busy = false) : t.BlockInv := by
  obtain ⟨hidle, hcount⟩ := id hs
  cases h with
  | init cap hr hcheck =>
    rw [State.initApply_eq]
    exact ⟨fun _ => hidle hr, fun hb => absurd ((hidle hr).symm.trans hb) Bool.false_ne_true⟩
  | reset =>
    have hb : s.status.busy = false := hreset rfl
    exact ⟨fun _ => hb, fun hb' => absurd (hb.symm.trans hb') Bool.false_ne_true⟩
  | process hr => exact ⟨fun hr' => absurd (hr'.symm.trans hr) Bool.false_ne_true, fun _ => rfl⟩
  | wtInit size => unfold State.wtInitialise; split <;> exact hs
  | _ => exact hs

end Commands

end Sys2Proof.Machine

/-! PROOFS. A frame keeps the engine invariant, and so does every step (R52, R221, R222). -/

namespace Sys2Proof.Machine

/-! ### The delay line in a frame (R177, R222) -/

section Frame
variable {s : State}

theorem State.channelStep_dl (t : Nat) (s : State) (c : Nat) :
    (s.channelStep t c).dl = { s.dl with
      ram := (s.channelStep t c).dl.ram, heads := s.dl.heads.set c ((s.head c + 1) % s.delayM) } := by
  unfold State.channelStep
  simp only [State.bufWrite_dl]
  rfl

theorem State.channels_heads_length (t : Nat) (s : State) (l : List Nat) :
    (l.foldl (State.channelStep t) s).dl.heads.length = s.dl.heads.length := by
  induction l generalizing s with
  | nil => rfl
  | cons c l ih => rw [List.foldl_cons, ih, State.channelStep_dl, List.length_set]

theorem State.frameStep_heads_length (s : State) : s.frameStep.dl.heads.length = s.dl.heads.length :=
  State.channels_heads_length s.seq.procT.toNat s.frameHead _

/-- The parts of a frame for the first `n` channels move their heads by one and no other head; they write no other
register of the delay line. -/
theorem State.channels_dl (t : Nat) (s : State) {n : Nat} (hn : n ≤ s.dl.heads.length) :
    let u := (List.range n).foldl (State.channelStep t) s
    u.dl = { s.dl with ram := u.dl.ram, heads := u.dl.heads } ∧
      ∀ c, u.head c = if c < n then (s.head c + 1) % s.delayM else s.head c := by
  induction n with
  | zero => exact ⟨rfl, fun c => rfl⟩
  | succ n ih =>
    obtain ⟨hdl, hhead⟩ := ih (by omega)
    have hlength := State.channels_heads_length t s (List.range n)
    simp only [List.range_succ, List.foldl_append, List.foldl_cons, List.foldl_nil]
    set u := (List.range n).foldl (State.channelStep t) s
    have hstep := State.channelStep_dl t u n
    have hm : u.delayM = s.delayM := by rw [State.delayM, hdl]; rfl
    have hset : (u.channelStep t n).dl.heads = u.dl.heads.set n ((s.head n + 1) % s.delayM) := by
      rw [hstep, hhead n, if_neg (lt_irrefl n), hm]
    refine ⟨by rw [hstep, hdl], fun c => ?_⟩
    rw [State.head, hset, List.getElem?_set]
    by_cases hc : n = c
    · subst hc
      rw [if_pos rfl, if_pos (by omega), if_pos (Nat.lt_succ_self n)]
      rfl
    · rw [if_neg hc]
      refine (hhead c).trans ?_
      simp only [show c < n + 1 ↔ c < n by omega]

/-- A frame sets the delay length, and moves the head of every channel by one. -/
theorem State.frameStep_dl (hn : s.ch ≤ s.dl.heads.length) :
    s.frameStep.dl = { s.dl with
      len := s.frameHead.dl.len, ram := s.frameStep.dl.ram, heads := s.frameStep.dl.heads } ∧
    ∀ c, s.frameStep.head c = if c < s.ch then (s.head c + 1) % s.delayM else s.head c :=
  State.channels_dl s.seq.procT.toNat s.frameHead hn

/-- Before the channels a frame sets the delay length, a clamped one, and no other register of the line (R225). -/
theorem State.frameHead_dl (s : State) :
    s.frameHead.dl = { s.dl with
      len := delayClamp s.dl.capacity.toNat (delayLength s.spec.sampleRate s.par.delayTime s.oscOutput) } := by
  simp only [State.frameHead, State.dlSetDelay_dl, State.oscAdvance_dl]

/-- A frame without channels leaves the delay line as it was before them. -/
theorem State.frameStep_dl_of_no_channel (hch : s.ch = 0) : s.frameStep.dl = s.frameHead.dl := by
  have hhead : s.frameHead.ch = 0 := hch
  simp only [State.frameStep, State.frame, hhead, List.range_zero, List.foldl_nil]

/-- A frame advances the phase and no other oscillator register (R153). -/
theorem State.frameHead_osc (s : State) :
    s.frameHead.osc = { s.osc with phase := wrapPhase (fadd s.osc.phase s.osc.inc) } := by
  simp only [State.frameHead, State.dlSetDelay_osc, State.oscAdvance_osc]

theorem State.frameStep_osc (s : State) :
    s.frameStep.osc = { s.osc with phase := wrapPhase (fadd s.osc.phase s.osc.inc) } := by
  rw [State.frameStep_eq, State.frameHead_osc]

theorem State.frameStep_spec (s : State) : s.frameStep.spec = s.spec := by rw [State.frameStep_eq]

theorem State.frameStep_par (s : State) : s.frameStep.par = s.par := by rw [State.frameStep_eq]

theorem State.frameStep_ch (s : State) : s.frameStep.ch = s.ch := by rw [State.ch, State.ch, State.frameStep_spec]

theorem State.frameStep_seq (s : State) : s.frameStep.seq = { s.seq with procT := s.seq.procT + 1 } := by
  rw [State.frameStep_eq]

theorem State.frameStep_busy (s : State) :
    s.frameStep.status.busy = if s.seq.procT + 1 = s.seq.procN then false else s.status.busy := by
  rw [State.frameStep_eq]

/-! ### A frame keeps the invariant -/

/-- A frame of a Ready block. -/
theorem State.ReadyInv.frameStep (h : s.ReadyInv) (hheads : s.dl.heads.length = s.params.maxChannels) :
    s.frameStep.ReadyInv := by
  obtain ⟨hb, hvalid, halloc, hg, hf, hi, hsame, -, -, -, hspec, hpar⟩ := h
  obtain ⟨hsr, hbs, ⟨hch1, hchmax⟩, hbuf, ⟨hcap1, hcap24⟩, hram⟩ := hspec
  obtain ⟨hdl, hhead⟩ := State.frameStep_dl (s := s) (by omega)
  have hcap : s.frameStep.dl.capacity = s.dl.capacity := by rw [hdl]
  have hm : s.frameStep.delayM = s.delayM := by rw [State.delayM, State.delayM, hcap]
  have hhead0 : s.frameStep.head 0 = (s.head 0 + 1) % s.delayM := by rw [hhead 0, if_pos (by omega)]
  have hlen : s.frameStep.dl.len = s.frameHead.dl.len := by rw [hdl]
  refine ⟨?_, ?_, ?_, ?_, ?_, ?_, ?_, ?_, ?_, ?_, ⟨?_, ?_, ?_, ?_, ?_, ?_⟩, ?_⟩
  · rwa [State.frameStep_osc]
  · rwa [State.frameStep_wtValid]
  · rwa [hdl]
  · rwa [State.frameStep_osc, State.frameStep_par]
  · rwa [State.frameStep_osc, State.frameStep_par]
  · rwa [State.frameStep_osc, State.frameStep_spec]
  · intro c hc
    rw [State.frameStep_ch] at hc
    rw [hhead0, hhead c, if_pos hc, hsame c hc]
  · rw [hhead0, hm]
    exact Nat.mod_lt _ (Nat.succ_pos _)
  · rw [State.frameStep_osc]
    exact wrapPhase_in_range _
  · rw [hlen, hcap, State.frameHead_dl]
    exact delayClamp_in_range _ hcap1 hcap24
  · rwa [State.frameStep_spec]
  · rwa [State.frameStep_spec, State.frameStep_params]
  · rw [State.frameStep_ch, State.frameStep_params]
    exact ⟨hch1, hchmax⟩
  · rwa [State.frameStep_ch, State.frameStep_spec, State.frameStep_params]
  · rw [hcap]
    exact ⟨hcap1, hcap24⟩
  · rwa [State.frameStep_ch, hm, State.frameStep_params]
  · rwa [State.frameStep_par]

/-- A frame of an Uninitialized block, which only a RESET during a block leaves (log 8): no channel runs, and the zero
registers stay zero. -/
theorem State.ZeroInv.frameStep (h : s.ZeroInv) : s.frameStep.ZeroInv := by
  obtain ⟨hpar, hosc, hspec, hcap, hlen, halloc, hheads⟩ := h
  have hch : s.ch = 0 := by rw [State.ch, hspec]; rfl
  have hdl := (State.frameStep_dl_of_no_channel hch).trans s.frameHead_dl
  have hlength : delayLength s.spec.sampleRate s.par.delayTime s.oscOutput =
      fmul (fadd s.par.delayTime s.oscOutput) fZero := by rw [hspec]; rfl
  refine ⟨?_, ?_, ?_, ?_, ?_, ?_, ?_⟩
  · rwa [State.frameStep_par]
  · rw [State.frameStep_osc, hosc]
    decide +kernel
  · rwa [State.frameStep_spec]
  · rwa [hdl]
  · rw [hdl, hlength, delayClamp_of_not_fgt (fgt_fmul_fZero _)]
    rfl
  · rwa [hdl]
  · rw [hdl, State.frameStep_params]
    exact hheads

theorem State.frameStep_wtInv (h : s.WtInv) : s.frameStep.WtInv := by
  rwa [State.WtInv, State.frameStep_wtValid, State.frameStep_wt, State.frameStep_params]

/-- After a frame of a block that goes on, a frame is left (R221). -/
theorem State.frameStep_procT_lt (h : s.seq.procT.toNat < s.seq.procN.toNat) (hb : s.frameStep.status.busy = true) :
    s.frameStep.seq.procT.toNat < s.frameStep.seq.procN.toNat := by
  rw [State.frameStep_busy] at hb
  split at hb
  · cases hb
  · next hne =>
    rw [State.frameStep_seq]
    have hnext : (s.seq.procT + 1).toNat = s.seq.procT.toNat + 1 := by
      have := s.seq.procN.isLt
      rw [BitVec.toNat_add, show (1 : Word).toNat = 1 from rfl]
      omega
    have hne' : (s.seq.procT + 1).toNat ≠ s.seq.procN.toNat := fun heq => hne (BitVec.eq_of_toNat_eq heq)
    show (s.seq.procT + 1).toNat < s.seq.procN.toNat
    omega

/-- A frame keeps what every step keeps. -/
theorem State.CoreInv.frameStep (h : s.CoreInv) (hb : s.status.busy = true) : s.frameStep.CoreInv := by
  obtain ⟨hparams, hready, huninit, hwt, hbusy, hheads⟩ := h
  refine ⟨?_, fun hr => ?_, fun hr => ?_, State.frameStep_wtInv hwt, State.frameStep_procT_lt (hbusy hb), ?_⟩
  · rwa [State.frameStep_params]
  · rw [State.frameStep_ready] at hr
    exact (hready hr).frameStep hheads
  · rw [State.frameStep_ready] at hr
    exact (huninit hr).frameStep
  · rwa [State.frameStep_heads_length, State.frameStep_params]

/-- A frame keeps the clauses about running blocks. -/
theorem State.BlockInv.frameStep (h : s.BlockInv) (hb : s.status.busy = true) : s.frameStep.BlockInv := by
  obtain ⟨hidle, hcount⟩ := h
  constructor
  · intro hr
    rw [State.frameStep_ready] at hr
    exact absurd ((hidle hr).symm.trans hb) Bool.false_ne_true
  · intro _
    rw [State.frameStep_seq, State.frameStep_spec]
    exact hcount hb

end Frame

/-! ### Every step -/

/-- A RESET is issued during a block by no master but CTRL, and by a CTRL that keeps R355 not at all. -/
theorem State.Issues.reset_not_busy {s : State} (h : s.Issues .reset) (hbase : s.params.base % 4 = 0)
    (hctrl : s.NoResetDuringBlock) : s.status.busy = false := by
  obtain ⟨m, rest, hpending, hheld⟩ := h.hostCmd rfl
  cases m with
  | host =>
    obtain ⟨-, htarget⟩ := BusAccess.target_of_offset
      (a := .write (s.params.base + 0x00C) 32 (cmdwOf .reset)) rfl rfl hbase rfl (by norm_num)
    have hwaits : BusAccess.waitsForBlock s.params (.write (s.params.base + 0x00C) 32 (cmdwOf .reset)) = true :=
      BusAccess.waitsForBlock_iff.2 (.inl ⟨_, _, _, rfl, .inr htarget⟩)
    simpa [State.held, hwaits] using hheld
  | ctrl => exact Bool.eq_false_iff.2 fun hbusy => hctrl hbusy rest hpending

theorem step_keeps_coreInv {s t : State} (hs : s.CoreInv) (hstep : step s = .next t) : t.CoreInv := by
  cases step_effect hstep with
  | store u hu h => obtain ⟨_⟩ := hu; exact h.coreInv hs
  | command u hu i _ h => obtain ⟨_⟩ := hu; exact (CommandEffect.of_exec h).coreInv hs
  | frame u hu hbusy h => obtain ⟨_⟩ := hu; subst h; exact State.CoreInv.frameStep hs hbusy

theorem step_keeps_blockInv {s t : State} (hs : s.BlockInv) (hbase : s.params.base % 4 = 0)
    (hctrl : s.NoResetDuringBlock) (hstep : step s = .next t) : t.BlockInv := by
  cases step_effect hstep with
  | store u hu h => obtain ⟨_⟩ := hu; exact h.blockInv hs
  | command u hu i hi h =>
    obtain ⟨_⟩ := hu
    refine (CommandEffect.of_exec h).blockInv hs ?_
    rintro rfl
    exact hi.reset_not_busy hbase hctrl
  | frame u hu hbusy h => obtain ⟨_⟩ := hu; subst h; exact State.BlockInv.frameStep hs hbusy

/-- What is left of a disciplined program is disciplined. -/
theorem step_keeps_ctrlDisciplined {s t : State} (hs : s.ctrlDisciplined = true) (hstep : step s = .next t) :
    t.ctrlDisciplined = true := by
  obtain ⟨hparams, hsuffix⟩ := step_params_and_ctrl hstep
  rw [State.ctrlDisciplined, List.all_eq_true] at hs ⊢
  rw [hparams]
  exact fun op hop => hs op (hsuffix.subset hop)

/-- Settles O34: the invariant is its part that every step keeps and its clauses about running blocks. -/
theorem engineInvariantKept : Obligations.EngineInvariantKept := by
  refine ⟨fun s t hs hctrl hstep => ?_, fun s t => step_keeps_coreInv, fun s t => step_keeps_ctrlDisciplined⟩
  obtain ⟨hcore, hblock⟩ := State.engineInv_iff.1 hs
  obtain ⟨⟨-, -, -, -, -, hbase⟩, -⟩ := id hcore
  exact State.engineInv_iff.2
    ⟨step_keeps_coreInv hcore hstep, step_keeps_blockInv hblock (by omega) hctrl hstep⟩

end Sys2Proof.Machine

/-! PROOFS. Accesses at the registers of the window and at BUF, the rejected ones, and the accesses that wait for a
block (R70 to R77, R80, R321). -/

namespace Sys2Proof.Machine

/-! ### The registers of the window (R71, R75) -/

/-- An entry of the register table stands for its offset, which is aligned and below BUF. -/
theorem regTable_entry : ∀ e ∈ regTable, regTable.lookup e.1 = some e.2 ∧ e.1 % 4 = 0 ∧ e.1 < 0x1000 := by decide

section Table
variable {s : State} {off : Nat} {r : Reg}

theorem regAt_of_mem_regTable {p : Params} (h : (off, r) ∈ regTable) : regAt p off = some r :=
  have ⟨hlookup, _, hlt⟩ := regTable_entry _ h
  regAt_eq_some.2 (.inl ⟨hlt, hlookup⟩)

theorem State.busAccess_write_entry (m : Port) (v : Word) (hbase : s.params.base % 4 = 0) (h : (off, r) ∈ regTable) :
    s.busAccess m (.write (s.params.base + off) 32 v) = s.writeReg r v :=
  have ⟨_, halign, hlt⟩ := regTable_entry _ h
  State.busAccess_write_register m v hbase (regAt_of_mem_regTable h) halign hlt

theorem State.busAccess_read_entry (m : Port) (hbase : s.params.base % 4 = 0) (h : (off, r) ∈ regTable) :
    s.busAccess m (.read (s.params.base + off) 32) = .next (s.answer m (s.readReg r)) :=
  have ⟨_, halign, hlt⟩ := regTable_entry _ h
  State.busAccess_read_register m hbase (regAt_of_mem_regTable h) halign hlt

end Table

/-- The read-only registers: every mapped word but the ARG registers, the command registers and BUF. -/
def Reg.readOnly : Reg → Bool
  | .hostArg | .hostCmd | .ctrlArg | .ctrlCmd | .buf _ => false
  | _ => true

theorem State.writeReg_of_readOnly (s : State) {r : Reg} (h : r.readOnly = true) (v : Word) :
    s.writeReg r v = .next s := by
  cases r with
  | hostArg | hostCmd | ctrlArg | ctrlCmd | buf k => cases h
  | _ => rfl

/-- Settles O26: the offsets listed are those of the table's read-only registers and of its command registers. -/
theorem readOnlyWritesIgnored : Obligations.ReadOnlyWritesIgnored := by
  intro s m off v hbase
  refine ⟨fun hcmd => ?_, fun hro => ?_⟩
  · obtain ⟨p, rfl⟩ : ∃ p, off = cmdOffset p := by
      rcases List.mem_pair.1 hcmd with rfl | rfl
      exacts [⟨.host, rfl⟩, ⟨.ctrl, rfl⟩]
    cases p with
    | host => exact State.busAccess_read_entry (r := .hostCmd) m hbase (by decide)
    | ctrl => exact State.busAccess_read_entry (r := .ctrlCmd) m hbase (by decide)
  · have hmem : off ∈ (regTable.filter (·.2.readOnly)).map Prod.fst := hro
    obtain ⟨⟨_, r⟩, hentry, rfl⟩ := List.mem_map.1 hmem
    obtain ⟨hentry, hreadOnly⟩ := List.mem_filter.1 hentry
    rw [State.busAccess_write_entry m v hbase hentry, s.writeReg_of_readOnly hreadOnly]

/-- OSC_BOUND reads as 1 or 0. -/
theorem State.readReg_oscBound (s : State) : s.readReg .oscBound = if s.osc.bound = true then 1 else 0 := by
  unfold State.readReg
  cases s.osc.bound <;> rfl

/-- Settles O59: the pairs listed are the table's, each register at its value. -/
theorem registerReadsReturnTheirState : Obligations.RegisterReadsReturnTheirState := by
  intro s m off w hbase hlisted
  rw [← s.readReg_oscBound] at hlisted
  have hmem : (off, w) ∈ regTable.map fun e => (e.1, s.readReg e.2) := hlisted
  obtain ⟨⟨_, r⟩, hentry, heq⟩ := List.mem_map.1 hmem
  cases heq
  exact State.busAccess_read_entry m hbase hentry

/-! ### Rejected accesses (R74) -/

/-- An access that is not 32 bits wide, is misaligned or reaches no mapped offset has no target. -/
theorem BusAccess.target_eq_none {p : Params} {a : BusAccess}
    (h : a.width ≠ 32 ∨ a.addr % 4 ≠ 0 ∨ regAt p (a.addr - p.base) = none) : a.target p = none := by
  by_contra hsome
  obtain ⟨r, hr⟩ := Option.ne_none_iff_exists'.1 hsome
  obtain ⟨-, hwidth, halign, hreg⟩ := BusAccess.target_eq_some.1 hr
  rcases h with h | h | h
  · exact h hwidth
  · exact h halign
  · cases h.symm.trans hreg

/-- An access without a target is not held. -/
theorem State.held_eq_false_of_target {s : State} {a : BusAccess} (m : Port) (h : a.target s.params = none) :
    s.held m a = false := by
  have hwaits : a.waitsForBlock s.params = false := by
    rw [Bool.eq_false_iff, ne_eq, BusAccess.waitsForBlock_iff, h]
    simp
  cases m with
  | host => rw [State.held, hwaits, Bool.and_false]
  | ctrl => rfl

/-- Settles O25: a rejected access has no target. -/
theorem rejectedAccessOnlyFlags : Obligations.RejectedAccessOnlyFlags := by
  intro s m addr width v hin hrejected
  have hwrite : (BusAccess.write addr width v).target s.params = none := BusAccess.target_eq_none hrejected
  have hread : (BusAccess.read addr width).target s.params = none := BusAccess.target_eq_none hrejected
  refine ⟨?_, ?_, State.held_eq_false_of_target m hwrite, State.held_eq_false_of_target m hread⟩
  · simp only [State.busAccess, BusAccess.addr, hin, hwrite, if_true]
    rfl
  · simp only [State.busAccess, BusAccess.addr, hin, hread, if_true]
    rfl

/-! ### Accesses to BUF (R72, R73, R77) -/

section Buf
variable {p : Params} {s : State} {k : Nat}

/-- An aligned 32-bit access at `BUF[k]` reaches it. -/
theorem BusAccess.target_buf (hp : p.Legal) (hk : k < p.bufRamWords) {a : BusAccess}
    (ha : a.addr = p.base + 0x1000 + 4 * k) (hw : a.width = 32) :
    inWindow p a.addr = true ∧ a.target p = some (.buf k) := by
  obtain ⟨-, ⟨-, hwords⟩, -, -, -, hbase⟩ := hp
  have hreg : regAt p (0x1000 + 4 * k) = some (.buf k) := by
    have hword : (0x1000 + 4 * k - 0x1000) / 4 = k := by omega
    exact regAt_eq_some.2 (.inr ⟨by omega, by omega, by rw [hword]⟩)
  rw [← hreg]
  exact BusAccess.target_of_offset (by omega) hw (by omega) (by omega) (by omega)

theorem State.busAccess_write_buf (m : Port) (v : Word) (hp : s.params.Legal) (hk : k < s.params.bufRamWords) :
    s.busAccess m (.write (s.params.base + 0x1000 + 4 * k) 32 v) = .next (s.bufWrite k v) := by
  obtain ⟨hin, htarget⟩ :=
    BusAccess.target_buf (a := .write (s.params.base + 0x1000 + 4 * k) 32 v) hp hk rfl rfl
  simp only [State.busAccess, hin, htarget, if_true]
  rfl

theorem State.busAccess_read_buf (m : Port) (hp : s.params.Legal) (hk : k < s.params.bufRamWords) :
    s.busAccess m (.read (s.params.base + 0x1000 + 4 * k) 32) = .next (s.answer m (s.bufRead k)) := by
  obtain ⟨hin, htarget⟩ := BusAccess.target_buf (a := .read (s.params.base + 0x1000 + 4 * k) 32) hp hk rfl rfl
  simp only [State.busAccess, hin, htarget, if_true]
  rfl

/-- A write to BUF changes BUF only. -/
theorem State.bufWrite_eq (s : State) (k : Nat) (v : Word) :
    s.bufWrite k v = { s with buf := (s.bufWrite k v).buf } := by
  unfold State.bufWrite
  split <;> rfl

/-- The four bytes of `BUF[k]` after a write to it are the word's, low byte first. -/
theorem State.bufByte_bufWrite_inside (hk : k < s.params.bufRamWords) (v : Word) {i : Nat} (hi : i < 4) :
    (s.bufWrite k v).bufByte (bufAddr s.params k + i) = v.extractLsb' (8 * i) 8 := by
  rw [State.bufWrite, if_pos hk, State.bufByte, Memory.read_writeWord]
  interval_cases i <;> simp

end Buf

/-- Settles O27: the access is `State.bufWrite`, whose laws give what is read afterwards. -/
theorem bufWriteThenRead : Obligations.BufWriteThenRead := by
  intro s m k v hp hk
  have hparams : (s.bufWrite k v).params = s.params := s.bufWrite_params k v
  have hread : ∀ j < s.params.bufRamWords, (s.bufWrite k v).busAccess m (.read (s.params.base + 0x1000 + 4 * j) 32) =
      .next ((s.bufWrite k v).answer m ((s.bufWrite k v).bufRead j)) := by
    intro j hj
    rw [← hparams] at hp hj ⊢
    exact State.busAccess_read_buf m hp hj
  refine ⟨s.bufWrite k v, State.busAccess_write_buf m v hp hk, s.bufWrite_eq k v, fun i hi => ?_, fun a ha => ?_, ?_,
    fun j hj hne => ?_⟩
  · exact State.bufByte_bufWrite_inside hk v hi
  · exact s.bufByte_bufWrite_outside k v ha
  · rw [hread k hk, s.bufRead_bufWrite_same hk]
  · rw [hread j hj, s.bufRead_bufWrite_ne hne.symm]

/-! ### The accesses that wait for a block (R80, R321) -/

section Targets
variable {p : Params} {a : BusAccess}

/-- A register of the window that has one offset is reached there alone. -/
theorem BusAccess.target_eq_register {off : Nat} {r : Reg} (hbase : p.base % 4 = 0) (hentry : (off, r) ∈ regTable)
    (hunique : ∀ {o}, regTable.lookup o = some r → o = off) :
    a.target p = some r ↔ a.addr = p.base + off ∧ a.width = 32 := by
  obtain ⟨hlookup, halign, hlt⟩ := regTable_entry _ hentry
  constructor
  · intro h
    obtain ⟨⟨hle, -⟩, hwidth, -, hreg⟩ := BusAccess.target_eq_some.1 h
    rcases regAt_eq_some.1 hreg with ⟨-, hat⟩ | ⟨-, -, rfl⟩
    · have := hunique hat
      exact ⟨by omega, hwidth⟩
    · exact (regTable_lookup_ne_buf hlookup).elim
  · rintro ⟨haddr, hwidth⟩
    obtain ⟨-, htarget⟩ := BusAccess.target_of_offset haddr hwidth hbase halign (by omega)
    exact htarget.trans (regAt_of_mem_regTable hentry)

/-- `BUF[k]` is reached at its four bytes' first address alone. -/
theorem BusAccess.target_eq_buf {k : Nat} (hp : p.Legal) :
    a.target p = some (.buf k) ↔ k < p.bufRamWords ∧ a.addr = p.base + 0x1000 + 4 * k ∧ a.width = 32 := by
  constructor
  · intro h
    obtain ⟨⟨hle, -⟩, hwidth, halign, hreg⟩ := BusAccess.target_eq_some.1 h
    obtain ⟨-, -, -, -, -, hbase⟩ := hp
    rcases regAt_eq_some.1 hreg with ⟨-, hat⟩ | ⟨hge, hlt, hk⟩
    · exact (regTable_lookup_ne_buf hat).elim
    · cases hk
      exact ⟨hlt, by omega, hwidth⟩
  · rintro ⟨hk, haddr, hwidth⟩
    obtain ⟨-, htarget⟩ := BusAccess.target_buf hp hk haddr hwidth
    exact htarget

/-- The accesses that wait for the block, by their addresses. -/
theorem BusAccess.waitsForBlock_iff_addr (hp : p.Legal) :
    a.waitsForBlock p = true ↔
      (∃ v, a = .write (p.base + 0x008) 32 v ∨ a = .write (p.base + 0x00C) 32 v) ∨
      (∃ k, k < p.bufRamWords ∧
        (a = .read (p.base + 0x1000 + 4 * k) 32 ∨ ∃ v, a = .write (p.base + 0x1000 + 4 * k) 32 v)) := by
  have hbase : p.base % 4 = 0 := by
    obtain ⟨-, -, -, -, -, hbase⟩ := hp
    omega
  simp only [BusAccess.waitsForBlock_iff, BusAccess.target_eq_buf hp,
    BusAccess.target_eq_register hbase (by decide) regTable_lookup_hostArg,
    BusAccess.target_eq_register hbase (by decide) regTable_lookup_hostCmd]
  cases a with
  | read addr width => simp [BusAccess.addr, BusAccess.width]
  | write addr width v => simp [BusAccess.addr, BusAccess.width, ← or_and_right, and_comm]

end Targets

/-- Where HOST's next operation is an access, HOST has a step unless the access is held. -/
theorem State.enabled_host_access {s : State} {a : BusAccess} {rest : List MasterOp}
    (h : s.host.pending = .access a :: rest) (hbusy : s.status.busy = true) :
    s.enabled .host = !a.waitsForBlock s.params := by
  simp [State.enabled, State.masterEnabled, State.held, h, hbusy]

/-- CTRL has a step where it has a pending operation. -/
theorem State.enabled_ctrl_iff (s : State) : s.enabled .ctrl = true ↔ s.ctrl.pending ≠ [] := by
  simp only [State.enabled, State.masterEnabled, State.master]
  cases s.ctrl.pending with
  | nil => simp
  | cons op rest => cases op <;> simp [State.held]

/-! ### HOST's record in the other agents' steps -/

theorem CommandEffect.host {s t : State} {i : Instr} (h : CommandEffect s i t) : t.host = s.host := by
  rw [h.frame]

theorem State.writeReg_host {s t : State} {r : Reg} {v : Word} (h : s.writeReg r v = .next t) : t.host = s.host := by
  rcases s.writeReg_cases r v with hr | hr | hr | ⟨k, -, hr⟩ | ⟨p, -, hr⟩ <;> rw [hr] at h
  · cases h; rfl
  · cases h; rfl
  · cases h; rfl
  · cases h; exact s.bufWrite_host k v
  · rcases s.submit_cases p v with ⟨i, -, hsubmit⟩ | ⟨e, -, hsubmit⟩ <;> rw [hsubmit] at h
    · exact (CommandEffect.of_exec h).host
    · cases h; rfl

theorem State.busAccess_ctrl_host {s t : State} {a : BusAccess} (h : s.busAccess .ctrl a = .next t) :
    t.host = s.host := by
  obtain ⟨-, hcases⟩ := State.busAccess_next h
  rcases hcases with ⟨_, _, _, -, -, rfl⟩ | ⟨_, _, _, _, -, -, hwrite⟩ | ⟨_, _, -, -, rfl⟩ | ⟨_, _, _, -, -, rfl⟩
  · rfl
  · exact State.writeReg_host hwrite
  · rfl
  · rfl

theorem State.masterStep_ctrl_host {s t : State} (h : s.masterStep .ctrl = .next t) : t.host = s.host := by
  cases hops : (s.master .ctrl).pending with
  | nil =>
    rw [State.masterStep, hops] at h
    cases h
    rfl
  | cons op rest =>
    cases op with
    | access a =>
      rw [State.masterStep_access hops] at h
      exact (State.busAccess_ctrl_host h).trans (s.setMaster_ctrl_host _)
    | waitIdle =>
      simp only [State.masterStep, hops] at h
      split at h <;> cases h <;> rfl

/-- Where HOST has no step, a step leaves its program and the words it has read as they are. -/
theorem step_keeps_host {s t : State} (hhost : s.enabled .host = false) (hstep : step s = .next t) :
    t.host = s.host := by
  rcases step_cases s with ⟨-, hidle⟩ | ⟨a, u, hchoose, hagent⟩
  · cases hidle.symm.trans hstep
    rfl
  · obtain ⟨henabled, hfields⟩ := State.choose_some hchoose
    have hu : u.host = s.host := by rw [hfields]
    rw [hagent] at hstep
    cases a with
    | host => exact absurd (hhost.symm.trans henabled) Bool.false_ne_true
    | ctrl => exact (State.masterStep_ctrl_host hstep).trans hu
    | engine =>
      cases hstep
      rw [State.frameStep_eq]
      exact hu

/-- Settles O29: what waits by its address, and that no other agent's step touches HOST's program. -/
theorem heldAccessWaitsForBlock : Obligations.HeldAccessWaitsForBlock := by
  refine ⟨fun s a rest hp hbusy hpending => ?_, State.enabled_ctrl_iff⟩
  have henabled := State.enabled_host_access hpending hbusy
  rw [← BusAccess.waitsForBlock_iff_addr hp]
  refine ⟨hbusy, fun hwaits => ?_, fun hfree => ?_⟩
  · have hhost : s.enabled .host = false := by rw [henabled, hwaits, Bool.not_true]
    exact ⟨hhost, fun t hstep => step_keeps_host hhost hstep⟩
  · rw [henabled, Bool.eq_false_iff.2 hfree, Bool.not_false]

end Sys2Proof.Machine

/-! PROOFS. The decoder and the encoder of R104 undo each other, the words that execute a command, and the poll loop
(R101 to R105, R110, R111, R116). -/

namespace Sys2Proof.Machine

/-! ### The operand kinds read back (R102) -/

theorem operandS_argOfS {size : Int} (hlo : -2 ^ 31 ≤ size) (hhi : size < 2 ^ 31) : operandS (argOfS size) = size :=
  BitVec.toInt_ofInt_eq_self (by norm_num) hlo hhi

theorem argOfS_operandS (arg : Word) : argOfS (operandS arg) = arg := BitVec.ofInt_toInt

theorem operandM_argOfM (mask : BitVec 5) : operandM (argOfM mask) = mask := by
  apply BitVec.eq_of_getLsbD_eq
  intro n hn
  simp only [operandM, argOfM, BitVec.getLsbD_extractLsb', BitVec.getLsbD_shiftLeft, BitVec.getLsbD_setWidth]
  simp [hn, show n < 32 by omega, show 16 + n < 32 by omega]

/-- An M operand keeps the bits 20:16 of the operand word and no other. -/
theorem argOfM_operandM (arg : Word) : argOfM (operandM arg) = arg &&& 0x001F0000#32 := by
  apply BitVec.eq_of_getLsbD_eq
  intro n hn
  simp only [operandM, argOfM, BitVec.getLsbD_extractLsb', BitVec.getLsbD_shiftLeft, BitVec.getLsbD_setWidth,
    BitVec.getLsbD_and]
  interval_cases n <;> simp

/-! ### What decodes (R101 to R105) -/

section Decoding
variable {p : Port} {cmdw arg : Word} {i : Instr}

/-- The per-command laws of the encoding, together. -/
theorem encodedInMap : ∀ i : Instr, Laws.EncodedInMap.Statement i
  | .cfgSampleRate v => Laws.EncodedInMap.cfgSampleRate v
  | .cfgBlockSize v => Laws.EncodedInMap.cfgBlockSize v
  | .cfgChannels v => Laws.EncodedInMap.cfgChannels v
  | .cfgMaxDelay v => Laws.EncodedInMap.cfgMaxDelay v
  | .init => Laws.EncodedInMap.init
  | .reset => Laws.EncodedInMap.reset
  | .clear => Laws.EncodedInMap.clear
  | .process n => Laws.EncodedInMap.process n
  | .wtInit size => Laws.EncodedInMap.wtInit size
  | .statusClear mask => Laws.EncodedInMap.statusClear mask
  | .setMix v => Laws.EncodedInMap.setMix v
  | .setFeedback v => Laws.EncodedInMap.setFeedback v
  | .setDelayTime v => Laws.EncodedInMap.setDelayTime v
  | .setLfoAmp v => Laws.EncodedInMap.setLfoAmp v
  | .setLfoFreq v => Laws.EncodedInMap.setLfoFreq v

/-- A command is decoded exactly from its own command word, on a port where it is legal, with an operand word from which
its opcode selects it. -/
theorem decode_eq_ok_iff :
    decode p cmdw arg = .ok i ↔
      cmdw = cmdwOf i ∧ i.legalOn p = true ∧ commandOf (opcodeOf i).toNat arg = some i := by
  obtain ⟨hrsvd, hopc, -⟩ := encodedInMap i
  constructor
  · intro h
    obtain ⟨rfl, hlegal⟩ := decode_ok h
    refine ⟨rfl, hlegal, ?_⟩
    simp only [decode, hrsvd, hopc, ne_eq, not_true_eq_false, if_false] at h
    split at h
    · cases h
    · next j hj =>
      split at h <;> cases h
      exact hj
  · rintro ⟨rfl, hlegal, hcommand⟩
    simp [decode, hrsvd, hopc, hcommand, hlegal]

/-- The opcode of a well-formed command selects it from its own operand word. -/
theorem commandOf_argOf (hi : i.wellFormed = true) : commandOf (opcodeOf i).toNat (argOf i) = some i := by
  cases i with
  | wtInit size =>
    obtain ⟨hlo, hhi⟩ := of_decide_eq_true hi
    exact congrArg (some ∘ Instr.wtInit) (operandS_argOfS hlo hhi)
  | statusClear mask => exact congrArg (some ∘ Instr.statusClear) (operandM_argOfM mask)
  | _ => rfl

/-- An operand a word carries is one its kind admits. -/
theorem wellFormed_of_commandOf (h : commandOf (opcodeOf i).toNat arg = some i) : i.wellFormed = true := by
  cases i with
  | wtInit size =>
    cases h
    exact decide_eq_true ⟨BitVec.le_toInt arg, BitVec.toInt_lt⟩
  | _ => rfl

end Decoding

/-- Settles O2: the word and the operand of a command read back, kind by kind. -/
theorem decodeOfEncodeIsIdentity : Obligations.DecodeOfEncodeIsIdentity := fun _ _ hwf hlegal =>
  decode_eq_ok_iff.2 ⟨rfl, hlegal, commandOf_argOf hwf⟩

/-- Settles O3: the operand word written back, kind by kind. -/
theorem encodeOfDecodeIsIdentity : Obligations.EncodeOfDecodeIsIdentity := by
  intro p cmdw arg i hdecode
  obtain ⟨rfl, hlegal, hcommand⟩ := decode_eq_ok_iff.1 hdecode
  refine ⟨wellFormed_of_commandOf hcommand, hlegal, rfl, ?_⟩
  cases i with
  | wtInit size =>
    cases hcommand
    exact argOfS_operandS arg
  | statusClear mask =>
    cases hcommand
    exact argOfM_operandM arg
  | _ =>
    cases hcommand
    rfl

/-- Settles O1: each word's fields, read off the opcode map. -/
theorem sampleWordsDecode : Obligations.SampleWordsDecode := by
  obtain ⟨hwtInit, -⟩ := decode_wtInit 0xFFFFFFFB
  obtain ⟨-, hwtInitOnCtrl⟩ := decode_wtInit 4
  exact ⟨rfl, rfl, hwtInit, rfl, rfl, rfl, rfl, hwtInitOnCtrl⟩

/-! ### The words that execute a command (R103, R110, R111) -/

section Words
variable {p : Port} {cmdw arg : Word} {i : Instr}

theorem isSetter_eq (i : Instr) : i.isSetter = decide (0x10#8 ≤ opcodeOf i) := by
  cases i <;> rfl

theorem legalOn_iff : i.legalOn p = true ↔ i.isSetter = true ∨ p = .host := by
  cases p <;> simp [Instr.legalOn]

/-- Whether a word decodes does not depend on the operand: it is to be the word of a command legal on the port. -/
theorem exists_decode_iff :
    (∃ i, decode p cmdw arg = .ok i) ↔ ∃ i, cmdw = cmdwOf i ∧ i.legalOn p = true := by
  constructor
  · rintro ⟨i, hi⟩
    exact ⟨i, decode_ok hi⟩
  · rintro ⟨i, hword, hlegal⟩
    obtain ⟨-, -, hmap⟩ := encodedInMap i
    obtain ⟨j, hj, hopc⟩ := Option.map_eq_some_iff.1 (hmap arg)
    refine ⟨j, decode_eq_ok_iff.2 ⟨?_, ?_, ?_⟩⟩
    · rw [hword, cmdwOf, cmdwOf, hopc]
    · rwa [legalOn_iff, isSetter_eq, hopc, ← isSetter_eq, ← legalOn_iff]
    · rw [hopc, hj]

/-- A word listed through its command is that command's word. -/
theorem exists_of_mem_words {l : List Instr} {b : Bool} (hl : ∀ i ∈ l, i.isSetter = b) (h : cmdw ∈ l.map cmdwOf) :
    ∃ i, cmdw = cmdwOf i ∧ i.isSetter = b := by
  obtain ⟨i, hi, rfl⟩ := List.mem_map.1 h
  exact ⟨i, rfl, hl i hi⟩

theorem mem_setterWords_iff :
    cmdw ∈ ([0x10, 0x11, 0x12, 0x13, 0x14] : List Word) ↔ ∃ i, cmdw = cmdwOf i ∧ i.isSetter = true := by
  constructor
  · exact exists_of_mem_words (l := [.setMix 0, .setFeedback 0, .setDelayTime 0, .setLfoAmp 0, .setLfoFreq 0])
      (by decide)
  · rintro ⟨i, rfl, hsetter⟩
    cases i with
    | setMix | setFeedback | setDelayTime | setLfoAmp | setLfoFreq => simp [cmdwOf, opcodeOf]
    | _ => cases hsetter

theorem mem_hostWords_iff :
    cmdw ∈ ([0x01, 0x02, 0x03, 0x04, 0x08, 0x09, 0x0A, 0x0B, 0x0C, 0x0F] : List Word) ↔
      ∃ i, cmdw = cmdwOf i ∧ i.isSetter = false := by
  constructor
  · exact exists_of_mem_words (l := [.cfgSampleRate 0, .cfgBlockSize 0, .cfgChannels 0, .cfgMaxDelay 0, .init, .reset,
      .clear, .process 0, .wtInit 0, .statusClear 0]) (by decide)
  · rintro ⟨i, rfl, hsetter⟩
    cases i with
    | setMix | setFeedback | setDelayTime | setLfoAmp | setLfoFreq => cases hsetter
    | _ => simp [cmdwOf, opcodeOf]

/-- The opcode map by ports: the setters on either, the other ten commands on HOST (R103). -/
theorem legalWord_iff :
    cmdw ∈ ([0x10, 0x11, 0x12, 0x13, 0x14] : List Word) ∨
      (p = .host ∧ cmdw ∈ ([0x01, 0x02, 0x03, 0x04, 0x08, 0x09, 0x0A, 0x0B, 0x0C, 0x0F] : List Word)) ↔
    ∃ i, cmdw = cmdwOf i ∧ i.legalOn p = true := by
  rw [mem_setterWords_iff, mem_hostWords_iff]
  constructor
  · rintro (⟨i, hword, hsetter⟩ | ⟨hport, i, hword, -⟩)
    · exact ⟨i, hword, legalOn_iff.2 (.inl hsetter)⟩
    · exact ⟨i, hword, legalOn_iff.2 (.inr hport)⟩
  · rintro ⟨i, hword, hlegal⟩
    cases hsetter : i.isSetter with
    | true => exact .inl ⟨i, hword, hsetter⟩
    | false => exact .inr ⟨(legalOn_iff.1 hlegal).resolve_left (by simp [hsetter]), i, hword, hsetter⟩

end Words

/-- Settles O4: the legal words are those that decode, and a word that does not decode only flags. -/
theorem illegalCommandsOnlyFlag : Obligations.IllegalCommandsOnlyFlag := by
  intro s p cmdw legal
  have hlegal : legal ↔ ∃ i, decode p cmdw (s.argOn p) = .ok i := legalWord_iff.trans exists_decode_iff.symm
  rw [hlegal]
  refine ⟨fun ⟨i, hi⟩ => ⟨i, hi, State.submit_of_decode hi⟩, fun hnone => ?_⟩
  rcases s.submit_cases p cmdw with ⟨i, hi, -⟩ | ⟨_, -, hsubmit⟩
  · exact absurd ⟨i, hi⟩ hnone
  · exact hsubmit

/-! ### The poll loop (R116) -/

section Poll
variable {s : State} {m : Port} {rest : List MasterOp}

/-- A poll reads STATUS, and stays while its BUSY bit is 1. -/
theorem State.masterStep_waitIdle (h : (s.master m).pending = .waitIdle :: rest) :
    s.masterStep m = .next (s.setMaster m
      { pending := if s.status.busy then .waitIdle :: rest else rest
        reads := s.status.word :: (s.master m).reads }) := by
  have hbusy : s.status.word.getLsbD 1 = s.status.busy := s.status.getLsbD_word 1
  simp only [State.masterStep, h, hbusy]
  cases s.status.busy with
  | true =>
    rw [if_pos rfl, if_pos rfl, ← h]
    rfl
  | false => cases m <;> rfl

theorem State.masterEnabled_waitIdle (h : (s.master m).pending = .waitIdle :: rest) : s.masterEnabled m = true := by
  rw [State.masterEnabled, h]

end Poll

/-- Settles O31: the scheduled master polls, since its read of STATUS never waits. -/
theorem waitIdlePollsStatus : Obligations.WaitIdlePollsStatus := by
  intro s rest sched
  constructor
  · intro hsched hpending
    rw [step_of_schedule hsched (State.masterEnabled_waitIdle (m := .host) hpending)]
    exact State.masterStep_waitIdle (m := .host) hpending
  · intro hsched hpending
    rw [step_of_schedule hsched (State.masterEnabled_waitIdle (m := .ctrl) hpending)]
    exact State.masterStep_waitIdle (m := .ctrl) hpending

end Sys2Proof.Machine

/-! PROOFS. The linear interpolation keeps the magnitudes of its operands in bounds, and a wavetable read interpolates
two entries of WAVE (R132 to R134, R176). -/

namespace Sys2Proof.Machine

/-! ### Magnitudes through the operations -/

section Magnitudes
variable {a b : F32} {m : Nat}

/-- One exponent up, a magnitude code's value is at least twice as large. -/
theorem two_mul_scaledMag_le (m : Nat) : 2 * scaledMag m ≤ scaledMag (m + 2 ^ 23) := by
  by_cases hm : m < 2 ^ 23
  · have hlow : scaledMag m = m := if_pos hm
    have hhigh : scaledMag (m + 2 ^ 23) = m + 2 ^ 23 := by
      simpa only [Nat.zero_mul, Nat.zero_add, pow_zero, Nat.mul_one] using
        scaledMag_code (e := 0) (m := m + 2 ^ 23) (by omega) (.inl rfl)
    omega
  · obtain ⟨e, q, rfl, hfull, hq⟩ : ∃ e q, m = e * 2 ^ 23 + q ∧ 2 ^ 23 ≤ q ∧ q < 2 ^ 24 :=
      ⟨m / 2 ^ 23 - 1, m % 2 ^ 23 + 2 ^ 23, by omega, by omega, by omega⟩
    rw [show e * 2 ^ 23 + q + 2 ^ 23 = (e + 1) * 2 ^ 23 + q by ring, scaledMag_code hq.le (.inr hfull),
      scaledMag_code hq.le (.inr hfull)]
    exact (by ring : 2 * (q * 2 ^ e) = q * 2 ^ (e + 1)).le

theorem fMag_roundInt_le {z : Bool} {v : Int} (h : v.natAbs ≤ scaledMag m) : fMag (roundInt z v) ≤ m := by
  rw [roundInt_eq_pack, fMag_pack _ (roundMag_lt _ _)]
  exact roundMag_le_of_le one_pos (by rwa [Nat.mul_one])

/-- A sum is at most one exponent above its larger operand. -/
theorem fMag_fadd_le (hm : m < infMag) (ha : fMag a ≤ m) (hb : fMag b ≤ m) : fMag (fadd a b) ≤ m + 2 ^ 23 := by
  rw [fadd_finite ((isFinite_iff a).2 (ha.trans_lt hm)) ((isFinite_iff b).2 (hb.trans_lt hm))]
  apply fMag_roundInt_le
  calc (scaled a + scaled b).natAbs
      ≤ scaledMag (fMag a) + scaledMag (fMag b) := by
        simpa only [natAbs_scaled] using Int.natAbs_add_le (scaled a) (scaled b)
    _ ≤ scaledMag m + scaledMag m := Nat.add_le_add (scaledMag_le_iff.2 ha) (scaledMag_le_iff.2 hb)
    _ ≤ scaledMag (m + 2 ^ 23) := by rw [← two_mul]; exact two_mul_scaledMag_le m

theorem fMag_fsub_le (hm : m < infMag) (ha : fMag a ≤ m) (hb : fMag b ≤ m) : fMag (fsub a b) ≤ m + 2 ^ 23 := by
  have hn : isNaN b = false := isNaN_eq_false_of_finite ((isFinite_iff b).2 (hb.trans_lt hm))
  exact fMag_fadd_le hm ha (by rwa [fMag_fneg hn])

/-- A factor in [-1, 1] does not increase the other's magnitude. -/
theorem fMag_fmul_le (ha : fMag a ≤ fMag fOne) (hb : isFinite b = true) : fMag (fmul a b) ≤ fMag b := by
  rw [fmul_finite ((isFinite_iff a).2 (ha.trans_lt fMag_fOne_lt)) hb, fMag_pack _ (roundMag_lt _ _)]
  apply roundMag_le_of_le (Nat.two_pow_pos 149)
  rw [Nat.mul_comm, ← scaledMag_fMag_fOne]
  exact Nat.mul_le_mul_left _ (scaledMag_le_iff.2 ha)

end Magnitudes

/-! ### The interpolation (R133, R176) -/

section Interpolation
variable {a b fr : F32}

theorem fmul_fZero_left (hb : isFinite b = true) : fmul fZero b = pack (fSign b) 0 := by
  have hround : roundMag 0 (2 ^ 149) = 0 := Nat.le_zero.1 (roundMag_le_of_le (Nat.two_pow_pos 149) (Nat.zero_le _))
  rw [fmul_finite (by decide) hb, show fMag fZero = 0 by decide, scaledMag_zero, Nat.zero_mul, hround,
    show fSign fZero = false by decide, Bool.false_bne]

/-- A zero added leaves a finite word as it is, but for the sign of a zero. -/
theorem fadd_pack_zero (ha : isFinite a = true) (sign : Bool) :
    fadd a (pack sign 0) = if isZero a then pack (fSign a && sign) 0 else a := by
  have hfin : isFinite (pack sign 0) = true := (pack_in_unit sign (Nat.zero_le _)).1
  rw [fadd_finite ha hfin, scaled_eq_zero.2 (isZero_pack_zero sign), add_zero, roundInt_scaled ha,
    fSign_pack sign (by norm_num)]

/-- At a fraction of 0 the difference, where it is finite, is multiplied away. -/
theorem interpolate_fZero (ha : isFinite a = true) (hd : isFinite (fsub b a) = true) :
    interpolate a b fZero = if isZero a then pack (fSign a && fSign (fsub b a)) 0 else a := by
  rw [interpolate, fmul_fZero_left hd, fadd_pack_zero ha]

theorem interpolate_fZero_eq_left (ha : isFinite a = true) (hd : isFinite (fsub b a) = true)
    (hz : isZero a = false ∨ a = fZero) : interpolate a b fZero = a := by
  rw [interpolate_fZero ha hd]
  rcases hz with hz | rfl
  · rw [if_neg (Bool.eq_false_iff.1 hz)]
  · rw [if_pos (by decide), show fSign fZero = false by decide, Bool.false_and]
    decide

theorem isZero_interpolate_fZero (ha : isFinite a = true) (hd : isFinite (fsub b a) = true) (hz : isZero a = true) :
    isZero (interpolate a b fZero) = true := by
  rw [interpolate_fZero ha hd, if_pos hz]
  exact isZero_pack_zero _

/-- Settles O49: the formula is the definition, and a fraction of 0 leaves the first entry. -/
theorem interpolationAtEntry : Obligations.InterpolationAtEntry := fun _ _ =>
  ⟨fun _ => rfl, fun ha hd => ⟨interpolate_fZero_eq_left ha hd, isZero_interpolate_fZero ha hd⟩⟩

/-- The difference of two words in [-1, 1] is finite. -/
theorem isFinite_fsub_of_unit (ha : fMag a ≤ fMag fOne) (hb : fMag b ≤ fMag fOne) : isFinite (fsub b a) = true := by
  rw [isFinite_iff]
  exact (fMag_fsub_le fMag_fOne_lt hb ha).trans_lt (by decide)

/-- From entries in [-1, 1] by a fraction in [0, 1] the result stays two exponents above 1.0 at most. -/
theorem isFinite_interpolate (ha : fMag a ≤ fMag fOne) (hb : fMag b ≤ fMag fOne) (hfr : fMag fr ≤ fMag fOne) :
    isFinite (interpolate a b fr) = true := by
  have hdiff : fMag (fsub b a) ≤ fMag fOne + 2 ^ 23 := fMag_fsub_le fMag_fOne_lt hb ha
  have hprod : fMag (fmul fr (fsub b a)) ≤ fMag fOne + 2 ^ 23 :=
    (fMag_fmul_le hfr (isFinite_fsub_of_unit ha hb)).trans hdiff
  have hsum : fMag (interpolate a b fr) ≤ fMag fOne + 2 ^ 23 + 2 ^ 23 :=
    fMag_fadd_le (by decide) (ha.trans (Nat.le_add_right _ _)) hprod
  rw [isFinite_iff]
  exact hsum.trans_lt (by decide)

end Interpolation

/-! ### The wavetable read (R132 to R134) -/

section Read
variable {s : State} {x : F32}

theorem fMag_waveEntry_le (w : Wave) (N k : Nat) : fMag (waveEntry w N k) ≤ fMag fOne := by
  obtain ⟨sign, m, hm, heq⟩ := waveEntry_eq_pack w N k
  rw [heq, fMag_pack sign (hm.trans_lt (fMag_fOne_lt.trans infMag_lt))]
  exact hm

theorem fMag_fsub_ffloor_le (hx : isFinite x = true) : fMag (fsub x (ffloor x)) ≤ fMag fOne := by
  obtain ⟨m, hm, heq⟩ := fsub_ffloor_in_unit hx
  rw [heq, fMag_pack false (hm.trans_lt (fMag_fOne_lt.trans infMag_lt))]
  exact hm

/-- The fraction of a whole value that is not negative is +0.0. -/
theorem fsub_ffloor_of_whole (hx : isFinite x = true) (hs : fSign x = false) (hwhole : scaled x % 2 ^ 149 = 0) :
    fsub x (ffloor x) = fZero := by
  obtain ⟨hval, hsign, -⟩ := fsub_ffloor_spec hx hs
  have hzero : isZero (fsub x (ffloor x)) = true := scaled_eq_zero.1 (hval.trans hwhole)
  exact eq_of_sign_mag hsign ((isZero_iff _).1 hzero)

theorem toInt_ffloor (hx : isFinite x = true) : toInt (ffloor x) = scaled x / 2 ^ 149 := by
  obtain ⟨hfin, hval⟩ := ffloor_spec hx
  rw [toInt, if_pos hfin, hval, Int.mul_ediv_cancel _ (by norm_num)]

/-- Every entry of an initialised table is the parameter's (R132). -/
theorem State.wtEntry_of_valid (hwt : s.WtInv) (hvalid : s.status.wtValid = true) {k : Nat}
    (hk : k < s.wt.size.toNat) : s.wtEntry k = waveEntry s.params.wave s.wt.size.toNat k := by
  obtain ⟨-, htable⟩ := (State.wtInv_of_valid hvalid).1 hwt
  rw [State.wtEntry, htable, read_wtTable _ hk, Option.getD_some]

/-- The next index of a periodic table, from the reduced index or from the index itself. -/
theorem succ_mod_toNat (i : Int) {N : Nat} (hN : 0 < N) : ((i % N).toNat + 1) % N = ((i + 1) % N).toNat := by
  have hnonneg : 0 ≤ i % N := Int.emod_nonneg i (by omega)
  have hnonneg' : 0 ≤ (i + 1) % N := Int.emod_nonneg (i + 1) (by omega)
  zify
  rw [Int.toNat_of_nonneg hnonneg, Int.toNat_of_nonneg hnonneg', Int.emod_add_emod]

/-- A read of an initialised table interpolates WAVE between the whole part of the index and the next, both mod N. -/
theorem State.wtRead_of_valid (hwt : s.WtInv) (hvalid : s.status.wtValid = true) (hx : isFinite x = true) :
    s.wtRead x = interpolate
      (waveEntry s.params.wave s.wt.size.toNat (scaled x / 2 ^ 149 % (s.wt.size.toNat : Int)).toNat)
      (waveEntry s.params.wave s.wt.size.toNat ((scaled x / 2 ^ 149 + 1) % (s.wt.size.toNat : Int)).toNat)
      (fsub x (ffloor x)) := by
  obtain ⟨⟨hsize, -⟩, -⟩ := (State.wtInv_of_valid hvalid).1 hwt
  have hlt (i : Int) : (i % (s.wt.size.toNat : Int)).toNat < s.wt.size.toNat := by
    have := Int.emod_lt_of_pos i (b := (s.wt.size.toNat : Int)) (by omega)
    omega
  simp only [State.wtRead, toInt_ffloor hx]
  rw [succ_mod_toNat _ (by omega), State.wtEntry_of_valid hwt hvalid (hlt _),
    State.wtEntry_of_valid hwt hvalid (hlt _)]

end Read

/-- Settles O50: the read is the interpolation of two entries in [-1, 1] by a fraction in [0, 1), and the fraction of a
whole index is +0.0. -/
theorem wavetableReadIsFinite : Obligations.WavetableReadIsFinite := by
  intro s x _ hwt hvalid hx hs N i a b
  have hread : s.wtRead x = interpolate a b (fsub x (ffloor x)) := State.wtRead_of_valid hwt hvalid hx
  have ha : fMag a ≤ fMag fOne := fMag_waveEntry_le _ _ _
  have hb : fMag b ≤ fMag fOne := fMag_waveEntry_le _ _ _
  refine ⟨hread, ?_, fun hwhole hz => ?_⟩
  · rw [hread]
    exact isFinite_interpolate ha hb (fMag_fsub_ffloor_le hx)
  · rw [hread, fsub_ffloor_of_whole hx hs hwhole]
    exact interpolate_fZero_eq_left (waveEntry_in_unit _ _ _).1 (isFinite_fsub_of_unit ha hb) hz

end Sys2Proof.Machine

/-! PROOFS. The wrapped phase case by case, and the part of a frame before the channels (R153, R154, R225). -/

namespace Sys2Proof.Machine

section WrapCases
variable {a b p : F32}

/-- A word is its sign and its value: the sign tells the two zeros apart. -/
theorem eq_of_sign_scaled (hs : fSign a = fSign b) (hv : scaled a = scaled b) : a = b :=
  eq_of_sign_mag hs (scaledMag_inj.1 (by rw [← natAbs_scaled, ← natAbs_scaled, hv]))

/-- A word in a range that ends at a finite word is finite. -/
theorem isFinite_of_fInRange (hb : isFinite b = true) (h : fInRange a b) : isFinite a = true := by
  obtain ⟨hs, hlt⟩ := h
  have hkey := (fKey_bounds_of_isFinite hb).2
  simp only [flt, fKey, hs, Bool.false_eq_true, if_false, Bool.and_eq_true, decide_eq_true_eq] at hlt hkey
  rw [isFinite_iff]
  omega

/-- The fraction of a word of [+0.0, 1.0) is the word itself. -/
theorem fsub_ffloor_of_fInRange (h : fInRange p fOne) : fsub p (ffloor p) = p := by
  have hp := isFinite_of_fInRange isFinite_fOne h
  obtain ⟨hs, hlt⟩ := h
  have hbelow : scaled p < 2 ^ 149 := scaled_fOne ▸ (flt_iff_scaled_lt hp isFinite_fOne).1 hlt
  have hnonneg : 0 ≤ scaled p := by
    rw [scaled_eq, hs]
    exact Int.natCast_nonneg _
  obtain ⟨hval, hsign, -⟩ := fsub_ffloor_spec hp hs
  exact eq_of_sign_scaled (hsign.trans hs.symm) (hval.trans (Int.emod_eq_of_lt hnonneg hbelow))

theorem feq_eq_false_of_flt (h : flt a b = true) : feq a b = false := by
  simp only [flt, feq, Bool.and_eq_true, Bool.and_eq_false_iff, decide_eq_true_eq, decide_eq_false_iff_not] at h ⊢
  exact .inr h.2.ne

theorem wrapPhase_of_isFinite (hp : isFinite p = true) :
    wrapPhase p = if feq (fsub p (ffloor p)) fOne = true then fZero else fsub p (ffloor p) := by
  rw [wrapPhase, if_pos hp]

theorem wrapPhase_of_not_isFinite (hp : isFinite p = false) : wrapPhase p = fZero := by
  simp [wrapPhase, hp]

/-- A phase already in [+0.0, 1.0) is kept. -/
theorem wrapPhase_of_fInRange (h : fInRange p fOne) : wrapPhase p = p := by
  rw [wrapPhase_of_isFinite (isFinite_of_fInRange isFinite_fOne h), fsub_ffloor_of_fInRange h,
    feq_eq_false_of_flt h.2, if_neg Bool.false_ne_true]

end WrapCases

/-- Settles O45: the range, and the wrapped phase of a word in it, of an infinity or NaN, and of any finite word. -/
theorem wrapLandsInUnitInterval : Obligations.WrapLandsInUnitInterval := fun p =>
  ⟨wrapPhase_in_range p, wrapPhase_of_fInRange, wrapPhase_of_not_isFinite, wrapPhase_of_isFinite⟩

/-- Settles O52: the head of a frame changes the oscillator and the delay line, each by its own law. -/
theorem frameAdvancesOscillatorOnce : Obligations.FrameAdvancesOscillatorOnce := by
  intro s y
  rw [State.frameHead_eq, State.frameHead_osc, State.frameHead_dl, delayLength, State.oscOutput]

end Sys2Proof.Machine

/-! PROOFS. The delay length, the capacity, and the values a pop reads (R171, R175 to R177, R180). -/

namespace Sys2Proof.Machine

/-! ### The delay length set (R175, R182) -/

section SetDelay
variable {cap : Nat} {L a b x y : F32}

theorem flt_iff : flt a b = true ↔ isNaN a = false ∧ isNaN b = false ∧ fKey a < fKey b := by
  simp [flt, and_assoc]

/-- The largest value below a positive finite word has the code before its code. -/
theorem nextDown_spec (hx : isFinite x = true) (hs : fSign x = false) (hpos : 0 < fMag x) :
    fSign (nextDown x) = false ∧ fMag (nextDown x) = fMag x - 1 := by
  have hz : isZero x = false := Bool.eq_false_iff.2 fun h => by rw [isZero_iff] at h; omega
  rw [show nextDown x = x - 1#32 by simp [nextDown, hs, hz, hx]]
  exact fMag_sub_one hs hpos

/-- No value lies between `nextDown x` and a positive finite `x`. -/
theorem fle_nextDown_of_flt (hx : isFinite x = true) (hs : fSign x = false) (hpos : 0 < fMag x)
    (hy : flt y x = true) : fle y (nextDown x) = true := by
  obtain ⟨hyn, -, hkey⟩ := flt_iff.1 hy
  obtain ⟨hdn, -, -⟩ := flt_iff.1 (nextDown_in_range hx hs hpos).2
  obtain ⟨hsign, hmag⟩ := nextDown_spec hx hs hpos
  have hkx : fKey x = fMag x := by simp [fKey, hs]
  have hkd : fKey (nextDown x) = (fMag x - 1 : Nat) := by simp [fKey, hsign, hmag]
  rw [fle_iff_fKey_le hyn hdn]
  omega

theorem delayClamp_of_lt (hpos : fgt L fZero = true) (hlt : flt L (fromInt cap) = true) : delayClamp cap L = L := by
  simp [delayClamp, hpos, hlt]

theorem delayClamp_of_not_lt (hpos : fgt L fZero = true) (hlt : flt L (fromInt cap) = false) :
    delayClamp cap L = nextDown (fromInt cap) := by
  simp [delayClamp, hpos, hlt]

/-- A length in [+0.0, CAP) has its whole part below CAP. -/
theorem toInt_ffloor_of_fInRange_capacity (h1 : 1 ≤ cap) (h2 : cap ≤ 2 ^ 24) (h : fInRange x (fromInt cap)) :
    toInt (ffloor x) ≤ (cap : Int) - 1 := by
  obtain ⟨hcap, -, -⟩ := fromInt_capacity h1 h2
  obtain ⟨-, hval, -⟩ := fromInt_spec (n := (cap : Int)) (by rw [abs_le]; omega)
  have hx := isFinite_of_fInRange hcap h
  have hlt := (flt_iff_scaled_lt hx hcap).1 h.2
  rw [toInt_ffloor hx]
  omega

end SetDelay

/-- Settles O46, branch by branch of the clamp; each value it gives lies in the range, so its whole part lies below the
capacity. -/
theorem delayLengthClamped : Obligations.DelayLengthClamped := by
  intro cap L h1 h2
  obtain ⟨hfin, hsign, hpos⟩ := fromInt_capacity h1 h2
  have hrange := delayClamp_in_range L h1 h2
  refine ⟨hrange, delayClamp_of_lt, delayClamp_of_not_fgt, fun hgt hlt y hy => ?_,
    toInt_ffloor_of_fInRange_capacity h1 h2 hrange, fun s hs => ?_⟩
  · rw [delayClamp_of_not_lt hgt hlt]
    exact fle_nextDown_of_flt hfin hsign hpos hy
  · rw [State.dlSetDelay, hs]

/-! ### The capacity as a ceiling (R171) -/

section Ceiling
variable {sr md : F32}

theorem dlCapacity_of_not_isFinite (h : isFinite (fmul sr md) = false) : dlCapacity sr md = none := by
  simp [dlCapacity, h]

theorem feq_fceil_fZero_iff {x : F32} (hx : isFinite x = true) :
    feq (fceil x) fZero = true ↔ -(-scaled x / 2 ^ 149) = 0 := by
  obtain ⟨hfin, hval⟩ := fceil_spec hx
  have hzero : scaled fZero = 0 := scaled_eq_zero.2 (by decide)
  rw [feq_iff_fKey_eq (isNaN_eq_false_of_finite hfin) (by decide), fKey_eq_iff, hval, hzero]
  omega

theorem fgt_fceil_maxCapacity_iff {x : F32} (hx : isFinite x = true) :
    fgt (fceil x) (fromInt (2 ^ 24)) = true ↔ 2 ^ 24 < -(-scaled x / 2 ^ 149) := by
  obtain ⟨hfin, hval⟩ := fceil_spec hx
  obtain ⟨hmax, hmaxval, -⟩ := fromInt_spec (n := 2 ^ 24) (by norm_num)
  rw [fgt, flt_iff_scaled_lt hmax hfin, hval, hmaxval]
  omega

theorem toInt_fceil {x : F32} (hx : isFinite x = true) : toInt (fceil x) = -(-scaled x / 2 ^ 149) := by
  obtain ⟨hfin, hval⟩ := fceil_spec hx
  rw [toInt, if_pos hfin, hval]
  omega

/-- The capacity in integers: the ceiling of a finite product, FAIL where that is 0 or above 2^24. -/
theorem dlCapacity_of_isFinite (h : isFinite (fmul sr md) = true) :
    dlCapacity sr md =
      if -(-scaled (fmul sr md) / 2 ^ 149) = 0 ∨ 2 ^ 24 < -(-scaled (fmul sr md) / 2 ^ 149) then none
      else some (-(-scaled (fmul sr md) / 2 ^ 149)).toNat := by
  simp only [dlCapacity, h, if_true, Bool.or_eq_true, feq_fceil_fZero_iff h, fgt_fceil_maxCapacity_iff h, toInt_fceil h]

end Ceiling

/-- Settles O47: the capacity in integers, for a product that is not negative. -/
theorem capacityIsCeiling : Obligations.CapacityIsCeiling := by
  intro sr md hsr hmd
  have hnonneg := scaled_fmul_nonneg hsr hmd
  cases hfin : isFinite (fmul sr md) with
  | false =>
    rw [dlCapacity_of_not_isFinite hfin]
    exact .inl rfl
  | true =>
    rw [dlCapacity_of_isFinite hfin]
    by_cases hfail : -(-scaled (fmul sr md) / 2 ^ 149) = 0 ∨ 2 ^ 24 < -(-scaled (fmul sr md) / 2 ^ 149)
    · rw [if_pos hfail]
      exact .inr (by omega)
    · rw [if_neg hfail]
      exact ⟨by omega, by omega, rfl, by omega, by omega⟩

/-! ### The index of an earlier push (R176) -/

section Tap
variable {h n M : Nat}

/-- Up to M pushes back the index wraps at most once. -/
theorem tapIndex_eq (hh : h < M) (hn : n ≤ M) : tapIndex h n M = if n ≤ h then h - n else h + M - n := by
  unfold tapIndex
  split
  · rw [Int.emod_eq_of_lt (by omega) (by omega)]
    omega
  · rw [← Int.add_emod_right, Int.emod_eq_of_lt (by omega) (by omega)]
    omega

theorem tapIndex_lt (hh : h < M) (hn : n ≤ M) : tapIndex h n M < M := by
  rw [tapIndex_eq hh hn]
  split <;> omega

theorem tapIndex_zero (hh : h < M) : tapIndex h 0 M = h := tapIndex_eq hh (Nat.zero_le M)

theorem tapIndex_ne_head (hh : h < M) (hn : 0 < n) (hnM : n < M) : tapIndex h n M ≠ h := by
  rw [tapIndex_eq hh hnM.le]
  split <;> omega

/-- Behind a head that a push has moved, every index is one push further back. -/
theorem tapIndex_next_head (h n M : Nat) : tapIndex ((h + 1) % M) (n + 1) M = tapIndex h n M := by
  unfold tapIndex
  push_cast
  rw [Int.emod_sub_emod, add_sub_add_right_eq_sub]

end Tap

/-! ### One push (R177) -/

/-- Channel `c` has an allocated line of the delay RAM, in canonical form, and a write head in it. -/
structure State.LiveLine (s : State) (c : Nat) : Prop where
  wf : DelayRam.wf s.dl.ram
  alloc : s.dl.alloc = true
  channel : c < s.ch
  heads : c < s.dl.heads.length
  head : s.head c < s.delayM

section Push
variable {s : State} {c d k : Nat}

/-- A word of an owned line is what the delay RAM lists, or +0.0. -/
theorem State.delayRead_of_alloc (halloc : s.dl.alloc = true) (hc : c < s.ch) (hk : k < s.delayM) :
    s.delayRead c k = (Cells.read s.dl.ram (s.delayIndex c k)).getD 0 := by
  have howned : s.delayIndex c k < s.ch * s.delayM := by
    have hrow := Nat.mul_le_mul_right s.delayM (Nat.succ_le_of_lt hc)
    rw [Nat.succ_mul] at hrow
    unfold State.delayIndex
    omega
  simp only [State.delayRead, halloc, howned, and_self, if_true]

/-- Words of different channels or places are different words of the RAM (R172). -/
theorem State.delayIndex_inj {j : Nat} (hk : k < s.delayM) (hj : j < s.delayM) :
    s.delayIndex c k = s.delayIndex d j ↔ c = d ∧ k = j := by
  have hpos : 0 < s.delayM := Nat.succ_pos _
  refine ⟨fun h => ?_, fun ⟨hcd, hkj⟩ => by rw [hcd, hkj]⟩
  have hdiv (c : Nat) {k : Nat} (hk : k < s.delayM) : s.delayIndex c k / s.delayM = c := by
    rw [State.delayIndex, Nat.mul_comm, Nat.mul_add_div hpos, Nat.div_eq_of_lt hk, Nat.add_zero]
  obtain rfl : c = d := by rw [← hdiv c hk, h, hdiv d hj]
  exact ⟨rfl, Nat.add_left_cancel h⟩

/-- A push writes the word at its channel's head and no other word of the line. -/
theorem State.delayRead_dlPush (hwf : DelayRam.wf s.dl.ram) (halloc : s.dl.alloc = true) (hd : d < s.ch)
    (hhead : s.head c < s.delayM) (hk : k < s.delayM) (v : F32) :
    (s.dlPush c v).delayRead d k = if c = d ∧ s.head c = k then v else s.delayRead d k := by
  rw [State.delayRead_of_alloc halloc hd hk,
    State.delayRead_of_alloc (s := s.dlPush c v) halloc hd hk]
  refine (DelayRam.read_write hwf _ _ v).trans ?_
  simp only [← State.delayIndex_inj hhead hk (c := c) (d := d)]
  rfl

/-- A push moves its channel's head to the next place (R177). -/
theorem State.head_dlPush (hc : c < s.dl.heads.length) (v : F32) :
    (s.dlPush c v).head c = (s.head c + 1) % s.delayM := by
  rw [State.head, State.dlPush_dl, List.getElem?_set_self hc, Option.getD_some]

theorem State.LiveLine.dlPush (h : s.LiveLine c) (v : F32) : (s.dlPush c v).LiveLine c where
  wf := DelayRam.wf_write h.wf _ v
  alloc := h.alloc
  channel := h.channel
  heads := by rw [State.dlPush_dl, List.length_set]; exact h.heads
  head := by
    rw [State.head_dlPush h.heads]
    exact Nat.mod_lt _ (Nat.succ_pos _)

end Push

/-! ### The values pushed earlier (R180) -/

/-- The value pushed `j` pushes ago, `vs` the values pushed, the last one last; +0.0 before the first. -/
def pushedAgo (vs : List F32) (j : Nat) : F32 := if j ≤ vs.length then vs.getD (vs.length - j) fZero else fZero

section Pushes
variable {s : State} {c : Nat}

theorem pushedAgo_nil (j : Nat) : pushedAgo [] j = fZero := by simp [pushedAgo]

theorem pushedAgo_concat_one (vs : List F32) (v : F32) : pushedAgo (vs ++ [v]) 1 = v := by
  simp [pushedAgo]

/-- With one more push every earlier value is one push further back. -/
theorem pushedAgo_concat_succ (vs : List F32) (v : F32) {j : Nat} (hj : 0 < j) :
    pushedAgo (vs ++ [v]) (j + 1) = pushedAgo vs j := by
  simp only [pushedAgo, List.length_append, List.length_singleton, Nat.add_le_add_iff_right, Nat.add_sub_add_right]
  split
  · rw [List.getD_append _ _ _ _ (by omega)]
  · rfl

theorem State.pushes_concat (s : State) (c : Nat) (vs : List F32) (v : F32) :
    s.pushes c (vs ++ [v]) = (s.pushes c vs).dlPush c v := by
  simp [State.pushes]

theorem State.LiveLine.pushes (h : s.LiveLine c) (vs : List F32) : (s.pushes c vs).LiveLine c := by
  induction vs using List.reverseRecOn with
  | nil => exact h
  | append_singleton vs v ih =>
    rw [State.pushes_concat]
    exact ih.dlPush v

/-- Pushes leave the capacity as it is. -/
theorem State.delayM_pushes (s : State) (c : Nat) (vs : List F32) : (s.pushes c vs).delayM = s.delayM := by
  induction vs using List.reverseRecOn with
  | nil => rfl
  | append_singleton vs v ih =>
    rw [State.pushes_concat]
    exact ih

/-- `j` places behind the head stands the value pushed `j` pushes ago, for as far back as the line is long: the last
push is at the old head, and the others keep their places as the head moves on. -/
theorem State.delayRead_tapIndex_pushes (hlive : s.LiveLine c) (vs : List F32) {j : Nat} (hj : 0 < j)
    (hjM : j ≤ s.delayM) (hvs : j ≤ vs.length ∨ ∀ k, k < s.delayM → s.delayRead c k = fZero) :
    (s.pushes c vs).delayRead c (tapIndex ((s.pushes c vs).head c) j s.delayM) = pushedAgo vs j := by
  induction vs using List.reverseRecOn generalizing j with
  | nil =>
    rw [pushedAgo_nil]
    have hzeros := hvs.resolve_left (Nat.not_le.2 hj)
    exact hzeros _ (tapIndex_lt hlive.head hjM)
  | append_singleton vs v ih =>
    obtain ⟨j, rfl⟩ := Nat.exists_eq_add_of_le' hj
    have hM := s.delayM_pushes c vs
    have hu := hlive.pushes vs
    have hhead : (s.pushes c vs).head c < s.delayM := hM ▸ hu.head
    have hread {k : Nat} (hk : k < s.delayM) := State.delayRead_dlPush hu.wf hu.alloc hu.channel hu.head (hM ▸ hk) v
    rw [State.pushes_concat, State.head_dlPush hu.heads, hM, tapIndex_next_head,
      hread (tapIndex_lt hhead (by omega))]
    rcases Nat.eq_zero_or_pos j with rfl | hjpos
    · rw [tapIndex_zero hhead, if_pos ⟨rfl, rfl⟩, Nat.zero_add, pushedAgo_concat_one]
    · have hne := tapIndex_ne_head hhead hjpos (by omega)
      rw [if_neg fun heq => hne heq.2.symm, pushedAgo_concat_succ vs v hjpos]
      exact ih hjpos (by omega) (hvs.imp_left fun h => by simpa using h)

/-- A pop at length `L` interpolates the two words behind the head that the whole part of `L` names (R176). -/
theorem State.dlPop_of_len (s : State) (c : Nat) {i : Nat} {L : F32} (hi : toInt (ffloor L) = i) :
    State.dlPop { s with dl := { s.dl with len := L } } c =
      interpolate (s.delayRead c (tapIndex (s.head c) (i + 1) s.delayM))
        (s.delayRead c (tapIndex (s.head c) (i + 2) s.delayM)) (fsub L (ffloor L)) := by
  simp only [State.dlPop, hi, Int.toNat_natCast]
  rfl

end Pushes

/-- Settles O54: the pop reads the places of the last i + 1 and i + 2 pushes, which the line is long enough to hold. -/
theorem popReadsEarlierPushes : Obligations.PopReadsEarlierPushes := by
  intro s c i L vs hwf halloc hc hheads hhead hcap hi hvs u ago
  have hlive : s.LiveLine c := ⟨hwf, halloc, hc, hheads, hhead⟩
  have hM : s.delayM = s.dl.capacity.toNat + 1 := rfl
  have htap {j : Nat} (hj : 0 < j) (hj2 : j ≤ i + 2) :
      u.delayRead c (tapIndex (u.head c) j u.delayM) = ago j := by
    rw [s.delayM_pushes c vs]
    exact s.delayRead_tapIndex_pushes hlive vs hj (by omega) (hvs.imp_left hj2.trans)
  rw [u.dlPop_of_len c hi, htap (by omega) (by omega), htap (by omega) le_rfl, interpolate]

end Sys2Proof.Machine

/-! PROOFS. The engine's commands case by case: staging, INIT, RESET, CLEAR, PROCESS and STATUS_CLEAR (R200 to R220,
R228), and the silence that CLEAR leaves on the delay line (R176, R178, R214). -/

namespace Sys2Proof.Machine

/-! ### Staging, PROCESS and STATUS_CLEAR (R200 to R203, R220, R228) -/

/-- Settles O8: each command is one row of the opcode map and one store. -/
theorem cfgCommandsStageOperands : Obligations.CfgCommandsStageOperands := fun _ _ =>
  ⟨⟨rfl, rfl, rfl⟩, ⟨rfl, rfl, rfl⟩, ⟨rfl, rfl, rfl⟩, ⟨rfl, rfl, rfl⟩⟩

section Records
variable {s : State} {n : Word}

theorem exec_process_of_not_ready (hr : s.status.ready = false) : exec (.process n) s = .next s := by
  simp [exec, execProcess, hr]

theorem exec_process_of_ne (hr : s.status.ready = true) (hn : n ≠ s.spec.blockSize) :
    exec (.process n) s = .next (s.flag .errFrames) := by
  simp [exec, execProcess, hr, hn]

theorem exec_process_of_eq (hr : s.status.ready = true) (hn : n = s.spec.blockSize) :
    exec (.process n) s = .next (s.startBlock n) := by
  simp [exec, execProcess, hr, hn]

/-- The sticky bits are no part of the other bits of the STATUS word. -/
theorem Status.getLsbD_word_of_sticky (t : Status) (sticky : BitVec 5) {n : Nat} (hn : n < 16 ∨ 21 ≤ n) :
    (Status.word { t with sticky := sticky }).getLsbD n = t.word.getLsbD n := by
  rw [Status.getLsbD_word, Status.getLsbD_word]
  rcases hn with hlow | hhigh
  · simp only [hlow, if_true]
  · rw [BitVec.getLsbD_of_ge sticky _ (by omega), BitVec.getLsbD_of_ge t.sticky _ (by omega)]

end Records

/-- Settles O13, branch by branch of R220. -/
theorem processStartsBlock : Obligations.ProcessStartsBlock := fun _ _ =>
  ⟨rfl, rfl, exec_process_of_not_ready, exec_process_of_ne, exec_process_of_eq⟩

/-- Settles O14: the command writes the sticky field, which is bits 20:16 of the word. -/
theorem statusClearMasksStickyBits : Obligations.StatusClearMasksStickyBits := by
  intro s arg
  have hsticky (t : Status) : t.word.extractLsb' 16 5 = t.sticky := by
    obtain ⟨-, -, -, -, -, hsticky, -⟩ := statusWordLayout t
    exact hsticky
  refine ⟨rfl, rfl, s.clearSticky (arg.extractLsb' 16 5), rfl, ?_, fun n hn => ?_, rfl⟩
  · rw [hsticky, hsticky, State.clearSticky_status]
  · exact s.status.getLsbD_word_of_sticky _ hn

/-! ### INIT (R210, R211) -/

section Init
variable {s : State} {cap : Nat}

theorem exec_init_of_check (hr : s.status.ready = false) (hcheck : initCheck s.params s.cfg = .ok cap) :
    exec .init s = .next (s.initApply cap) := by
  simp [exec, execInit, hr, hcheck]

/-- The wavetable after an initialisation: the one there is, or a new one (R130). -/
theorem State.wtInitialise_wt (s : State) (size : Int) :
    (s.wtInitialise size).wt =
      if s.status.wtValid then s.wt
      else { size := BitVec.ofNat 32 (wtClampSize s.params size)
             table := wtTable s.params (wtClampSize s.params size) } := by
  unfold State.wtInitialise
  split <;> rfl

/-- Every word a channel owns of an allocated line that lists none is +0.0. -/
theorem State.delayRead_of_ram_nil {c k : Nat} (halloc : s.dl.alloc = true) (hram : s.dl.ram = []) (hc : c < s.ch)
    (hk : k < s.delayM) : s.delayRead c k = fZero := by
  rw [State.delayRead_of_alloc halloc hc hk, hram]
  rfl

end Init

/-- Settles O10: INIT_APPLY by its fields, the capacity a word because INIT's checks bound it. -/
theorem initAppliesConfiguration : Obligations.InitAppliesConfiguration := by
  intro s cap hr hcheck t
  obtain ⟨hmd, hsr, -, -, -, hcap, -⟩ := initCheck_ok hcheck
  obtain ⟨-, hcap24⟩ := dlCapacity_bounds hsr hmd hcap
  have hcapval : t.dl.capacity.toNat = cap := by
    show (BitVec.ofNat 32 cap).toNat = cap
    rw [BitVec.toNat_ofNat, Nat.mod_eq_of_lt (by omega)]
  have hnext : exec .init s = .next t := by
    rw [exec_init_of_check hr hcheck, State.initApply_eq, State.wtInitialise_wt]
    rfl
  refine ⟨hnext, rfl, hcapval, hcap, fun c k hc hk => State.delayRead_of_ram_nil rfl rfl hc ?_⟩
  rwa [State.delayM, hcapval]

/-! ### RESET (R213) -/

/-- An Uninitialized block holds the values RESET writes. -/
theorem State.ZeroInv.reset_eq {s : State} (h : s.ZeroInv) (hr : s.status.ready = false) (ram : List (Nat × Word)) :
    { s with
      par := Parameters.zero, spec := ProcessSpec.zero, osc := Oscillator.zero
      dl := { capacity := 0, len := 0, heads := List.replicate s.params.maxChannels 0, alloc := false, ram := ram }
      status := { s.status with ready := false } } = { s with dl := { s.dl with ram := ram } } := by
  obtain ⟨hpar, hosc, hspec, hcap, hlen, halloc, hheads⟩ := h
  have hstatus : { s.status with ready := false } = s.status := by rw [← hr]
  simp only [hstatus, hpar, hosc, hspec, hcap, hlen, halloc, hheads]

/-- Settles O11: RESET's writes, which an Uninitialized block's registers already hold. -/
theorem resetTearsDown : Obligations.ResetTearsDown := by
  intro s arg
  refine ⟨rfl, rfl, _, rfl, rfl, fun hs hr => ?_⟩
  obtain ⟨-, -, huninit, -⟩ := hs
  obtain ⟨hzero, -⟩ := huninit hr
  exact hzero.reset_eq hr []

/-! ### CLEAR (R178, R214) -/

section Clear
variable {s : State}

theorem exec_clear_of_ready (hr : s.status.ready = true) : exec .clear s = .next s.dlClear := by
  simp [exec, execClear, hr]

theorem exec_clear_of_not_ready (hr : s.status.ready = false) : exec .clear s = .next s := by
  simp [exec, execClear, hr]

theorem State.delayRead_dlClear {c k : Nat} (halloc : s.dl.alloc = true) (hc : c < s.ch) (hk : k < s.delayM) :
    s.dlClear.delayRead c k = fZero :=
  State.delayRead_of_ram_nil (s := s.dlClear) halloc rfl hc hk

theorem State.head_dlClear {c : Nat} (hc : c < s.params.maxChannels) : s.dlClear.head c = 0 :=
  State.head_of_replicate (s := s.dlClear) rfl hc

end Clear

/-- Settles O12: CLEAR by its branches. -/
theorem clearZeroesHistory : Obligations.ClearZeroesHistory := fun s _ =>
  ⟨rfl, rfl, exec_clear_of_not_ready, fun hr =>
    ⟨s.dlClear, exec_clear_of_ready hr, fun halloc _ _ => State.delayRead_dlClear halloc, fun _ => State.head_dlClear,
      rfl⟩⟩

/-! ### The pop of a line of zeros (R176, R214) -/

/-- An index of an earlier push lies in the channel's line, however many pushes ago. -/
theorem tapIndex_lt_of_pos {h n M : Nat} (hM : 0 < M) : tapIndex h n M < M := by
  have := Int.emod_lt_of_pos ((h : Int) - n) (b := M) (by omega)
  unfold tapIndex
  omega

theorem fmul_comm_of_finite {a b : F32} (ha : isFinite a = true) (hb : isFinite b = true) : fmul a b = fmul b a := by
  rw [fmul_finite ha hb, fmul_finite hb ha, Nat.mul_comm, bne_comm]

/-- The fraction of a finite word is finite. -/
theorem isFinite_fsub_ffloor {x : F32} (hx : isFinite x = true) : isFinite (fsub x (ffloor x)) = true :=
  (isFinite_iff _).2 ((fMag_fsub_ffloor_le hx).trans_lt fMag_fOne_lt)

/-- Between two +0.0 words an interpolation by a finite fraction gives +0.0. -/
theorem interpolate_fZero_fZero {fr : F32} (hfr : isFinite fr = true) : interpolate fZero fZero fr = fZero := by
  have hdiff : fsub fZero fZero = fZero := by decide
  rw [interpolate, hdiff, fmul_comm_of_finite hfr (by decide), fmul_fZero_left hfr, fadd_pack_zero (by decide),
    if_pos (by decide), show fSign fZero = false by decide, Bool.false_and]
  rfl

/-- Settles O55: both words a pop reads are +0.0 after CLEAR, and the fraction of the delay length is finite. -/
theorem clearSilencesDelayLine : Obligations.ClearSilencesDelayLine := by
  intro s hs hr
  obtain ⟨-, hready, -⟩ := hs
  obtain ⟨-, -, halloc, -, -, -, -, -, -, hlen, ⟨-, -, -, -, ⟨hcap1, hcap24⟩, -⟩, -⟩ := hready hr
  obtain ⟨hcap, -, -⟩ := fromInt_capacity hcap1 hcap24
  have hread {c k : Nat} (hc : c < s.ch) (n : Nat) : s.dlClear.delayRead c (tapIndex k n s.dlClear.delayM) = fZero :=
    State.delayRead_dlClear halloc hc (tapIndex_lt_of_pos (Nat.succ_pos _))
  refine ⟨s.dlClear, exec_clear_of_ready hr, fun c hc => ?_⟩
  simp only [State.dlPop, hread hc]
  exact interpolate_fZero_fZero (isFinite_fsub_ffloor (isFinite_of_fInRange hcap hlen))

end Sys2Proof.Machine

/-! PROOFS. A block runs one frame for each of its frames, and a frame gives every channel its output, its pushed value
and its head from the state before the channels (R153, R176, R177, R179, R221 to R225). -/

namespace Sys2Proof.Machine

/-! ### The frames of a block (R221) -/

section Block
variable {s : State}

theorem State.frames_succ (s : State) (m : Nat) : s.frames (m + 1) = (s.frames m).frameStep := by
  induction m generalizing s with
  | zero => rfl
  | succ m ih => exact ih s.frameStep

theorem State.frameStep_procN (s : State) : s.frameStep.seq.procN = s.seq.procN := by rw [State.frameStep_seq]

/-- A frame counts itself, where the count stays within the word. -/
theorem State.frameStep_procT (h : s.seq.procT.toNat < s.seq.procN.toNat) :
    s.frameStep.seq.procT.toNat = s.seq.procT.toNat + 1 := by
  have hlt := s.seq.procN.isLt
  rw [State.frameStep_seq]
  show (s.seq.procT + 1).toNat = _
  rw [BitVec.toNat_add, show (1 : Word).toNat = 1 from rfl]
  omega

/-- A frame ends its block exactly where it is the last one. -/
theorem State.frameStep_busy_of_busy (hb : s.status.busy = true) :
    s.frameStep.status.busy = decide (s.seq.procT + 1 ≠ s.seq.procN) := by
  rw [State.frameStep_busy, hb]
  by_cases hlast : s.seq.procT + 1 = s.seq.procN
  · rw [if_pos hlast, decide_eq_false (not_not.2 hlast)]
  · rw [if_neg hlast, decide_eq_true hlast]

/-- The last frame of a block, by the numbers. -/
theorem State.frameStep_busy_eq_true_iff (hb : s.status.busy = true) (h : s.seq.procT.toNat < s.seq.procN.toNat) :
    s.frameStep.status.busy = true ↔ s.seq.procT.toNat + 1 ≠ s.seq.procN.toNat := by
  have hnext : s.seq.procT + 1 = s.frameStep.seq.procT := by rw [State.frameStep_seq]
  rw [State.frameStep_busy_of_busy hb, decide_eq_true_iff, hnext, Ne, ← BitVec.toNat_inj, State.frameStep_procT h]

/-- While frames are left, `m` frames leave the block running and `m` frames further. -/
theorem State.frames_of_lt (hb : s.status.busy = true) {m : Nat} (hm : s.seq.procT.toNat + m < s.seq.procN.toNat) :
    (s.frames m).status.busy = true ∧ (s.frames m).seq.procT.toNat = s.seq.procT.toNat + m ∧
      (s.frames m).seq.procN = s.seq.procN := by
  induction m with
  | zero => exact ⟨hb, rfl, rfl⟩
  | succ m ih =>
    obtain ⟨hbusy, hcount, htotal⟩ := ih (by omega)
    have hleft : (s.frames m).seq.procT.toNat < (s.frames m).seq.procN.toNat := by rw [hcount, htotal]; omega
    rw [State.frames_succ, State.frameStep_busy_eq_true_iff hbusy hleft, State.frameStep_procT hleft,
      State.frameStep_procN, hcount, htotal]
    exact ⟨by omega, by omega, rfl⟩

end Block

/-- Settles O51: by the frames before the last, and the last one. -/
theorem blockRunsEveryFrame : Obligations.BlockRunsEveryFrame := by
  intro s hb hlt n
  refine ⟨fun m hm => ?_, ?_⟩
  · obtain ⟨hbusy, hcount, -⟩ := s.frames_of_lt hb (m := m) (by omega)
    exact ⟨hbusy, hcount⟩
  · obtain ⟨k, hk⟩ : ∃ k, n = k + 1 := Nat.exists_eq_add_one.2 (by omega)
    obtain ⟨hbusy, hcount, htotal⟩ := s.frames_of_lt hb (m := k) (by omega)
    have hleft : (s.frames k).seq.procT.toNat < (s.frames k).seq.procN.toNat := by rw [hcount, htotal]; omega
    rw [hk, State.frames_succ, State.frameStep_procN, htotal, ← Bool.not_eq_true,
      State.frameStep_busy_eq_true_iff hbusy hleft, hcount, htotal]
    exact ⟨by omega, rfl⟩

/-! ### One channel of a frame (R176, R177, R179, R222 to R224) -/

/-- The value channel `c` pushes in frame `t`, from the state before its part of the frame (R222, R223). -/
def State.channelWet (s : State) (t c : Nat) : F32 :=
  feedbackSum s.par.feedback (s.bufRead (s.bufIndex c t)) (s.dlPop c)

/-- The output of channel `c` in frame `t`, from the state before its part of the frame (R222, R224). -/
def State.channelOut (s : State) (t c : Nat) : F32 :=
  mixOutput s.par.mix (s.channelWet t c) (s.bufRead (s.bufIndex c t))

/-- What a frame of a running block needs of the state before its channels: an allocated line in canonical form with a
head in range for every channel, and a word of BUF for every channel's sample. -/
structure State.FrameReady (s : State) (t : Nat) : Prop where
  wf : DelayRam.wf s.dl.ram
  alloc : s.dl.alloc = true
  heads : s.ch ≤ s.dl.heads.length
  head : ∀ c, c < s.ch → s.head c < s.delayM
  frame : t < s.spec.blockSize.toNat
  words : s.ch * s.spec.blockSize.toNat ≤ s.params.bufRamWords

section Channel
variable {s u : State} {t c d : Nat}

theorem State.channelStep_eq_push_write (s : State) (t c : Nat) :
    s.channelStep t c = (s.dlPush c (s.channelWet t c)).bufWrite (s.bufIndex c t) (s.channelOut t c) := rfl

theorem State.bufIndex_lt (h : s.FrameReady t) (hc : c < s.ch) : s.bufIndex c t < s.params.bufRamWords := by
  have hrow := Nat.mul_le_mul_right s.spec.blockSize.toNat (Nat.succ_le_of_lt hc)
  have hframe := h.frame
  have hwords := h.words
  rw [Nat.succ_mul] at hrow
  unfold State.bufIndex
  omega

/-- The samples of different channels are different words of BUF. -/
theorem State.bufIndex_inj (ht : t < s.spec.blockSize.toNat) : s.bufIndex c t = s.bufIndex d t ↔ c = d := by
  unfold State.bufIndex
  rw [Nat.add_right_cancel_iff, Nat.mul_right_cancel_iff (by omega)]

/-- The part of one channel sets that channel's sample and no other word of BUF. -/
theorem State.bufRead_channelStep (hc : s.bufIndex c t < s.params.bufRamWords) (k : Nat) :
    (s.channelStep t c).bufRead k = if s.bufIndex c t = k then s.channelOut t c else s.bufRead k := by
  rw [State.channelStep_eq_push_write]
  split
  · next hk => subst hk; exact State.bufRead_bufWrite_same (s.dlPush c _) hc _
  · next hk => exact State.bufRead_bufWrite_ne (s.dlPush c _) hk _

theorem State.bufByte_channelStep {a : Nat}
    (ha : a < bufAddr s.params (s.bufIndex c t) ∨ bufAddr s.params (s.bufIndex c t) + 4 ≤ a) :
    (s.channelStep t c).bufByte a = s.bufByte a := by
  rw [State.channelStep_eq_push_write]
  exact State.bufByte_bufWrite_outside (s.dlPush c _) _ _ ha

/-- A write to BUF is no write to the delay line. -/
theorem State.delayRead_bufWrite (s : State) (j : Nat) (v : Word) (d k : Nat) :
    (s.bufWrite j v).delayRead d k = s.delayRead d k := by
  unfold State.bufWrite
  split <;> rfl

/-- The part of one channel writes the word at that channel's head and no other word of the line. -/
theorem State.delayRead_channelStep (h : s.FrameReady t) (hc : c < s.ch) (hd : d < s.ch) {k : Nat} (hk : k < s.delayM) :
    (s.channelStep t c).delayRead d k = if c = d ∧ s.head c = k then s.channelWet t c else s.delayRead d k := by
  rw [State.channelStep_eq_push_write, State.delayRead_bufWrite,
    State.delayRead_dlPush h.wf h.alloc hd (h.head c hc) hk]

/-- A pop depends on the delay length, the capacity, the channel's head and the channel's words alone. -/
theorem State.dlPop_congr (hlen : u.dl.len = s.dl.len) (hM : u.delayM = s.delayM) (hhead : u.head c = s.head c)
    (hread : ∀ k, k < s.delayM → u.delayRead c k = s.delayRead c k) : u.dlPop c = s.dlPop c := by
  have htap (n : Nat) :
      u.delayRead c (tapIndex (s.head c) n s.delayM) = s.delayRead c (tapIndex (s.head c) n s.delayM) :=
    hread _ (tapIndex_lt_of_pos (Nat.succ_pos _))
  simp only [State.dlPop, hlen, hM, hhead, htap]

end Channel

/-! ### The channels of a frame, in order (R222) -/

/-- The state after the parts of the first `n` channels of frame `t`. -/
def State.afterChannels (h : State) (t n : Nat) : State := (List.range n).foldl (State.channelStep t) h

/-- What the parts of the first `n` channels leave in the memories: those channels' samples, and the words at their heads,
are what the state `h` before the channels gives them, and everything else of BUF and of the line is as in `h`. -/
structure State.ChannelsDone (h : State) (t n : Nat) : Prop where
  wf : DelayRam.wf (h.afterChannels t n).dl.ram
  sample : ∀ c, c < h.ch → (h.afterChannels t n).bufRead (h.bufIndex c t) =
    if c < n then h.channelOut t c else h.bufRead (h.bufIndex c t)
  byte : ∀ a, (∀ c, c < n → a < bufAddr h.params (h.bufIndex c t) ∨ bufAddr h.params (h.bufIndex c t) + 4 ≤ a) →
    (h.afterChannels t n).bufByte a = h.bufByte a
  word : ∀ c k, c < h.ch → k < h.delayM → (h.afterChannels t n).delayRead c k =
    if c < n ∧ h.head c = k then h.channelWet t c else h.delayRead c k

section Channels
variable {h : State} {t n : Nat}

theorem State.afterChannels_succ (h : State) (t n : Nat) :
    h.afterChannels t (n + 1) = (h.afterChannels t n).channelStep t n := by
  simp only [State.afterChannels, List.range_succ, List.foldl_append, List.foldl_cons, List.foldl_nil]

/-- The channels write the delay RAM, the heads and BUF only. -/
theorem State.afterChannels_eq (hn : n ≤ h.dl.heads.length) :
    h.afterChannels t n = { h with
      dl := { h.dl with ram := (h.afterChannels t n).dl.ram, heads := (h.afterChannels t n).dl.heads }
      buf := (h.afterChannels t n).buf } := by
  obtain ⟨hdl, -⟩ := State.channels_dl t h hn
  refine (State.channels_eq t h (List.range n)).trans ?_
  rw [hdl]
  rfl

theorem State.head_afterChannels (hn : n ≤ h.dl.heads.length) (c : Nat) :
    (h.afterChannels t n).head c = if c < n then (h.head c + 1) % h.delayM else h.head c :=
  (State.channels_dl t h hn).2 c

theorem State.delayM_afterChannels (hn : n ≤ h.dl.heads.length) : (h.afterChannels t n).delayM = h.delayM := by
  rw [State.afterChannels_eq hn]
  rfl

theorem State.ChannelsDone.zero (hh : h.FrameReady t) : h.ChannelsDone t 0 where
  wf := hh.wf
  sample _ _ := rfl
  byte _ _ := rfl
  word _ _ _ _ := by simp only [Nat.not_lt_zero, false_and, if_false]; rfl

/-- The channels that are left can run. -/
theorem State.ChannelsDone.frameReady (hdone : h.ChannelsDone t n) (hh : h.FrameReady t) (hn : n < h.ch) :
    (h.afterChannels t n).FrameReady t := by
  have hlen : n ≤ h.dl.heads.length := hn.le.trans hh.heads
  have heq := State.afterChannels_eq (t := t) hlen
  have hch : (h.afterChannels t n).ch = h.ch := by rw [heq]; rfl
  refine ⟨hdone.wf, ?_, ?_, fun c hc => ?_, ?_, ?_⟩
  · rw [heq]; exact hh.alloc
  · rw [hch, State.afterChannels, State.channels_heads_length]; exact hh.heads
  · rw [State.head_afterChannels hlen, State.delayM_afterChannels hlen]
    split
    · exact Nat.mod_lt _ (Nat.succ_pos _)
    · exact hh.head c (hch ▸ hc)
  · rw [heq]; exact hh.frame
  · rw [heq]; exact hh.words

/-- The channels do not interact: what the next one pushes and puts out is what the state before the channels gives. -/
theorem State.ChannelsDone.next_channel (hdone : h.ChannelsDone t n) (hh : h.FrameReady t) (hn : n < h.ch) :
    (h.afterChannels t n).channelWet t n = h.channelWet t n ∧
      (h.afterChannels t n).channelOut t n = h.channelOut t n := by
  have hlen : n ≤ h.dl.heads.length := hn.le.trans hh.heads
  have heq := State.afterChannels_eq (t := t) hlen
  have hpar : (h.afterChannels t n).par = h.par := by rw [heq]
  have hindex : (h.afterChannels t n).bufIndex n t = h.bufIndex n t := by rw [heq]; rfl
  have hdry : (h.afterChannels t n).bufRead (h.bufIndex n t) = h.bufRead (h.bufIndex n t) := by
    rw [hdone.sample n hn, if_neg (lt_irrefl n)]
  have hpop : (h.afterChannels t n).dlPop n = h.dlPop n := by
    refine State.dlPop_congr (by rw [heq]) (State.delayM_afterChannels hlen) ?_ fun k hk => ?_
    · rw [State.head_afterChannels hlen, if_neg (lt_irrefl n)]
    · rw [hdone.word n k hn hk, if_neg fun hlt => lt_irrefl n hlt.1]
  have hwet : (h.afterChannels t n).channelWet t n = h.channelWet t n := by
    rw [State.channelWet, State.channelWet, hpar, hindex, hdry, hpop]
  exact ⟨hwet, by rw [State.channelOut, State.channelOut, hwet, hpar, hindex, hdry]⟩

theorem State.ChannelsDone.succ (hdone : h.ChannelsDone t n) (hh : h.FrameReady t) (hn : n < h.ch) :
    h.ChannelsDone t (n + 1) := by
  have hlen : n ≤ h.dl.heads.length := hn.le.trans hh.heads
  have heq := State.afterChannels_eq (t := t) hlen
  have hch : (h.afterChannels t n).ch = h.ch := by rw [heq]; rfl
  have hindex : (h.afterChannels t n).bufIndex n t = h.bufIndex n t := by rw [heq]; rfl
  have hparams : (h.afterChannels t n).params = h.params := by rw [heq]
  have hM := State.delayM_afterChannels (t := t) hlen
  have hu := hdone.frameReady hh hn
  obtain ⟨hwet, hout⟩ := hdone.next_channel hh hn
  refine ⟨?_, fun c hc => ?_, fun a ha => ?_, fun c k hc hk => ?_⟩ <;> rw [State.afterChannels_succ]
  · rw [State.channelStep_eq_push_write, State.bufWrite_dl]
    exact DelayRam.wf_write hdone.wf _ _
  · rw [State.bufRead_channelStep (State.bufIndex_lt hu (hch ▸ hn)), hindex, hout, hdone.sample c hc]
    simp only [State.bufIndex_inj hh.frame]
    rcases eq_or_ne n c with rfl | hne
    · simp
    · simp only [hne, if_false, show c < n + 1 ↔ c < n by omega]
  · rw [State.bufByte_channelStep (by rw [hparams, hindex]; exact ha n (Nat.lt_succ_self n))]
    exact hdone.byte a fun c hc => ha c (Nat.lt_succ_of_lt hc)
  · rw [State.delayRead_channelStep hu (hch ▸ hn) (hch ▸ hc) (hM ▸ hk), hwet, hdone.word c k hc hk,
      State.head_afterChannels hlen, if_neg (lt_irrefl n)]
    rcases eq_or_ne n c with rfl | hne
    · simp
    · simp only [hne, false_and, if_false, show c < n + 1 ↔ c < n by omega]

theorem State.FrameReady.channelsDone (hh : h.FrameReady t) (hn : n ≤ h.ch) : h.ChannelsDone t n := by
  induction n with
  | zero => exact .zero hh
  | succ n ih => exact (ih (Nat.le_of_succ_le hn)).succ hh hn

end Channels

/-- A running block of a Ready state meets what its frames need. -/
theorem State.EngineInv.frameReady {s : State} (hs : s.EngineInv) (hwf : DelayRam.wf s.dl.ram)
    (hr : s.status.ready = true) (hb : s.status.busy = true) : s.frameHead.FrameReady s.seq.procT.toNat := by
  obtain ⟨-, hready, -, -, hbusy, hheads⟩ := hs
  obtain ⟨-, -, halloc, -, -, -, hsame, hhead, -, -, ⟨-, -, ⟨-, hchmax⟩, hwords, -⟩, -⟩ := hready hr
  obtain ⟨hcount, hleft⟩ := hbusy hb
  exact
    { wf := hwf
      alloc := halloc
      heads := hheads ▸ hchmax
      head := fun c hc => (hsame c hc).trans_lt hhead
      frame := hcount ▸ hleft
      words := hwords }

/-- What a frame leaves for a channel, from the state before the channels. -/
theorem State.FrameReady.frameStep_channel {s : State} {c : Nat} (hh : s.frameHead.FrameReady s.seq.procT.toNat)
    (hc : c < s.ch) :
    s.frameStep.bufRead (s.bufIndex c s.seq.procT.toNat) = s.frameHead.channelOut s.seq.procT.toNat c ∧
    s.frameStep.delayRead c (s.head c) = s.frameHead.channelWet s.seq.procT.toNat c ∧
    ∀ k, k < s.delayM → k ≠ s.head c → s.frameStep.delayRead c k = s.delayRead c k := by
  obtain ⟨-, hsample, -, hword⟩ := hh.channelsDone le_rfl
  refine ⟨(hsample c hc).trans (if_pos hc), (hword c _ hc (hh.head c hc)).trans (if_pos ⟨hc, rfl⟩), fun k hk hne => ?_⟩
  exact (hword c k hc hk).trans (if_neg fun heq => hne heq.2.symm)

/-- A frame changes no byte of BUF outside its channels' samples. -/
theorem State.FrameReady.frameStep_bufByte {s : State} {a : Nat} (hh : s.frameHead.FrameReady s.seq.procT.toNat)
    (ha : ∀ c, c < s.ch → a < bufAddr s.params (s.bufIndex c s.seq.procT.toNat) ∨
      bufAddr s.params (s.bufIndex c s.seq.procT.toNat) + 4 ≤ a) : s.frameStep.bufByte a = s.bufByte a :=
  (hh.channelsDone le_rfl).byte a ha

/-- Settles O53: the state before the channels is O52's, and what each channel leaves is computed from it. -/
theorem frameComputesEveryChannel : Obligations.FrameComputesEveryChannel := by
  intro s hs hwf hr hb t y h f at_ dry wet
  have hh : s.frameHead = h := frameAdvancesOscillatorOnce s
  have hready : s.frameHead.FrameReady t := hs.frameReady hwf hr hb
  obtain ⟨hdl, hhead⟩ := State.frameStep_dl (s := s) hready.heads
  refine ⟨fun c hc => ?_, fun c hc => ?_, fun a => hready.frameStep_bufByte, ?_⟩
  · obtain ⟨hout, hwet, hothers⟩ := hready.frameStep_channel hc
    rw [hh] at hout hwet
    exact ⟨hout, hwet, (hhead c).trans (if_pos hc), hothers⟩
  · exact (hhead c).trans (if_neg (Nat.not_lt.2 hc))
  · refine s.frameStep_eq.trans ?_
    rw [← State.frameStep_busy, State.frameStep_busy_of_busy hb, hdl, hh]

end Sys2Proof.Machine

/-! PROOFS. Past the schedule a step of a running block is a frame, or a step of a master that counts one more choice that
ENGINE has waited, and ENGINE's wait is bounded (R221, R320, R322; log 6). -/

namespace Sys2Proof.Machine

/-! ### The choice past the schedule (R82, R320, R322) -/

/-- The agent that a master is. -/
def masterAgent : Port → Agent
  | .host => .host
  | .ctrl => .ctrl

/-- The state with one more choice that ENGINE has waited. -/
def State.chosenOverEngine (s : State) : State := { s with tick := s.tick + 1, waited := s.waited + 1 }

/-- Who moves in a running block past the schedule, and the state with the choice taken: ENGINE, alone or by the arbiter,
or a master that has a step, while ENGINE's wait is not over. -/
inductive State.BusyChoice (s : State) : Agent → State → Prop
  | engineAlone : s.BusyChoice .engine s
  | engine : s.BusyChoice .engine { s with tick := s.tick + 1, waited := 0 }
  | master (m : Port) (henabled : s.masterEnabled m = true) (hwait : s.waited < Config.patience) :
      s.BusyChoice (masterAgent m) s.chosenOverEngine

section Choice
variable {s t : State}

theorem State.agentStep_master (s : State) (m : Port) : s.agentStep (masterAgent m) = s.masterStep m := by
  cases m <;> rfl

theorem State.arbitrate_of_patience {a : Agent} (hb : s.status.busy = true) (hwait : Config.patience ≤ s.waited) :
    s.arbitrate a = .engine := by
  rw [State.arbitrate, if_pos ⟨hb, hwait⟩]

/-- The arbiter's choice while a block runs. -/
theorem State.BusyChoice.arbitrate {a : Agent} (hb : s.status.busy = true) (ha : s.enabled a = true) :
    s.BusyChoice (s.arbitrate a)
      { s with tick := s.tick + 1, waited := if s.arbitrate a = .engine then 0 else s.waited + 1 } := by
  have henabled := State.arbitrate_enabled ha
  have hwait : s.arbitrate a ≠ .engine → s.waited < Config.patience := fun hne =>
    Nat.lt_of_not_le fun hle => hne (State.arbitrate_of_patience hb hle)
  cases harb : s.arbitrate a <;> rw [harb] at henabled hwait
  case engine => exact .engine
  case host => exact .master .host henabled (hwait nofun)
  case ctrl => exact .master .ctrl henabled (hwait nofun)

theorem State.choose_of_busy (hb : s.status.busy = true) (hsched : s.schedule = []) :
    ∃ a u, s.choose = some (a, u) ∧ s.BusyChoice a u := by
  have hengine : Agent.engine ∈ s.enabledAgents := State.mem_enabledAgents.2 hb
  have hself : { s with schedule := [] } = s := by rw [← hsched]
  cases hagents : s.enabledAgents with
  | nil => rw [hagents] at hengine; cases hengine
  | cons a rest =>
    cases rest with
    | nil =>
      obtain rfl : Agent.engine = a := List.mem_singleton.1 (hagents ▸ hengine)
      refine ⟨.engine, s, ?_, .engineAlone⟩
      simp only [State.choose, hsched, State.scheduled, hagents, hself]
    | cons b rest =>
      have ha : s.enabled a = true := State.mem_enabledAgents.1 (by simp [hagents])
      refine ⟨_, _, ?_, State.BusyChoice.arbitrate hb ha⟩
      simp only [State.choose, hsched, State.scheduled, hagents]

/-- Past the schedule a step of a running block is that of the agent chosen. -/
theorem step_of_busy (hb : s.status.busy = true) (hsched : s.schedule = []) :
    ∃ a u, s.BusyChoice a u ∧ step s = u.agentStep a := by
  obtain ⟨a, u, hchoose, hu⟩ := State.choose_of_busy hb hsched
  exact ⟨a, u, hu, by rw [step, stepAgents, hchoose]⟩

end Choice

/-! ### What a master's step keeps of a running block -/

/-- A block that runs goes on running, and the order of the agents is as it was. -/
structure State.GoesOn (s t : State) : Prop where
  schedule : t.schedule = s.schedule
  waited : t.waited = s.waited
  busy : s.status.busy = true → t.status.busy = true

section GoesOn
variable {s t : State} {m : Port}

theorem State.GoesOn.answer (s : State) (m : Port) (v : Word) : s.GoesOn (s.answer m v) := by
  cases m <;> exact ⟨rfl, rfl, id⟩

theorem State.GoesOn.setMaster (s : State) (m : Port) (r : Master) : s.GoesOn (s.setMaster m r) := by
  cases m <;> exact ⟨rfl, rfl, id⟩

theorem State.GoesOn.trans {u : State} (h : s.GoesOn u) (h' : u.GoesOn t) : s.GoesOn t :=
  ⟨h'.schedule.trans h.schedule, h'.waited.trans h.waited, h'.busy ∘ h.busy⟩

/-- No command ends a block that runs, RESET no more than another (log 8). -/
theorem CommandEffect.busy {i : Instr} (h : CommandEffect s i t) (hb : s.status.busy = true) :
    t.status.busy = true := by
  cases h with
  | init cap => rwa [State.initApply_eq]
  | wtInit size => unfold State.wtInitialise; split <;> exact hb
  | process => rfl
  | _ => exact hb

theorem CommandEffect.goesOn {i : Instr} (h : CommandEffect s i t) : s.GoesOn t where
  schedule := by rw [h.frame]
  waited := by rw [h.frame]
  busy := h.busy

theorem State.GoesOn.of_writeReg {r : Reg} {v : Word} (h : s.writeReg r v = .next t) : s.GoesOn t := by
  rcases s.writeReg_cases r v with hr | hr | hr | ⟨k, -, hr⟩ | ⟨p, -, hr⟩ <;> rw [hr] at h
  · cases h; exact ⟨rfl, rfl, id⟩
  · cases h; exact ⟨rfl, rfl, id⟩
  · cases h; exact ⟨rfl, rfl, id⟩
  · cases h
    exact ⟨State.bufWrite_schedule .., State.bufWrite_waited .., fun hb => by rwa [State.bufWrite_status]⟩
  · rcases s.submit_cases p v with ⟨i, -, hsubmit⟩ | ⟨e, -, hsubmit⟩ <;> rw [hsubmit] at h
    · exact (CommandEffect.of_exec h).goesOn
    · cases h; exact ⟨rfl, rfl, id⟩

theorem State.GoesOn.of_busAccess {a : BusAccess} (h : s.busAccess m a = .next t) : s.GoesOn t := by
  obtain ⟨-, hcases⟩ := State.busAccess_next h
  rcases hcases with ⟨_, _, r, -, -, rfl⟩ | ⟨_, _, _, _, -, -, hwrite⟩ | ⟨_, _, -, -, rfl⟩ | ⟨_, _, _, -, -, rfl⟩
  · exact .answer s m _
  · exact .of_writeReg hwrite
  · exact State.GoesOn.trans (u := s.flag .errBus) ⟨rfl, rfl, id⟩ (.answer _ m 0)
  · exact ⟨rfl, rfl, id⟩

/-- A poll while a block runs hands the master STATUS and stays. -/
theorem State.masterStep_waitIdle_of_busy {rest : List MasterOp} (h : (s.master m).pending = .waitIdle :: rest)
    (hb : s.status.busy = true) : s.masterStep m = .next (s.answer m s.status.word) := by
  rw [State.masterStep_waitIdle h, if_pos hb, ← h]
  rfl

/-- The step of a master that has one, in a running block: its next access, not held, or a poll. -/
theorem State.masterStep_of_enabled (hb : s.status.busy = true) (henabled : s.masterEnabled m = true)
    (h : s.masterStep m = .next t) :
    s.GoesOn t ∧ ∃ rest,
      (∃ a, (s.master m).pending = .access a :: rest ∧ s.held m a = false ∧
        (s.setMaster m { s.master m with pending := rest }).busAccess m a = .next t) ∨
      ((s.master m).pending = .waitIdle :: rest ∧ t = s.answer m s.status.word) := by
  cases hops : (s.master m).pending with
  | nil => simp [State.masterEnabled, hops] at henabled
  | cons op rest =>
    cases op with
    | access a =>
      have hheld : s.held m a = false := by simpa [State.masterEnabled, hops] using henabled
      rw [State.masterStep_access hops] at h
      exact ⟨.trans (.setMaster s m _) (.of_busAccess h), rest, .inl ⟨a, rfl, hheld, h⟩⟩
    | waitIdle =>
      cases (State.masterStep_waitIdle_of_busy hops hb).symm.trans h
      exact ⟨.answer s m _, rest, .inr ⟨rfl, rfl⟩⟩

end GoesOn

/-- A frame takes nothing of the masters and of the order of the agents. -/
theorem State.frameStep_order (u : State) :
    u.frameStep.schedule = u.schedule ∧ u.frameStep.seq.procT = u.seq.procT + 1 ∧
      u.frameStep.host = u.host ∧ u.frameStep.ctrl = u.ctrl := by
  rw [State.frameStep_eq]
  exact ⟨rfl, rfl, rfl, rfl⟩

/-- Settles O30: by who moves, past the schedule, in a running block. -/
theorem engineIsNotStarved : Obligations.EngineIsNotStarved := by
  unfold Obligations.EngineIsNotStarved
  intro frameOf
  have hframe {s : State} (u : State) (hsched : s.schedule = [])
      (hu : u = s ∨ u = { s with tick := s.tick + 1, waited := 0 }) : frameOf s u.frameStep := by
    obtain ⟨horder, hcount, hhost, hctrl⟩ := u.frameStep_order
    refine ⟨⟨u, hu, rfl⟩, ?_⟩
    rcases hu with rfl | rfl <;> exact ⟨horder.trans hsched, hcount, hhost, hctrl⟩
  refine ⟨fun s sched hb hsched => step_of_schedule hsched hb, fun s hb hsched hwait => ?_,
    fun s t hb hsched hstep => ?_⟩
  · obtain ⟨a, u, hu, hnext⟩ := step_of_busy hb hsched
    cases hu with
    | engineAlone => exact ⟨_, hnext, hframe s hsched (.inl rfl)⟩
    | engine => exact ⟨_, hnext, hframe _ hsched (.inr rfl)⟩
    | master m _ hlt => exact absurd hwait (Nat.not_le.2 hlt)
  · obtain ⟨a, u, hu, hnext⟩ := step_of_busy hb hsched
    rw [hnext] at hstep
    cases hu with
    | engineAlone => cases hstep; exact .inl (hframe s hsched (.inl rfl))
    | engine => cases hstep; exact .inl (hframe _ hsched (.inr rfl))
    | master m henabled hlt =>
      rw [State.agentStep_master] at hstep
      have hu : s.chosenOverEngine.masterEnabled m = true := by cases m <;> exact henabled
      obtain ⟨hgo, rest, hop⟩ := State.masterStep_of_enabled (s := s.chosenOverEngine) hb hu hstep
      refine .inr ⟨hgo.schedule.trans hsched, hgo.waited, hgo.busy hb, m, rest, ?_⟩
      cases m <;> exact hop

end Sys2Proof.Machine

/-! PROOFS. The five parameter setters (spec/44_parameters.md): each is legal on both ports and does its one update behind
the guard of R250 and R251. -/

namespace Sys2Proof.Machine

/-! ### The guard, case by case (R250, R251) -/

section Guard
variable {s : State} {v : F32} (e : State)

theorem State.setterGuard_of_not_ready (hr : s.status.ready = false) : s.setterGuard v e = s := by
  simp [State.setterGuard, hr]

theorem State.setterGuard_of_not_isFinite (hr : s.status.ready = true) (hv : isFinite v = false) :
    s.setterGuard v e = s.flag .errNonfinite := by
  simp [State.setterGuard, hr, hv]

theorem State.setterGuard_of_isFinite (hr : s.status.ready = true) (hv : isFinite v = true) :
    s.setterGuard v e = e := by
  simp [State.setterGuard, hr, hv]

end Guard

/-- The guard as a choice of whole states, in the order of its checks. -/
theorem State.setterGuard_eq (s : State) (v : F32) (e : State) :
    s.setterGuard v e =
      if s.status.ready = false then s else if isFinite v = false then s.flag .errNonfinite else e := by
  cases hr : s.status.ready with
  | false => exact State.setterGuard_of_not_ready e hr
  | true =>
    cases hv : isFinite v with
    | false => exact State.setterGuard_of_not_isFinite e hr hv
    | true => exact State.setterGuard_of_isFinite e hr hv

/-! ### The setters on the ports and behind the guard (R103, R252 to R257) -/

section Setters
variable {s t : State} {v : F32} {i : Instr}

/-- A setter's own words read back as it on either port: every operand is well formed (R102, R103). -/
theorem decode_setter (hsetter : i.isSetter = true) (p : Port) : decode p (cmdwOf i) (argOf i) = .ok i := by
  refine decodeOfEncodeIsIdentity i p ?_ (legalOn_iff.2 (.inl hsetter))
  cases i with
  | setMix | setFeedback | setDelayTime | setLfoAmp | setLfoFreq => rfl
  | _ => cases hsetter

/-- What a setter with the effect `t` answers, its guard written out. -/
theorem exec_of_setterGuard (h : exec i s = .next (s.setterGuard v t)) :
    exec i s = .next (
      if s.status.ready = false then s
      else if isFinite v = false then
        { s with status := { s.status with sticky := s.status.sticky ||| 0b00010#5 } }
      else t) := by
  rw [h, State.setterGuard_eq]
  rfl

/-- Each of the five setters is some effect behind the guard. -/
theorem exists_exec_eq_setterGuard (s : State)
    (hi : i ∈ [Instr.setMix v, .setFeedback v, .setDelayTime v, .setLfoAmp v, .setLfoFreq v]) :
    ∃ e, exec i s = .next (s.setterGuard v e) := by
  simp only [List.mem_cons, List.not_mem_nil, or_false] at hi
  rcases hi with rfl | rfl | rfl | rfl | rfl <;> exact ⟨_, rfl⟩

end Setters

/-- Settles O16: whatever the effect behind the guard is, the guard keeps it out. -/
theorem settersAreGuarded : Obligations.SettersAreGuarded := by
  intro s v i hi
  obtain ⟨e, hexec⟩ := exists_exec_eq_setterGuard s hi
  refine ⟨fun hr => ?_, fun hr hv => ?_⟩
  · rw [hexec, State.setterGuard_of_not_ready e hr]
  · rw [hexec, State.setterGuard_of_not_isFinite e hr hv]
    rfl

/-- Settles O17: the effect is the store of `clamp01`. -/
theorem setMixStoresClamped : Obligations.SetMixStoresClamped := fun s v =>
  ⟨decode_setter (i := .setMix v) rfl, exec_of_setterGuard (t := { s with par := { s.par with mix := clamp01 v } }) rfl⟩

/-- Settles O18: the effect is the store of `clamp01`. -/
theorem setFeedbackStoresClamped : Obligations.SetFeedbackStoresClamped := fun s v =>
  ⟨decode_setter (i := .setFeedback v) rfl,
    exec_of_setterGuard (t := { s with par := { s.par with feedback := clamp01 v } }) rfl⟩

/-- Settles O19: the effect is the store of `clampLow0`. -/
theorem setDelayTimeStoresClamped : Obligations.SetDelayTimeStoresClamped := fun s v =>
  ⟨decode_setter (i := .setDelayTime v) rfl,
    exec_of_setterGuard (t := { s with par := { s.par with delayTime := clampLow0 v } }) rfl⟩

/-- Settles O20: the effect is the store of the parameter, then `OSC_SET_GAIN`. -/
theorem setLfoAmpStoresGain : Obligations.SetLfoAmpStoresGain := fun s v =>
  ⟨decode_setter (i := .setLfoAmp v) rfl,
    exec_of_setterGuard (t := State.oscSetGain { s with par := { s.par with lfoAmp := v } } v) rfl⟩

/-- Settles O21: the effect is the store of the parameter, then `OSC_SET_FREQUENCY` (R152). -/
theorem setLfoFreqStoresIncrement : Obligations.SetLfoFreqStoresIncrement := fun s v =>
  ⟨decode_setter (i := .setLfoFreq v) rfl,
    exec_of_setterGuard (t := State.oscSetFrequency { s with par := { s.par with lfoFreq := v } } v) rfl⟩

end Sys2Proof.Machine

/-! PROOFS. INIT reports the first failing check, what a command and a step do to the sticky bits, and what stops the
block (R210, R301 to R310). -/

namespace Sys2Proof.Machine

/-! ### INIT that fails (R210, R304, R308) -/

section InitFails
variable {s : State} {code : InitCode}

theorem exec_init_of_ready (hr : s.status.ready = true) :
    exec .init s = .next ((s.initFailed .alreadyReady).flag .errState) := by
  simp [exec, execInit, hr]

theorem exec_init_of_error (hr : s.status.ready = false) (hcheck : initCheck s.params s.cfg = .error code) :
    exec .init s = .next (s.initFailed code) := by
  simp [exec, execInit, hr, hcheck]

end InitFails

/-- Settles O9: the staged values fail a check after they have passed the ones before it, in `initCheck`'s order. -/
theorem initReportsFirstFailedCheck : Obligations.InitReportsFirstFailedCheck := by
  intro s arg
  refine ⟨rfl, rfl, ?_⟩
  intro md sr bs ch fails
  refine ⟨fun hr => ⟨.alreadyReady, rfl, exec_init_of_ready hr⟩, fun hr => ?_⟩
  have hfails (code : InitCode) (hcheck : initCheck s.params s.cfg = .error code) : fails code.bits :=
    ⟨code, rfl, exec_init_of_error hr hcheck⟩
  simp only [← isPositiveFinite_iff, Bool.not_eq_true, md, sr, bs, ch]
  split
  · next hmd => exact hfails .maxDelay (by simp [initCheck, hmd])
  next hmd =>
  split
  · next hsr => exact hfails .sampleRate (by simp [initCheck, hmd, hsr])
  next hsr =>
  split
  · next hbs => exact hfails .blockSize (by simp [initCheck, hmd, hsr, hbs])
  next hbs =>
  split
  · next hch => exact hfails .channels (by simp [initCheck, hmd, hsr, hbs, hch])
  next hch =>
  split
  · next hbuf => exact hfails .buffer (by simp [initCheck, hmd, hsr, hbs, hch, hbuf])
  next hbuf =>
  split
  · next hcap => exact hfails .capacity (by simp [initCheck, hmd, hsr, hbs, hch, hbuf, hcap])
  next cap hcap =>
  split
  · next hram => exact hfails .capacity (by simp [initCheck, hmd, hsr, hbs, hch, hbuf, hcap, hram])
  · next hram =>
    have hcheck : initCheck s.params s.cfg = .ok cap := by simp [initCheck, hmd, hsr, hbs, hch, hbuf, hcap, hram]
    exact ⟨_, exec_init_of_check hr hcheck, rfl, rfl, rfl⟩

/-! ### The sticky bits (R228, R302, R309) -/

/-- The sticky bits are as they were, or one of them is flagged. -/
inductive StickySet (b : BitVec 5) : BitVec 5 → Prop
  | nothing : StickySet b b
  | flag (x : Sticky) : StickySet b (b ||| x.mask)

section Sticky
variable {s t : State} {i : Instr} {b b' : BitVec 5} {m n : Nat}

theorem Sticky.getLsbD_mask (x : Sticky) (n : Nat) : x.mask.getLsbD n = decide (x.place = n) := by
  have hplace : x.place < 5 := by cases x <;> decide
  rw [Sticky.mask, ← BitVec.twoPow_eq, BitVec.getLsbD_twoPow]
  simp [hplace]

theorem StickySet.stays (h : StickySet b b') (hn : b.getLsbD n = true) : b'.getLsbD n = true := by
  cases h with
  | nothing => exact hn
  | flag x => rw [BitVec.getLsbD_or, hn, Bool.true_or]

/-- A bit that is 0 becomes 1 only by its own flag. -/
theorem Sticky.place_eq_of_new {x : Sticky} (h : (b ||| x.mask).getLsbD n = true ∧ b.getLsbD n = false) :
    x.place = n := by
  obtain ⟨hset, hclear⟩ := h
  rwa [BitVec.getLsbD_or, hclear, Bool.false_or, x.getLsbD_mask, decide_eq_true_iff] at hset

theorem StickySet.new_unique (h : StickySet b b') (hm : b'.getLsbD m = true ∧ b.getLsbD m = false)
    (hn : b'.getLsbD n = true ∧ b.getLsbD n = false) : m = n := by
  cases h with
  | nothing => simp_all
  | flag x => exact (Sticky.place_eq_of_new hm).symm.trans (Sticky.place_eq_of_new hn)

/-- A setter's guard flags ERR_NONFINITE where it does not let the setter's effect through (R250, R251). -/
theorem StickySet.setterGuard {e : State} (v : F32) (he : e.status.sticky = s.status.sticky) :
    StickySet s.status.sticky (s.setterGuard v e).status.sticky := by
  rw [State.setterGuard_eq]
  split
  · exact .nothing
  · split
    · exact .flag .errNonfinite
    · rw [he]; exact .nothing

theorem State.wtInitialise_sticky (s : State) (size : Int) :
    (s.wtInitialise size).status.sticky = s.status.sticky := by
  unfold State.wtInitialise
  split <;> rfl

theorem exec_init_sticky (h : exec .init s = .next t) : StickySet s.status.sticky t.status.sticky := by
  cases hr : s.status.ready with
  | true => cases (exec_init_of_ready hr).symm.trans h; exact .flag .errState
  | false =>
    cases hcheck : initCheck s.params s.cfg with
    | error code => cases (exec_init_of_error hr hcheck).symm.trans h; exact .nothing
    | ok cap =>
      cases (exec_init_of_check hr hcheck).symm.trans h
      rw [State.initApply_eq]
      exact .nothing

theorem exec_clear_sticky (h : exec .clear s = .next t) : t.status.sticky = s.status.sticky := by
  cases hr : s.status.ready with
  | true => cases (exec_clear_of_ready hr).symm.trans h; rfl
  | false => cases (exec_clear_of_not_ready hr).symm.trans h; rfl

theorem exec_process_sticky {k : Word} (h : exec (.process k) s = .next t) :
    StickySet s.status.sticky t.status.sticky := by
  cases hr : s.status.ready with
  | false => cases (exec_process_of_not_ready hr).symm.trans h; exact .nothing
  | true =>
    by_cases hk : k = s.spec.blockSize
    · cases (exec_process_of_eq hr hk).symm.trans h; exact .nothing
    · cases (exec_process_of_ne hr hk).symm.trans h; exact .flag .errFrames

/-- A command clears the bits of STATUS_CLEAR's mask, or it flags at most one. -/
theorem exec_sticky (h : exec i s = .next t) :
    (∃ mask, i = .statusClear mask ∧ t.status.sticky = s.status.sticky &&& ~~~mask) ∨
      StickySet s.status.sticky t.status.sticky := by
  cases i with
  | statusClear mask => cases h; exact .inl ⟨mask, rfl, rfl⟩
  | init => exact .inr (exec_init_sticky h)
  | clear => rw [exec_clear_sticky h]; exact .inr .nothing
  | process k => exact .inr (exec_process_sticky h)
  | wtInit size => cases h; rw [State.wtInitialise_sticky]; exact .inr .nothing
  | setMix v | setFeedback v | setDelayTime v | setLfoAmp v | setLfoFreq v => cases h; exact .inr (.setterGuard v rfl)
  | cfgSampleRate | cfgBlockSize | cfgChannels | cfgMaxDelay | reset => cases h; exact .inr .nothing

theorem StoreEffect.sticky (h : StoreEffect s t) : StickySet s.status.sticky t.status.sticky := by
  cases h with
  | flag x => exact .flag x
  | bufWrite k v => rw [State.bufWrite_status]; exact .nothing
  | _ => exact .nothing

theorem State.frameStep_sticky (s : State) : s.frameStep.status.sticky = s.status.sticky := by rw [State.frameStep_eq]

/-- A step clears the bits of a mask, or it flags at most one. -/
theorem step_sticky (h : step s = .next t) :
    (∃ mask, t.status.sticky = s.status.sticky &&& ~~~mask) ∨ StickySet s.status.sticky t.status.sticky := by
  cases step_effect h with
  | store u hu h => obtain ⟨_⟩ := hu; exact .inr h.sticky
  | command u hu i _ h =>
    obtain ⟨_⟩ := hu
    exact (exec_sticky h).imp_left fun ⟨mask, _, hclear⟩ => ⟨mask, hclear⟩
  | frame u hu _ h => obtain ⟨_⟩ := hu; subst h; rw [State.frameStep_sticky]; exact .inr .nothing

end Sticky

/-- Settles O38: a command but STATUS_CLEAR clears no bit, and a frame writes none. -/
theorem stickyBitsStay : Obligations.StickyBitsStay := by
  refine ⟨fun i s t n h hi hn => ?_, State.frameStep_sticky⟩
  rcases exec_sticky h with ⟨mask, rfl, -⟩ | hset
  · exact absurd rfl (hi mask)
  · exact hset.stays hn

/-- Settles O39: a step that clears bits sets none, and another one flags at most one. -/
theorem atMostOneStickyBitPerStep : Obligations.AtMostOneStickyBitPerStep := by
  intro s t hstep m n hm hn
  rcases step_sticky hstep with ⟨mask, hclear⟩ | hset
  · obtain ⟨hset, hunset⟩ := hm
    rw [hclear, BitVec.getLsbD_and, hunset, Bool.false_and] at hset
    cases hset
  · exact hset.new_unique hm hn

/-! ### What stops the block (R70, R301, R310; log 9) -/

section Stops
variable {s : State} {m : Port} {a : BusAccess}

theorem exists_exec (i : Instr) (s : State) : ∃ t, exec i s = .next t := by
  obtain ⟨t, ht, -⟩ := exec_effect i s
  exact ⟨t, ht⟩

theorem State.exists_writeReg (s : State) (r : Reg) (v : Word) : ∃ t, s.writeReg r v = .next t := by
  rcases s.writeReg_cases r v with h | h | h | ⟨_, -, h⟩ | ⟨p, -, h⟩ <;> rw [h]
  any_goals exact ⟨_, rfl⟩
  rcases s.submit_cases p v with ⟨i, -, hsubmit⟩ | ⟨_, -, hsubmit⟩ <;> rw [hsubmit]
  · exact exists_exec i s
  · exact ⟨_, rfl⟩

theorem State.exists_busAccess (m : Port) (h : inWindow s.params a.addr = true) : ∃ t, s.busAccess m a = .next t := by
  simp only [State.busAccess, h, if_true]
  cases a with
  | read addr width => cases BusAccess.target s.params (.read addr width) <;> exact ⟨_, rfl⟩
  | write addr width v =>
    cases BusAccess.target s.params (.write addr width v) with
    | none => exact ⟨_, rfl⟩
    | some r => exact s.exists_writeReg r v

theorem State.busAccess_foreign (m : Port) (h : inWindow s.params a.addr = false) :
    s.busAccess m a = .fault .outsideWindow := by
  simp only [State.busAccess, h, Bool.false_eq_true, if_false]

/-- A master's next access is outside the block's window. -/
def State.Foreign (s : State) (m : Port) : Prop :=
  ∃ a rest, (s.master m).pending = .access a :: rest ∧ inWindow s.params a.addr = false

/-- A master's step stops the block only on an access outside the window. -/
theorem State.masterStep_outcome (s : State) (m : Port) :
    (∃ t, s.masterStep m = .next t) ∨ (s.Foreign m ∧ s.masterStep m = .fault .outsideWindow) := by
  cases hops : (s.master m).pending with
  | nil => rw [State.masterStep, hops]; exact .inl ⟨_, rfl⟩
  | cons op rest =>
    cases op with
    | waitIdle => exact .inl ⟨_, State.masterStep_waitIdle hops⟩
    | access a =>
      rw [State.masterStep_access hops]
      cases hin : inWindow s.params a.addr with
      | true => exact .inl (State.exists_busAccess m (by rwa [State.setMaster_params]))
      | false => exact .inr ⟨⟨a, rest, hops, hin⟩, State.busAccess_foreign m (by rwa [State.setMaster_params])⟩

/-- A step stops the block only on a master's access outside the window. -/
theorem step_outcome (s : State) :
    (∃ t, step s = .next t) ∨ ((∃ m, s.Foreign m) ∧ step s = .fault .outsideWindow) := by
  rcases step_cases s with ⟨-, hidle⟩ | ⟨a, u, hchoose, hagent⟩
  · exact .inl ⟨s, hidle⟩
  · have hforeign (m : Port) (h : u.Foreign m) : s.Foreign m := by
      rw [(State.choose_some hchoose).2] at h
      cases m <;> exact h
    have hmaster (m : Port) (ha : u.agentStep a = u.masterStep m) :
        (∃ t, step s = .next t) ∨ ((∃ m, s.Foreign m) ∧ step s = .fault .outsideWindow) := by
      rw [hagent, ha]
      exact (u.masterStep_outcome m).imp_right fun ⟨h, hfault⟩ => ⟨⟨m, hforeign m h⟩, hfault⟩
    cases a with
    | host => exact hmaster .host rfl
    | ctrl => exact hmaster .ctrl rfl
    | engine => exact .inl ⟨_, hagent⟩

end Stops

/-- Settles O40: by the outcomes of a command, of a step and of an access. -/
theorem onlyForeignAccessStops : Obligations.OnlyForeignAccessStops := by
  refine ⟨exists_exec, fun s r h => ?_, fun s hin => ?_, fun s m a h => State.busAccess_foreign m h⟩
  · rcases step_outcome s with ⟨t, hnext⟩ | ⟨-, hfault⟩
    · cases hnext.symm.trans h
    · cases hfault.symm.trans h
  · refine (step_outcome s).resolve_right ?_
    rintro ⟨⟨m, a, rest, hpending, hout⟩, -⟩
    cases hout.symm.trans (hin m a rest hpending)

end Sys2Proof.Machine

/-! PROOFS. Two blocks that agree on the audio state stay in agreement through every frame, every BUF write and every
command but INIT (R344, R352). -/

namespace Sys2Proof.Machine

/-! ### What two blocks share -/

/-- How much of BUF two blocks share: every byte, or the words below a bound. -/
inductive BufScope where
  | whole
  | words (n : Nat)

/-- The words of BUF that a scope holds. -/
def BufScope.Covers : BufScope → Nat → Prop
  | .whole, _ => True
  | .words n, k => k < n

/-- The contents of BUF agree within a scope. -/
def State.SharesBuf (s t : State) (σ : BufScope) : Prop :=
  (σ = .whole → s.buf = t.buf) ∧ ∀ k, σ.Covers k → s.bufRead k = t.bufRead k

/-- The block `x` with the audio registers of `s`: what `AudioEq` lists but BUF and the sequencer (R344, R352). -/
def State.withAudioOf (x s : State) : State :=
  { x with
    params := s.params, spec := s.spec, par := s.par, osc := s.osc, dl := s.dl, wt := s.wt
    status := { x.status with ready := s.status.ready, busy := s.status.busy, wtValid := s.status.wtValid } }

/-- A block that agrees with `s` on the audio registers, on BUF within a scope and, while a block runs, on the
sequencer. -/
inductive AudioSim (σ : BufScope) (s : State) : State → Prop
  | mk (x : State) (hseq : s.status.busy = true → s.seq = x.seq) (hbuf : s.SharesBuf (x.withAudioOf s) σ) :
      AudioSim σ s (x.withAudioOf s)

section Sim
variable {σ : BufScope} {s t e f : State} {n : Nat}

theorem State.SharesBuf.of_buf_eq (hparams : s.params = t.params) (hbuf : s.buf = t.buf) : s.SharesBuf t σ :=
  ⟨fun _ => hbuf, fun k _ => by simp only [State.bufRead, State.bufByte, hparams, hbuf]⟩

theorem AudioSim.of_audioEq (h : s.AudioEq { t with buf := s.buf }) (hbuf : s.SharesBuf t σ) : AudioSim σ s t := by
  obtain ⟨hparams, hspec, hpar, hosc, hdl, hwt, -, hready, hbusy, hvalid, hseq⟩ := h
  have ht : t.withAudioOf s = t := by
    simp only [State.withAudioOf, hparams, hspec, hpar, hosc, hdl, hwt, hready, hbusy, hvalid]
  have hsim : AudioSim σ s (t.withAudioOf s) := .mk t hseq (by rwa [ht])
  rwa [ht] at hsim

theorem AudioSim.audioEq (h : AudioSim σ s t) : s.AudioEq { t with buf := s.buf } := by
  obtain ⟨x, hseq, -⟩ := h
  exact ⟨rfl, rfl, rfl, rfl, rfl, rfl, rfl, rfl, rfl, rfl, hseq⟩

theorem AudioSim.sharesBuf (h : AudioSim σ s t) : s.SharesBuf t σ := by
  obtain ⟨x, -, hbuf⟩ := h
  exact hbuf

theorem AudioSim.params (h : AudioSim σ s t) : t.params = s.params := by obtain ⟨⟩ := h; rfl

theorem AudioSim.spec (h : AudioSim σ s t) : t.spec = s.spec := by obtain ⟨⟩ := h; rfl

theorem AudioSim.seq (h : AudioSim σ s t) (hb : s.status.busy = true) : t.seq = s.seq := by
  obtain ⟨x, hseq, -⟩ := h
  exact (hseq hb).symm

theorem AudioSim.ready (h : AudioSim σ s t) : t.status.ready = s.status.ready := by obtain ⟨⟩ := h; rfl

theorem AudioSim.busy (h : AudioSim σ s t) : t.status.busy = s.status.busy := by obtain ⟨⟩ := h; rfl

theorem AudioSim.wtValid (h : AudioSim σ s t) : t.status.wtValid = s.status.wtValid := by obtain ⟨⟩ := h; rfl

/-- Agreement on all of BUF is the agreement that R352 speaks of. -/
theorem audioSim_whole_iff : AudioSim .whole s t ↔ s.AudioEq t := by
  constructor
  · intro h
    obtain ⟨hbuf, -⟩ := h.sharesBuf
    have haudio := h.audioEq
    rwa [hbuf rfl] at haudio
  · intro h
    obtain ⟨hparams, -, -, -, -, -, hbuf, -⟩ := id h
    exact .of_audioEq (by rwa [hbuf]) (.of_buf_eq hparams hbuf)

/-! ### Stores and the guard -/

/-- A word of BUF after a write: the word written there, where the RAM has it, else the old one. -/
theorem State.bufRead_bufWrite (s : State) (j : Nat) (v : Word) (k : Nat) :
    (s.bufWrite j v).bufRead k = if j = k ∧ k < s.params.bufRamWords then v else s.bufRead k := by
  by_cases hjk : j = k
  · subst hjk
    by_cases hj : j < s.params.bufRamWords
    · rw [State.bufRead_bufWrite_same s hj, if_pos ⟨rfl, hj⟩]
    · rw [State.bufWrite, if_neg hj, if_neg fun h => hj h.2]
  · rw [State.bufRead_bufWrite_ne s hjk, if_neg fun h => hjk h.1]

/-- One write in both blocks keeps what they share of BUF. -/
theorem State.SharesBuf.bufWrite (h : s.SharesBuf t σ) (hparams : s.params = t.params) (j : Nat) (v : Word) :
    (s.bufWrite j v).SharesBuf (t.bufWrite j v) σ := by
  obtain ⟨hwhole, hread⟩ := h
  refine ⟨fun hσ => ?_, fun k hk => ?_⟩
  · simp only [State.bufWrite, hparams]
    split
    · simp only [hwhole hσ]
    · exact hwhole hσ
  · rw [State.bufRead_bufWrite, State.bufRead_bufWrite, hread k hk, hparams]

theorem AudioSim.bufWrite (h : AudioSim σ s t) (j : Nat) (v : Word) :
    AudioSim σ (s.bufWrite j v) (t.bufWrite j v) := by
  have hbuf := h.sharesBuf.bufWrite h.params.symm j v
  rw [s.bufWrite_eq, t.bufWrite_eq] at hbuf ⊢
  obtain ⟨x, hseq, -⟩ := h
  exact .mk { x with buf := ((x.withAudioOf s).bufWrite j v).buf } hseq hbuf

/-- The guard lets the same setters through in both blocks (R250, R251). -/
theorem AudioSim.setterGuard (h : AudioSim σ s t) (he : AudioSim σ e f) (v : F32) :
    AudioSim σ (s.setterGuard v e) (t.setterGuard v f) := by
  cases hr : s.status.ready with
  | false =>
    rwa [State.setterGuard_of_not_ready e hr, State.setterGuard_of_not_ready f (h.ready.trans hr)]
  | true =>
    cases hv : isFinite v with
    | false =>
      rw [State.setterGuard_of_not_isFinite e hr hv, State.setterGuard_of_not_isFinite f (h.ready.trans hr) hv]
      obtain ⟨x, hseq, hbuf⟩ := h
      exact .mk (x.flag _) hseq hbuf
    | true =>
      rwa [State.setterGuard_of_isFinite e hr hv, State.setterGuard_of_isFinite f (h.ready.trans hr) hv]

/-! ### The commands -/

theorem AudioSim.wtInitialise (h : AudioSim σ s t) (size : Int) :
    AudioSim σ (s.wtInitialise size) (t.wtInitialise size) := by
  cases hvalid : s.status.wtValid with
  | true => rwa [wtInitialise_of_valid hvalid, wtInitialise_of_valid (h.wtValid.trans hvalid)]
  | false =>
    rw [wtInitialise_of_not_valid hvalid, wtInitialise_of_not_valid (h.wtValid.trans hvalid)]
    obtain ⟨x, hseq, hbuf⟩ := h
    exact .mk x hseq hbuf

theorem State.after_command {i : Instr} (h : exec i s = .next e) : s.after (.command i) = e := by
  simp only [State.after, h]

theorem AudioSim.clear (h : AudioSim σ s t) : AudioSim σ (s.after (.command .clear)) (t.after (.command .clear)) := by
  cases hr : s.status.ready with
  | false =>
    rwa [State.after_command (exec_clear_of_not_ready hr),
      State.after_command (exec_clear_of_not_ready (h.ready.trans hr))]
  | true =>
    rw [State.after_command (exec_clear_of_ready hr), State.after_command (exec_clear_of_ready (h.ready.trans hr))]
    obtain ⟨x, hseq, hbuf⟩ := h
    exact .mk x hseq hbuf

theorem AudioSim.process (h : AudioSim σ s t) (n : Word) :
    AudioSim σ (s.after (.command (.process n))) (t.after (.command (.process n))) := by
  have ht := h.ready
  have hspec := h.spec
  cases hr : s.status.ready with
  | false =>
    rwa [State.after_command (exec_process_of_not_ready hr),
      State.after_command (exec_process_of_not_ready (ht.trans hr))]
  | true =>
    by_cases hn : n = s.spec.blockSize
    · rw [State.after_command (exec_process_of_eq hr hn),
        State.after_command (exec_process_of_eq (ht.trans hr) (hspec ▸ hn))]
      obtain ⟨x, -, hbuf⟩ := h
      exact .mk (x.startBlock n) (fun _ => rfl) hbuf
    · rw [State.after_command (exec_process_of_ne hr hn),
        State.after_command (exec_process_of_ne (ht.trans hr) (hspec ▸ hn))]
      obtain ⟨x, hseq, hbuf⟩ := h
      exact .mk (x.flag _) hseq hbuf

/-- A command other than INIT computes the same in both blocks. -/
theorem AudioSim.command {i : Instr} (h : AudioSim σ s t) (hi : i ≠ .init) :
    AudioSim σ (s.after (.command i)) (t.after (.command i)) := by
  obtain ⟨x, hseq, hbuf⟩ := id h
  cases i with
  | cfgSampleRate v => exact .mk { x with cfg := { x.cfg with sampleRate := v } } hseq hbuf
  | cfgBlockSize v => exact .mk { x with cfg := { x.cfg with blockSize := v } } hseq hbuf
  | cfgChannels v => exact .mk { x with cfg := { x.cfg with channels := v } } hseq hbuf
  | cfgMaxDelay v => exact .mk { x with cfg := { x.cfg with maxDelay := v } } hseq hbuf
  | init => exact absurd rfl hi
  | reset => exact .mk x hseq hbuf
  | clear => exact h.clear
  | process n => exact h.process n
  | wtInit size => exact h.wtInitialise size
  | statusClear mask => exact .mk (x.clearSticky mask) hseq hbuf
  | setMix v | setFeedback v | setDelayTime v | setLfoAmp v | setLfoFreq v =>
    refine h.setterGuard ?_ v
    exact .mk x hseq hbuf

/-! ### The frames -/

/-- The oscillator's step and the delay length depend on the audio registers alone (R153, R225). -/
theorem AudioSim.frameHead (h : AudioSim σ s t) : AudioSim σ s.frameHead t.frameHead := by
  obtain ⟨x, hseq, hbuf⟩ := h
  exact .mk x hseq hbuf

/-- What a channel pushes and puts out depends on the audio registers and its own sample alone (R222). -/
theorem AudioSim.channel_values (h : AudioSim σ s t) {c : Nat} (hc : σ.Covers (s.bufIndex c n)) :
    t.channelWet n c = s.channelWet n c ∧ t.channelOut n c = s.channelOut n c := by
  obtain ⟨x, -, -, hshared⟩ := h
  have hdry := hshared _ hc
  have hwet : (x.withAudioOf s).channelWet n c = s.channelWet n c :=
    congrArg (feedbackSum s.par.feedback · (s.dlPop c)) hdry.symm
  exact ⟨hwet, congrArg₂ (mixOutput s.par.mix) hwet hdry.symm⟩

theorem AudioSim.dlPush (h : AudioSim σ s t) (c : Nat) (v : F32) : AudioSim σ (s.dlPush c v) (t.dlPush c v) := by
  obtain ⟨x, hseq, hbuf⟩ := h
  exact .mk x hseq hbuf

theorem AudioSim.channelStep (h : AudioSim σ s t) {c : Nat} (hc : σ.Covers (s.bufIndex c n)) :
    AudioSim σ (s.channelStep n c) (t.channelStep n c) := by
  obtain ⟨hwet, hout⟩ := h.channel_values hc
  have hindex : t.bufIndex c n = s.bufIndex c n := by rw [State.bufIndex, State.bufIndex, h.spec]
  rw [State.channelStep_eq_push_write, State.channelStep_eq_push_write, hwet, hout, hindex]
  exact (h.dlPush c _).bufWrite _ _

theorem AudioSim.channels (h : AudioSim σ s t) {l : List Nat} (hl : ∀ c ∈ l, σ.Covers (s.bufIndex c n)) :
    AudioSim σ (l.foldl (State.channelStep n) s) (l.foldl (State.channelStep n) t) := by
  induction l generalizing s t with
  | nil => exact h
  | cons c l ih =>
    refine ih (h.channelStep (hl c List.mem_cons_self)) fun d hd => ?_
    rw [State.channelStep_eq]
    exact hl d (List.mem_cons_of_mem c hd)

/-- The count of a frame: the end of `FRAME_STEP` (R221). -/
def State.frameCounted (s : State) : State :=
  { s with
    seq := { s.seq with procT := s.seq.procT + 1 }
    status := { s.status with busy := if s.seq.procT + 1 = s.seq.procN then false else s.status.busy } }

theorem State.frameStep_eq_frameCounted (s : State) :
    s.frameStep = (s.frame s.seq.procT.toNat).frameCounted := rfl

theorem AudioSim.frameCounted (h : AudioSim σ s t) (hb : s.status.busy = true) :
    AudioSim σ s.frameCounted t.frameCounted := by
  obtain ⟨x, hseq, hbuf⟩ := h
  have hx : x = { x with seq := s.seq } := by rw [hseq hb]
  rw [hx]
  exact .mk { x with seq := s.frameCounted.seq } (fun _ => rfl) hbuf

/-- A frame of a running block computes the same in both blocks, where they share its samples (R344, R352). -/
theorem AudioSim.frameStep (h : AudioSim σ s t) (hb : s.status.busy = true)
    (hcovers : ∀ c, c < s.ch → σ.Covers (s.bufIndex c s.seq.procT.toNat)) : AudioSim σ s.frameStep t.frameStep := by
  have hframe : AudioSim σ (s.frame s.seq.procT.toNat) (t.frame s.seq.procT.toNat) := by
    have hch : t.frameHead.ch = s.frameHead.ch := by rw [State.ch, State.ch, h.frameHead.spec]
    rw [State.frame, State.frame, hch]
    exact h.frameHead.channels fun c hc => hcovers c (List.mem_range.1 hc)
  rw [State.frameStep_eq_frameCounted, State.frameStep_eq_frameCounted, h.seq hb]
  refine hframe.frameCounted ?_
  rwa [State.frame_eq]

theorem State.after_frame_of_busy (hb : s.status.busy = true) : s.after .frame = s.frameStep := if_pos hb

theorem State.after_frame_of_idle (hb : s.status.busy = false) : s.after .frame = s := by
  simp only [State.after, hb, Bool.false_eq_true, if_false]

/-- One event other than INIT keeps two blocks in agreement, where they share the samples of its frame. -/
theorem AudioSim.after {ev : Event} (h : AudioSim σ s t) (hev : ev ≠ .command .init)
    (hcovers : s.status.busy = true → ∀ c, c < s.ch → σ.Covers (s.bufIndex c s.seq.procT.toNat)) :
    AudioSim σ (s.after ev) (t.after ev) := by
  cases ev with
  | command i => exact h.command fun hi => hev (congrArg Event.command hi)
  | bufWrite k v => exact h.bufWrite k v
  | frame =>
    cases hb : s.status.busy with
    | false => rwa [State.after_frame_of_idle hb, State.after_frame_of_idle (h.busy.trans hb)]
    | true =>
      rw [State.after_frame_of_busy hb, State.after_frame_of_busy (h.busy.trans hb)]
      exact h.frameStep hb (hcovers hb)

end Sim

/-- What every event of a sequence keeps of two blocks, the sequence keeps. -/
theorem State.afterAll_keeps {R : State → State → Prop} {q : List Event}
    (hstep : ∀ ev ∈ q, ∀ s t, R s t → R (s.after ev) (t.after ev)) {s t : State} (h : R s t) :
    R (s.afterAll q) (t.afterAll q) := by
  induction q generalizing s t with
  | nil => exact h
  | cons ev q ih =>
    obtain ⟨hev, hq⟩ := List.forall_mem_cons.1 hstep
    exact ih hq (hev s t h)

/-- Settles O57: agreement on all of BUF covers the samples of every frame. -/
theorem audioDependsOnlyOnAudioState : Obligations.AudioDependsOnlyOnAudioState := by
  intro s t q hq h
  rw [← audioSim_whole_iff] at h ⊢
  exact State.afterAll_keeps
    (fun _ hev _ _ h => h.after (ne_of_mem_of_not_mem hev hq) fun _ _ _ => trivial) h

end Sys2Proof.Machine

/-! PROOFS. After INIT the audio state is the staged one, whatever ran before, and stays the same in every run that loads
the same block (R343, R344). -/

namespace Sys2Proof.Machine

/-! ### The frames of a block lie within its words -/

/-- A prepared block has at most `n` words of BUF, and while one runs its frames are frames of it (R49, R220). An
Uninitialized block has no channel. -/
def State.BlockWithin (n : Nat) (s : State) : Prop :=
  s.ch ≠ 0 → 0 < s.spec.blockSize.toNat ∧ s.ch * s.spec.blockSize.toNat ≤ n ∧
    (s.status.busy = true → s.seq.procN = s.spec.blockSize ∧ s.seq.procT.toNat < s.seq.procN.toNat)

section BlockWithin
variable {s t : State} {n : Nat} {i : Instr}

theorem CommandEffect.blockWithin (h : CommandEffect s i t) (hi : i ≠ .init) (hs : s.BlockWithin n) :
    t.BlockWithin n := by
  cases h with
  | init => exact absurd rfl hi
  | reset => exact fun hch => absurd rfl hch
  | process =>
    intro hch
    obtain ⟨hpos, hwords, -⟩ := hs hch
    exact ⟨hpos, hwords, fun _ => ⟨rfl, hpos⟩⟩
  | wtInit size => unfold State.wtInitialise; split <;> exact hs
  | _ => exact hs

theorem State.BlockWithin.frameStep (hs : s.BlockWithin n) (hb : s.status.busy = true) :
    s.frameStep.BlockWithin n := by
  intro hch
  rw [State.frameStep_ch] at hch ⊢
  obtain ⟨hpos, hwords, hbusy⟩ := hs hch
  obtain ⟨hcount, hleft⟩ := hbusy hb
  rw [State.frameStep_spec]
  exact ⟨hpos, hwords, fun hb' => ⟨s.frameStep_procN.trans hcount, State.frameStep_procT_lt hleft hb'⟩⟩

theorem State.BlockWithin.after {ev : Event} (hs : s.BlockWithin n) (hev : ev ≠ .command .init) :
    (s.after ev).BlockWithin n := by
  cases ev with
  | command i =>
    obtain ⟨t, ht, heffect⟩ := exec_effect i s
    rw [State.after_command ht]
    exact heffect.blockWithin (fun hi => hev (congrArg Event.command hi)) hs
  | bufWrite k v =>
    show (s.bufWrite k v).BlockWithin n
    rw [State.bufWrite_eq]
    exact hs
  | frame =>
    cases hb : s.status.busy with
    | false => rwa [State.after_frame_of_idle hb]
    | true => rw [State.after_frame_of_busy hb]; exact hs.frameStep hb

/-- The samples of the next frame are words of the block. -/
theorem State.BlockWithin.covers (hs : s.BlockWithin n) (hb : s.status.busy = true) {c : Nat} (hc : c < s.ch) :
    (BufScope.words n).Covers (s.bufIndex c s.seq.procT.toNat) := by
  obtain ⟨-, hwords, hbusy⟩ := hs (by omega)
  obtain ⟨hcount, hleft⟩ := hbusy hb
  rw [hcount] at hleft
  have hrow := Nat.mul_le_mul_right s.spec.blockSize.toNat (Nat.succ_le_of_lt hc)
  rw [Nat.succ_mul] at hrow
  show s.bufIndex c s.seq.procT.toNat < n
  unfold State.bufIndex
  omega

end BlockWithin

/-! ### Loading a block -/

section Loads
variable {s t : State} {loads : List Event}

/-- Loads keep two blocks in agreement. -/
theorem AudioSim.afterAll_loads {σ : BufScope} (h : AudioSim σ s t)
    (hloads : ∀ ev ∈ loads, ∃ k w, ev = .bufWrite k w) : AudioSim σ (s.afterAll loads) (t.afterAll loads) := by
  refine State.afterAll_keeps (fun ev hev s t h => ?_) h
  obtain ⟨k, w, rfl⟩ := hloads ev hev
  exact h.bufWrite k w

/-- A loaded word is the same in both blocks, whatever it was before: the last load of it counts. -/
theorem State.bufRead_afterAll_loads (hloads : ∀ ev ∈ loads, ∃ k w, ev = .bufWrite k w) (hparams : s.params = t.params)
    {k : Nat} (hk : k < s.params.bufRamWords)
    (hread : s.bufRead k = t.bufRead k ∨ ∃ w, Event.bufWrite k w ∈ loads) :
    (s.afterAll loads).bufRead k = (t.afterAll loads).bufRead k := by
  induction loads generalizing s t with
  | nil => simpa [State.afterAll] using hread
  | cons ev loads ih =>
    obtain ⟨⟨j, v, rfl⟩, hrest⟩ := List.forall_mem_cons.1 hloads
    refine ih (s := s.bufWrite j v) (t := t.bufWrite j v) hrest (by simpa using hparams) (by simpa using hk) ?_
    rw [State.bufRead_bufWrite, State.bufRead_bufWrite, ← hparams]
    by_cases hjk : j = k
    · exact .inl (by simp only [hjk, hk, and_self, if_true])
    · simpa [hjk, Ne.symm hjk] using hread

/-- Two blocks that agree but for BUF share the words that both load. -/
theorem AudioSim.words_of_loads {n : Nat} (h : s.AudioEq { t with buf := s.buf })
    (hloads : ∀ ev ∈ loads, ∃ k w, ev = .bufWrite k w) (hn : n ≤ s.params.bufRamWords)
    (hall : ∀ k, k < n → ∃ w, Event.bufWrite k w ∈ loads) :
    AudioSim (.words n) (s.afterAll loads) (t.afterAll loads) := by
  have hsim : AudioSim (.words 0) s t := .of_audioEq h ⟨nofun, fun k hk => absurd hk (Nat.not_lt_zero k)⟩
  refine .of_audioEq (hsim.afterAll_loads hloads).audioEq ⟨nofun, fun k hk => ?_⟩
  exact State.bufRead_afterAll_loads hloads hsim.params.symm (lt_of_lt_of_le hk hn) (.inr (hall k hk))

theorem State.BlockWithin.afterAll_loads {n : Nat} (hs : s.BlockWithin n)
    (hloads : ∀ ev ∈ loads, ∃ k w, ev = .bufWrite k w) : (s.afterAll loads).BlockWithin n := by
  refine State.afterAll_keeps (R := fun u _ => u.BlockWithin n) (fun ev hev u _ hu => ?_) (t := s) hs
  obtain ⟨k, w, rfl⟩ := hloads ev hev
  exact hu.after nofun

end Loads

/-! ### INIT -/

section Init
variable {s t : State} {cap : Nat}

/-- Two Uninitialized blocks with the same staged values and wavetable are prepared alike (R211, R343). -/
theorem State.initApply_audioEq (hs : s.UninitInv) (ht : t.UninitInv) (hparams : s.params = t.params)
    (hcfg : s.cfg = t.cfg)
    (hwt : (s.wtInitialise s.params.wtDefaultSize).wt = (t.wtInitialise t.params.wtDefaultSize).wt) :
    (s.initApply cap).AudioEq { t.initApply cap with buf := (s.initApply cap).buf } := by
  obtain ⟨⟨hspar, -⟩, hsbusy⟩ := hs
  obtain ⟨⟨htpar, -⟩, htbusy⟩ := ht
  have hpar := hspar.trans htpar.symm
  simp only [State.initApply_eq, ← hparams] at hwt ⊢
  rw [← hpar, ← hcfg, ← hwt]
  exact ⟨rfl, rfl, rfl, rfl, rfl, rfl, rfl, rfl, hsbusy.trans htbusy.symm, rfl,
    fun hb => absurd (hsbusy.symm.trans hb) Bool.false_ne_true⟩

/-- INIT prepares a block of the staged size, and none runs. -/
theorem State.initApply_blockWithin (hidle : s.status.busy = false) (hcheck : initCheck s.params s.cfg = .ok cap) :
    (s.initApply cap).BlockWithin (s.cfg.channels.toNat * s.cfg.blockSize.toNat) := by
  obtain ⟨-, -, ⟨hpos, -⟩, -⟩ := initCheck_ok hcheck
  rw [State.initApply_eq]
  exact fun _ => ⟨hpos, le_rfl, fun hb => absurd (hidle.symm.trans hb) Bool.false_ne_true⟩

end Init

/-! ### Runs -/

section Runs
variable {s t : State}

theorem AudioSim.audioSame {n : Nat} (h : AudioSim (.words n) s t) (hs : s.BlockWithin n) : s.AudioSame t := by
  refine ⟨h.audioEq, fun k hk => ?_⟩
  obtain ⟨-, hshared⟩ := h.sharesBuf
  have hch : s.ch ≠ 0 := by
    intro hch
    rw [hch, Nat.zero_mul] at hk
    exact Nat.not_lt_zero k hk
  obtain ⟨-, hwords, -⟩ := hs hch
  exact hshared k (hk.trans_le hwords)

/-- Two blocks that share the words of the prepared block share them through every run without INIT. -/
theorem AudioSim.audioSame_afterAll {n : Nat} {q : List Event} (h : AudioSim (.words n) s t) (hs : s.BlockWithin n)
    (hq : Event.command .init ∉ q) : (s.afterAll q).AudioSame (t.afterAll q) := by
  have hrun := State.afterAll_keeps (R := fun s t => AudioSim (.words n) s t ∧ s.BlockWithin n) (q := q)
    (fun ev hev s t ⟨hsim, hblock⟩ =>
      have hne := ne_of_mem_of_not_mem hev hq
      ⟨hsim.after hne fun hb _ hc => hblock.covers hb hc, hblock.after hne⟩) ⟨h, hs⟩
  obtain ⟨hsim, hblock⟩ := hrun
  exact hsim.audioSame hblock

end Runs

/-- Settles O58: INIT leaves the same audio registers in both blocks, and BUF is the same from the start or where the run
reads it. -/
theorem reinitialisedRunsAgree : Obligations.ReinitialisedRunsAgree := by
  intro s t cap loads q hs ht hsr htr hparams hcfg hwt hcheck hq u v
  obtain ⟨-, -, hsuninit, -⟩ := hs
  obtain ⟨-, -, htuninit, -⟩ := ht
  have hsinv := hsuninit hsr
  obtain ⟨-, hidle⟩ := id hsinv
  have hu : u = s.initApply cap := State.after_command (exec_init_of_check hsr hcheck)
  have hv : v = t.initApply cap := State.after_command (exec_init_of_check htr (hparams ▸ hcfg ▸ hcheck))
  have haudio : u.AudioEq { v with buf := u.buf } := by
    rw [hu, hv]
    exact State.initApply_audioEq hsinv (htuninit htr) hparams hcfg hwt
  refine ⟨fun hbuf => ?_, fun hloads hall => ?_⟩
  · refine audioDependsOnlyOnAudioState u v q hq ?_
    have huv : u.buf = v.buf := by rw [hu, hv, State.initApply_eq, State.initApply_eq, hbuf]
    rwa [huv] at haudio
  · obtain ⟨-, -, -, -, hwords, -⟩ := initCheck_ok hcheck
    have hparams' : u.params = s.params := by rw [hu, State.initApply_eq]
    have hblock := (State.initApply_blockWithin hidle hcheck).afterAll_loads hloads
    rw [← hu] at hblock
    simp only [State.afterAll, List.foldl_append]
    exact (AudioSim.words_of_loads haudio hloads (hparams' ▸ hwords) hall).audioSame_afterAll hblock hq

end Sys2Proof.Machine

/-! PROOFS. A non-finite operand makes every sum, product and interpolation non-finite, so a non-finite sample or tap
stays in the delay line (R361). -/

namespace Sys2Proof.Machine

/-! ### Non-finite operands (R14, R361) -/

section NonFinite
variable {a b c : F32}

/-- A non-finite word is a NaN or an infinity. -/
theorem isNaN_or_isInf_of_not_finite (h : isFinite a = false) : isNaN a = true ∨ isInf a = true := by
  by_contra hne
  obtain ⟨hn, hi⟩ := not_or.1 hne
  simp [isFinite_of_not_isNaN_not_isInf (Bool.eq_false_iff.2 hn) (Bool.eq_false_iff.2 hi)] at h

theorem isFinite_qNaN : isFinite qNaN = false := by decide

theorem isNaN_qNaN : isNaN qNaN = true := by decide

/-- A sum with a non-finite operand is a NaN or the infinity among its operands. -/
theorem isFinite_fadd_eq_false (h : isFinite a = false ∨ isFinite b = false) : isFinite (fadd a b) = false := by
  by_cases hnan : isNaN a = true ∨ isNaN b = true
  · rw [fadd_of_isNaN hnan, isFinite_qNaN]
  · simp only [not_or, Bool.not_eq_true] at hnan
    obtain ⟨han, hbn⟩ := hnan
    cases hai : isInf a with
    | true =>
      rw [fadd_of_isInf_left hai hbn]
      split
      · exact isFinite_qNaN
      · exact isFinite_eq_false_of_isInf hai
    | false =>
      have hbi : isInf b = true := by
        have haf := isFinite_of_not_isNaN_not_isInf han hai
        have hb := h.resolve_left (by simp [haf])
        exact (isNaN_or_isInf_of_not_finite hb).resolve_left (by simp [hbn])
      rw [fadd_of_isInf_right han hai hbi]
      exact isFinite_eq_false_of_isInf hbi

/-- A product with a non-finite operand is a NaN or an infinity. -/
theorem isFinite_fmul_eq_false (h : isFinite a = false ∨ isFinite b = false) : isFinite (fmul a b) = false := by
  by_cases hnan : isNaN a = true ∨ isNaN b = true
  · rw [fmul_of_isNaN hnan, isFinite_qNaN]
  · obtain ⟨han, hbn⟩ := not_or.1 hnan
    have hinf : isInf a = true ∨ isInf b = true :=
      h.imp (fun ha => (isNaN_or_isInf_of_not_finite ha).resolve_left han)
        (fun hb => (isNaN_or_isInf_of_not_finite hb).resolve_left hbn)
    rw [fmul_of_isInf (Bool.eq_false_iff.2 han) (Bool.eq_false_iff.2 hbn) hinf]
    split
    · exact isFinite_qNaN
    · exact isFinite_eq_false_of_isInf (isInf_pack_infMag _)

/-- An interpolation between two words, one of which is non-finite, is non-finite (R176). -/
theorem isFinite_interpolate_eq_false (h : isFinite a = false ∨ isFinite b = false) :
    isFinite (interpolate a b c) = false := by
  refine isFinite_fadd_eq_false (h.imp_right fun hb => isFinite_fmul_eq_false (.inr ?_))
  exact isFinite_fadd_eq_false (.inl hb)

/-! ### The feedback sum and the mix (R223, R224) -/

variable {fb m dry wet d : F32}

theorem isFinite_feedbackSum_eq_false (h : isFinite dry = false ∨ isFinite d = false) :
    isFinite (feedbackSum fb dry d) = false :=
  isFinite_fadd_eq_false (h.imp_right fun hd => isFinite_fmul_eq_false (.inl hd))

theorem isFinite_mixOutput_eq_false (h : isFinite wet = false) : isFinite (mixOutput m wet dry) = false :=
  isFinite_fadd_eq_false (.inl (isFinite_fmul_eq_false (.inl h)))

/-- An infinite tap at zero feedback is an invalid product. -/
theorem feedbackSum_eq_qNaN (h : isNaN dry = true ∨ isNaN d = true ∨ (isInf d = true ∧ isZero fb = true)) :
    feedbackSum fb dry d = qNaN := by
  refine fadd_of_isNaN (h.imp_right fun hd => ?_)
  rcases hd with hdn | ⟨hdi, hfb⟩
  · rw [fmul_of_isNaN (.inl hdn), isNaN_qNaN]
  · have hfbn : isNaN fb = false := by rw [isNaN_eq_false_iff, (isZero_iff fb).1 hfb]; exact Nat.zero_le _
    rw [fmul_of_isInf (isNaN_eq_false_of_isInf hdi) hfbn (.inl hdi), if_pos (.inr hfb), isNaN_qNaN]

theorem mixOutput_qNaN (m dry : F32) : mixOutput m qNaN dry = qNaN := by
  refine fadd_of_isNaN (.inl ?_)
  rw [fmul_of_isNaN (.inl isNaN_qNaN), isNaN_qNaN]

end NonFinite

/-! ### The taps of a frame's pop (R176, R225) -/

/-- The whole part of a length in range is not negative. -/
theorem toInt_ffloor_nonneg {x b : F32} (hb : isFinite b = true) (hx : fInRange x b) : 0 ≤ toInt (ffloor x) := by
  obtain ⟨hsign, -⟩ := id hx
  rw [toInt_ffloor (isFinite_of_fInRange hb hx), scaled, if_neg (by simp [hsign])]
  positivity

/-- The delay length a frame sets has a whole part that is not negative. -/
theorem State.SpecLegal.frameHead_len_nonneg {s : State} (h : s.SpecLegal) :
    0 ≤ toInt (ffloor s.frameHead.dl.len) := by
  obtain ⟨-, -, -, -, ⟨hcap1, hcap24⟩, -⟩ := h
  obtain ⟨hfin, -⟩ := fromInt_capacity hcap1 hcap24
  rw [State.frameHead_dl]
  exact toInt_ffloor_nonneg hfin (delayClamp_in_range _ hcap1 hcap24)

/-- The index `L + j` pushes ago, with the steps taken in the other order. -/
theorem tapIndex_toNat_add {L : Int} (hL : 0 ≤ L) (h j M : Nat) :
    tapIndex h (L.toNat + j) M = (((h : Int) - j - L) % (M : Int)).toNat := by
  rw [tapIndex, Nat.cast_add, Int.toNat_of_nonneg hL, sub_sub, add_comm (j : Int)]

/-- A pop that reads a non-finite word at either tap is non-finite (R176, R361). -/
theorem State.isFinite_dlPop_eq_false {s : State} {c : Nat} (hlen : 0 ≤ toInt (ffloor s.dl.len))
    (htap : ∃ j : Nat, (j = 1 ∨ j = 2) ∧ isFinite
      (s.delayRead c (((s.head c : Int) - j - toInt (ffloor s.dl.len)) % (s.delayM : Int)).toNat) = false) :
    isFinite (s.dlPop c) = false := by
  obtain ⟨j, hj, htap⟩ := htap
  rw [← tapIndex_toNat_add hlen] at htap
  refine isFinite_interpolate_eq_false ?_
  rcases hj with rfl | rfl
  · exact .inl htap
  · exact .inr htap

/-- Settles O56: the formulas, and the frame's values for a channel, which are those formulas. -/
theorem nonFiniteSamplesPersist : Obligations.NonFiniteSamplesPersist := by
  refine ⟨fun fb m dry d h => ?_, fun fb m dry d h => ?_, fun s c hs hwf hr hb hc => ?_⟩
  · have hwet := isFinite_feedbackSum_eq_false (fb := fb) h
    exact ⟨hwet, isFinite_mixOutput_eq_false hwet⟩
  · have hwet := feedbackSum_eq_qNaN h
    exact ⟨hwet, by rw [hwet, mixOutput_qNaN]⟩
  · intro f k tap htaps
    have hframe := hs.frameReady hwf hr hb
    obtain ⟨hout, hwet, -⟩ := hframe.frameStep_channel hc
    obtain ⟨hdl, -⟩ := State.frameStep_dl (s := s) hframe.heads
    obtain ⟨-, hready, -⟩ := hs
    obtain ⟨-, -, -, -, -, -, -, -, -, -, hspec, -⟩ := hready hr
    have hlen : f.dl.len = s.frameHead.dl.len := by rw [hdl]
    simp only [tap, hlen] at htaps
    have hpushed : isFinite (s.frameHead.channelWet s.seq.procT.toNat c) = false := by
      refine isFinite_feedbackSum_eq_false (htaps.imp_right fun htaps => ?_)
      refine State.isFinite_dlPop_eq_false hspec.frameHead_len_nonneg ?_
      exact htaps.elim (fun h => ⟨1, .inl rfl, h⟩) (fun h => ⟨2, .inr rfl, h⟩)
    exact ⟨hwet ▸ hpushed, (congrArg isFinite hout).trans (isFinite_mixOutput_eq_false hpushed)⟩

end Sys2Proof.Machine

/-! PROOFS. Power-on reset (R340, R341). -/

namespace Sys2Proof.Machine

/-- The registers that power-on reset does not leave at 0: ID and the capability registers, which are constants, and
BUF, which it does not write (R31, R49, R51). -/
def Reg.keptAtPowerOn : Reg → Bool
  | .id | .capMaxChannels | .capBufWords | .capDelayWords | .capWtMax | .capWtDefault | .buf _ => true
  | _ => false

theorem regTable_keptAtPowerOn :
    ∀ e ∈ regTable, e.1 < 0x080 → e.1 ≠ 0 → e.2.keptAtPowerOn = false := by decide

theorem mem_regTable_of_lookup {off : Nat} {r : Reg} (h : regTable.lookup off = some r) : (off, r) ∈ regTable := by
  obtain ⟨before, after, htable, -⟩ := List.lookup_eq_some_iff.1 h
  rw [htable]
  exact List.mem_append_cons_self

section PowerOn
variable {p : Params}

theorem State.head_powerOn {c : Nat} (hc : c < p.maxChannels) : (State.powerOn p).head c = 0 :=
  State.head_of_replicate (s := State.powerOn p) rfl hc

theorem State.statusWord_powerOn (p : Params) : (State.powerOn p).status.word = 0 := by
  show Status.word ⟨false, false, false, false, .ok, 0⟩ = 0
  decide

theorem State.readReg_powerOn (hp : p.Legal) {r : Reg} (hr : r.keptAtPowerOn = false) :
    (State.powerOn p).readReg r = 0 := by
  cases r with
  | writeHead =>
    obtain ⟨⟨hch, -⟩, -⟩ := hp
    rw [State.readReg, State.head_powerOn hch]
    rfl
  | status => exact State.statusWord_powerOn p
  | id | capMaxChannels | capBufWords | capDelayWords | capWtMax | capWtDefault | buf k => cases hr
  | _ => rfl

end PowerOn

/-- Settles O32: the table's registers below the capability registers, each at its value. -/
theorem powerOnState : Obligations.PowerOnState := by
  intro p hp s
  refine ⟨State.statusWord_powerOn p, rfl, fun off r hoff hne hreg => ?_, fun c hc => State.head_powerOn hc, rfl, rfl,
    rfl, rfl⟩
  rcases regAt_eq_some.1 hreg with ⟨-, hlookup⟩ | ⟨hbuf, -⟩
  · exact State.readReg_powerOn hp (regTable_keptAtPowerOn _ (mem_regTable_of_lookup hlookup) hoff hne)
  · omega

end Sys2Proof.Machine
